-- ==== Sys2Proof/Word.lean ====
section
/-! DEFINITION. The bit-vector types the spec names: registers and addresses (R7, R20, R25), bytes (R28), instruction words (R85), register indices (R86). -/

namespace Sys2Proof

/-- A general register, an address or the pc: 64 bits (R7, R20, R25). -/
abbrev Word := BitVec 64

/-- One byte of data memory (R28). -/
abbrev Byte := BitVec 8

/-- One instruction word (R7, R85). -/
abbrev InsnWord := BitVec 32

/-- The 5-bit register field of an instruction: the only name of a register the block sees (R22, R86, R98). -/
abbrev RegIdx := BitVec 5

end Sys2Proof
end

