-- ==== Sys2Proof/Syntax.lean ====
section
/-! DEFINITION. The instructions as data: one constructor per row of spec/opcode_table.json (R2), with the operands R97 lists for it, each in the width
its encoding gives it (R86, R93). A 13-bit B offset and a 21-bit J offset include the bit 0 that no word stores; WellFormed says it is 0. -/

namespace Sys2Proof

/-- The 37 instructions (R2). Operand names are the spec's. -/
inductive Instr where
  -- R format, opcode 0x33
  /-- R114. -/
  | add (rd rs1 rs2 : RegIdx)
  /-- R115. -/
  | sub (rd rs1 rs2 : RegIdx)
  /-- R116. -/
  | sll (rd rs1 rs2 : RegIdx)
  /-- R117. -/
  | xor (rd rs1 rs2 : RegIdx)
  /-- R118. -/
  | srl (rd rs1 rs2 : RegIdx)
  /-- R119. -/
  | sra (rd rs1 rs2 : RegIdx)
  /-- R120. -/
  | or (rd rs1 rs2 : RegIdx)
  /-- R121. -/
  | and (rd rs1 rs2 : RegIdx)
  -- I format, opcode 0x13
  /-- R122. -/
  | addi (rd rs1 : RegIdx) (imm : BitVec 12)
  /-- R123. -/
  | slti (rd rs1 : RegIdx) (imm : BitVec 12)
  /-- R124. -/
  | sltiu (rd rs1 : RegIdx) (imm : BitVec 12)
  /-- R125. -/
  | xori (rd rs1 : RegIdx) (imm : BitVec 12)
  /-- R126. -/
  | ori (rd rs1 : RegIdx) (imm : BitVec 12)
  /-- R127. -/
  | andi (rd rs1 : RegIdx) (imm : BitVec 12)
  -- I shift form, opcode 0x13
  /-- R128. -/
  | slli (rd rs1 : RegIdx) (shamt : BitVec 6)
  /-- R129. -/
  | srli (rd rs1 : RegIdx) (shamt : BitVec 6)
  /-- R130. -/
  | srai (rd rs1 : RegIdx) (shamt : BitVec 6)
  -- U format, opcode 0x37; imm20 is imm[31:12]
  /-- R131. -/
  | lui (rd : RegIdx) (imm20 : BitVec 20)
  -- I format, opcode 0x03
  /-- R137. -/
  | lb (rd rs1 : RegIdx) (imm : BitVec 12)
  /-- R138. -/
  | lh (rd rs1 : RegIdx) (imm : BitVec 12)
  /-- R139. -/
  | lw (rd rs1 : RegIdx) (imm : BitVec 12)
  /-- R140. -/
  | ld (rd rs1 : RegIdx) (imm : BitVec 12)
  /-- R141. -/
  | lbu (rd rs1 : RegIdx) (imm : BitVec 12)
  /-- R142. -/
  | lhu (rd rs1 : RegIdx) (imm : BitVec 12)
  /-- R143. -/
  | lwu (rd rs1 : RegIdx) (imm : BitVec 12)
  -- S format, opcode 0x23
  /-- R144. -/
  | sb (rs2 rs1 : RegIdx) (imm : BitVec 12)
  /-- R145. -/
  | sh (rs2 rs1 : RegIdx) (imm : BitVec 12)
  /-- R146. -/
  | sw (rs2 rs1 : RegIdx) (imm : BitVec 12)
  /-- R147. -/
  | sd (rs2 rs1 : RegIdx) (imm : BitVec 12)
  -- I format, opcode 0x67
  /-- R154. -/
  | jalr (rd rs1 : RegIdx) (imm : BitVec 12)
  -- B format, opcode 0x63
  /-- R155. -/
  | beq (rs1 rs2 : RegIdx) (off : BitVec 13)
  /-- R156. -/
  | bne (rs1 rs2 : RegIdx) (off : BitVec 13)
  /-- R157. -/
  | blt (rs1 rs2 : RegIdx) (off : BitVec 13)
  /-- R158. -/
  | bge (rs1 rs2 : RegIdx) (off : BitVec 13)
  /-- R159. -/
  | bltu (rs1 rs2 : RegIdx) (off : BitVec 13)
  /-- R160. -/
  | bgeu (rs1 rs2 : RegIdx) (off : BitVec 13)
  -- J format, opcode 0x6f
  /-- R161. -/
  | jal (rd : RegIdx) (off : BitVec 21)
  deriving DecidableEq, Repr

end Sys2Proof
end

