-- ==== Sys2Proof/Decode.lean ====
section
/-! DEFINITION. The decoder (R86 to R98) and, after it, the encoder written from the same field layouts (R87 to R92, R106), the opcode table's
mask and match of every row (R95), and the host's reading of a table word. The decoder is total: every 32-bit word is legal or illegal (R97). -/

namespace Sys2Proof

/-- The decoder's answer (R97): one instruction with its operands, or `Illegal`. -/
inductive Decoded where
  | legal (i : Instr)
  | illegal
  deriving DecidableEq, Repr

/-! Fields of an instruction word (R86). -/

/-- `opcode = w[6:0]`. -/
def fieldOpcode (w : InsnWord) : BitVec 7 := w.extractLsb' 0 7
/-- `rd = w[11:7]`. -/
def fieldRd (w : InsnWord) : RegIdx := w.extractLsb' 7 5
/-- `funct3 = w[14:12]`. -/
def fieldFunct3 (w : InsnWord) : BitVec 3 := w.extractLsb' 12 3
/-- `rs1 = w[19:15]`. -/
def fieldRs1 (w : InsnWord) : RegIdx := w.extractLsb' 15 5
/-- `rs2 = w[24:20]`. -/
def fieldRs2 (w : InsnWord) : RegIdx := w.extractLsb' 20 5
/-- `funct7 = w[31:25]`. -/
def fieldFunct7 (w : InsnWord) : BitVec 7 := w.extractLsb' 25 7
/-- `funct6 = w[31:26]`. -/
def fieldFunct6 (w : InsnWord) : BitVec 6 := w.extractLsb' 26 6
/-- `shamt = w[25:20]`. -/
def fieldShamt (w : InsnWord) : BitVec 6 := w.extractLsb' 20 6

/-! Immediates as encoded (R93), before they are extended to 64 bits (Machine/Operands.lean). -/

/-- `w[31:20]`. -/
def fieldImmI (w : InsnWord) : BitVec 12 := w.extractLsb' 20 12
/-- `{w[31:25], w[11:7]}`. -/
def fieldImmS (w : InsnWord) : BitVec 12 := w.extractLsb' 25 7 ++ w.extractLsb' 7 5
/-- `{w[31], w[7], w[30:25], w[11:8], 1'b0}`. -/
def fieldImmB (w : InsnWord) : BitVec 13 :=
  w.extractLsb' 31 1 ++ w.extractLsb' 7 1 ++ w.extractLsb' 25 6 ++ w.extractLsb' 8 4 ++ 0#1
/-- `{w[31], w[19:12], w[20], w[30:21], 1'b0}`. -/
def fieldImmJ (w : InsnWord) : BitVec 21 :=
  w.extractLsb' 31 1 ++ w.extractLsb' 12 8 ++ w.extractLsb' 20 1 ++ w.extractLsb' 21 10 ++ 0#1
/-- `w[31:12]`, the imm20 of lui. -/
def fieldImm20 (w : InsnWord) : BitVec 20 := w.extractLsb' 12 20

/-! Selection within a family (R95). -/

/-- Opcode 0x33: funct3 and funct7. -/
def decodeR (w : InsnWord) : Decoded :=
  if fieldFunct3 w = 0b000 ∧ fieldFunct7 w = 0b0000000 then .legal (.add (fieldRd w) (fieldRs1 w) (fieldRs2 w))
  else if fieldFunct3 w = 0b000 ∧ fieldFunct7 w = 0b0100000 then .legal (.sub (fieldRd w) (fieldRs1 w) (fieldRs2 w))
  else if fieldFunct3 w = 0b001 ∧ fieldFunct7 w = 0b0000000 then .legal (.sll (fieldRd w) (fieldRs1 w) (fieldRs2 w))
  else if fieldFunct3 w = 0b100 ∧ fieldFunct7 w = 0b0000000 then .legal (.xor (fieldRd w) (fieldRs1 w) (fieldRs2 w))
  else if fieldFunct3 w = 0b101 ∧ fieldFunct7 w = 0b0000000 then .legal (.srl (fieldRd w) (fieldRs1 w) (fieldRs2 w))
  else if fieldFunct3 w = 0b101 ∧ fieldFunct7 w = 0b0100000 then .legal (.sra (fieldRd w) (fieldRs1 w) (fieldRs2 w))
  else if fieldFunct3 w = 0b110 ∧ fieldFunct7 w = 0b0000000 then .legal (.or (fieldRd w) (fieldRs1 w) (fieldRs2 w))
  else if fieldFunct3 w = 0b111 ∧ fieldFunct7 w = 0b0000000 then .legal (.and (fieldRd w) (fieldRs1 w) (fieldRs2 w))
  else .illegal

/-- Opcode 0x13: funct3, and funct6 for the shifts. -/
def decodeIAlu (w : InsnWord) : Decoded :=
  if fieldFunct3 w = 0b000 then .legal (.addi (fieldRd w) (fieldRs1 w) (fieldImmI w))
  else if fieldFunct3 w = 0b010 then .legal (.slti (fieldRd w) (fieldRs1 w) (fieldImmI w))
  else if fieldFunct3 w = 0b011 then .legal (.sltiu (fieldRd w) (fieldRs1 w) (fieldImmI w))
  else if fieldFunct3 w = 0b100 then .legal (.xori (fieldRd w) (fieldRs1 w) (fieldImmI w))
  else if fieldFunct3 w = 0b110 then .legal (.ori (fieldRd w) (fieldRs1 w) (fieldImmI w))
  else if fieldFunct3 w = 0b111 then .legal (.andi (fieldRd w) (fieldRs1 w) (fieldImmI w))
  else if fieldFunct3 w = 0b001 ∧ fieldFunct6 w = 0b000000 then .legal (.slli (fieldRd w) (fieldRs1 w) (fieldShamt w))
  else if fieldFunct3 w = 0b101 ∧ fieldFunct6 w = 0b000000 then .legal (.srli (fieldRd w) (fieldRs1 w) (fieldShamt w))
  else if fieldFunct3 w = 0b101 ∧ fieldFunct6 w = 0b010000 then .legal (.srai (fieldRd w) (fieldRs1 w) (fieldShamt w))
  else .illegal

/-- Opcode 0x03: funct3. -/
def decodeLoad (w : InsnWord) : Decoded :=
  if fieldFunct3 w = 0b000 then .legal (.lb (fieldRd w) (fieldRs1 w) (fieldImmI w))
  else if fieldFunct3 w = 0b001 then .legal (.lh (fieldRd w) (fieldRs1 w) (fieldImmI w))
  else if fieldFunct3 w = 0b010 then .legal (.lw (fieldRd w) (fieldRs1 w) (fieldImmI w))
  else if fieldFunct3 w = 0b011 then .legal (.ld (fieldRd w) (fieldRs1 w) (fieldImmI w))
  else if fieldFunct3 w = 0b100 then .legal (.lbu (fieldRd w) (fieldRs1 w) (fieldImmI w))
  else if fieldFunct3 w = 0b101 then .legal (.lhu (fieldRd w) (fieldRs1 w) (fieldImmI w))
  else if fieldFunct3 w = 0b110 then .legal (.lwu (fieldRd w) (fieldRs1 w) (fieldImmI w))
  else .illegal

/-- Opcode 0x67: funct3 (C1). -/
def decodeJalr (w : InsnWord) : Decoded :=
  if fieldFunct3 w = 0b000 then .legal (.jalr (fieldRd w) (fieldRs1 w) (fieldImmI w))
  else .illegal

/-- Opcode 0x23: funct3. -/
def decodeStore (w : InsnWord) : Decoded :=
  if fieldFunct3 w = 0b000 then .legal (.sb (fieldRs2 w) (fieldRs1 w) (fieldImmS w))
  else if fieldFunct3 w = 0b001 then .legal (.sh (fieldRs2 w) (fieldRs1 w) (fieldImmS w))
  else if fieldFunct3 w = 0b010 then .legal (.sw (fieldRs2 w) (fieldRs1 w) (fieldImmS w))
  else if fieldFunct3 w = 0b011 then .legal (.sd (fieldRs2 w) (fieldRs1 w) (fieldImmS w))
  else .illegal

/-- Opcode 0x63: funct3. -/
def decodeBranch (w : InsnWord) : Decoded :=
  if fieldFunct3 w = 0b000 then .legal (.beq (fieldRs1 w) (fieldRs2 w) (fieldImmB w))
  else if fieldFunct3 w = 0b001 then .legal (.bne (fieldRs1 w) (fieldRs2 w) (fieldImmB w))
  else if fieldFunct3 w = 0b100 then .legal (.blt (fieldRs1 w) (fieldRs2 w) (fieldImmB w))
  else if fieldFunct3 w = 0b101 then .legal (.bge (fieldRs1 w) (fieldRs2 w) (fieldImmB w))
  else if fieldFunct3 w = 0b110 then .legal (.bltu (fieldRs1 w) (fieldRs2 w) (fieldImmB w))
  else if fieldFunct3 w = 0b111 then .legal (.bgeu (fieldRs1 w) (fieldRs2 w) (fieldImmB w))
  else .illegal

/-- Dispatch by opcode (R94); any other opcode is illegal (R95, R96). -/
def decode (w : InsnWord) : Decoded :=
  if fieldOpcode w = 0x33 then decodeR w
  else if fieldOpcode w = 0x13 then decodeIAlu w
  else if fieldOpcode w = 0x03 then decodeLoad w
  else if fieldOpcode w = 0x67 then decodeJalr w
  else if fieldOpcode w = 0x23 then decodeStore w
  else if fieldOpcode w = 0x37 then .legal (.lui (fieldRd w) (fieldImm20 w))
  else if fieldOpcode w = 0x63 then decodeBranch w
  else if fieldOpcode w = 0x6f then .legal (.jal (fieldRd w) (fieldImmJ w))
  else .illegal

/-! The encoder (R87 to R92, R106). -/

/-- R87. -/
def encodeR (funct7 : BitVec 7) (rs2 rs1 : RegIdx) (funct3 : BitVec 3) (rd : RegIdx) (opcode : BitVec 7) : InsnWord :=
  funct7 ++ rs2 ++ rs1 ++ funct3 ++ rd ++ opcode
/-- R88. -/
def encodeI (imm : BitVec 12) (rs1 : RegIdx) (funct3 : BitVec 3) (rd : RegIdx) (opcode : BitVec 7) : InsnWord :=
  imm ++ rs1 ++ funct3 ++ rd ++ opcode
/-- R88, the shift-immediate variant: funct6 over imm[11:6], the shift amount over imm[5:0]. -/
def encodeShift (funct6 : BitVec 6) (shamt : BitVec 6) (rs1 : RegIdx) (funct3 : BitVec 3) (rd : RegIdx) (opcode : BitVec 7) : InsnWord :=
  encodeI (funct6 ++ shamt) rs1 funct3 rd opcode
/-- R89. -/
def encodeS (imm : BitVec 12) (rs2 rs1 : RegIdx) (funct3 : BitVec 3) (opcode : BitVec 7) : InsnWord :=
  imm.extractLsb' 5 7 ++ rs2 ++ rs1 ++ funct3 ++ imm.extractLsb' 0 5 ++ opcode
/-- R90; bit 0 of the offset is not stored. -/
def encodeB (off : BitVec 13) (rs2 rs1 : RegIdx) (funct3 : BitVec 3) (opcode : BitVec 7) : InsnWord :=
  off.extractLsb' 12 1 ++ off.extractLsb' 5 6 ++ rs2 ++ rs1 ++ funct3 ++ off.extractLsb' 1 4 ++ off.extractLsb' 11 1 ++ opcode
/-- R91; bit 0 of the offset is not stored. -/
def encodeJ (off : BitVec 21) (rd : RegIdx) (opcode : BitVec 7) : InsnWord :=
  off.extractLsb' 20 1 ++ off.extractLsb' 1 10 ++ off.extractLsb' 11 1 ++ off.extractLsb' 12 8 ++ rd ++ opcode
/-- R92. -/
def encodeU (imm20 : BitVec 20) (rd : RegIdx) (opcode : BitVec 7) : InsnWord :=
  imm20 ++ rd ++ opcode

/-- The word of an instruction (R106); the constant fields are the opcode table's. -/
def encode : Instr → InsnWord
  | .add rd rs1 rs2 => encodeR 0b0000000 rs2 rs1 0b000 rd 0x33
  | .sub rd rs1 rs2 => encodeR 0b0100000 rs2 rs1 0b000 rd 0x33
  | .sll rd rs1 rs2 => encodeR 0b0000000 rs2 rs1 0b001 rd 0x33
  | .xor rd rs1 rs2 => encodeR 0b0000000 rs2 rs1 0b100 rd 0x33
  | .srl rd rs1 rs2 => encodeR 0b0000000 rs2 rs1 0b101 rd 0x33
  | .sra rd rs1 rs2 => encodeR 0b0100000 rs2 rs1 0b101 rd 0x33
  | .or rd rs1 rs2 => encodeR 0b0000000 rs2 rs1 0b110 rd 0x33
  | .and rd rs1 rs2 => encodeR 0b0000000 rs2 rs1 0b111 rd 0x33
  | .addi rd rs1 imm => encodeI imm rs1 0b000 rd 0x13
  | .slti rd rs1 imm => encodeI imm rs1 0b010 rd 0x13
  | .sltiu rd rs1 imm => encodeI imm rs1 0b011 rd 0x13
  | .xori rd rs1 imm => encodeI imm rs1 0b100 rd 0x13
  | .ori rd rs1 imm => encodeI imm rs1 0b110 rd 0x13
  | .andi rd rs1 imm => encodeI imm rs1 0b111 rd 0x13
  | .slli rd rs1 shamt => encodeShift 0b000000 shamt rs1 0b001 rd 0x13
  | .srli rd rs1 shamt => encodeShift 0b000000 shamt rs1 0b101 rd 0x13
  | .srai rd rs1 shamt => encodeShift 0b010000 shamt rs1 0b101 rd 0x13
  | .lui rd imm20 => encodeU imm20 rd 0x37
  | .lb rd rs1 imm => encodeI imm rs1 0b000 rd 0x03
  | .lh rd rs1 imm => encodeI imm rs1 0b001 rd 0x03
  | .lw rd rs1 imm => encodeI imm rs1 0b010 rd 0x03
  | .ld rd rs1 imm => encodeI imm rs1 0b011 rd 0x03
  | .lbu rd rs1 imm => encodeI imm rs1 0b100 rd 0x03
  | .lhu rd rs1 imm => encodeI imm rs1 0b101 rd 0x03
  | .lwu rd rs1 imm => encodeI imm rs1 0b110 rd 0x03
  | .sb rs2 rs1 imm => encodeS imm rs2 rs1 0b000 0x23
  | .sh rs2 rs1 imm => encodeS imm rs2 rs1 0b001 0x23
  | .sw rs2 rs1 imm => encodeS imm rs2 rs1 0b010 0x23
  | .sd rs2 rs1 imm => encodeS imm rs2 rs1 0b011 0x23
  | .jalr rd rs1 imm => encodeI imm rs1 0b000 rd 0x67
  | .beq rs1 rs2 off => encodeB off rs2 rs1 0b000 0x63
  | .bne rs1 rs2 off => encodeB off rs2 rs1 0b001 0x63
  | .blt rs1 rs2 off => encodeB off rs2 rs1 0b100 0x63
  | .bge rs1 rs2 off => encodeB off rs2 rs1 0b101 0x63
  | .bltu rs1 rs2 off => encodeB off rs2 rs1 0b110 0x63
  | .bgeu rs1 rs2 off => encodeB off rs2 rs1 0b111 0x63
  | .jal rd off => encodeJ off rd 0x6f

/-! The opcode table (R95; spec/opcode_table.json). -/

/-- The instruction names (R2), the `op` of R97's record. -/
inductive Op where
  | add | sub | sll | xor | srl | sra | or | and
  | addi | slti | sltiu | xori | ori | andi | slli | srli
  | srai | lui | lb | lh | lw | ld | lbu | lhu
  | lwu | sb | sh | sw | sd | jalr | beq | bne
  | blt | bge | bltu | bgeu | jal
  deriving DecidableEq, Repr

/-- The name of an instruction. -/
def Instr.op : Instr → Op
  | .add _ _ _ => .add
  | .sub _ _ _ => .sub
  | .sll _ _ _ => .sll
  | .xor _ _ _ => .xor
  | .srl _ _ _ => .srl
  | .sra _ _ _ => .sra
  | .or _ _ _ => .or
  | .and _ _ _ => .and
  | .addi _ _ _ => .addi
  | .slti _ _ _ => .slti
  | .sltiu _ _ _ => .sltiu
  | .xori _ _ _ => .xori
  | .ori _ _ _ => .ori
  | .andi _ _ _ => .andi
  | .slli _ _ _ => .slli
  | .srli _ _ _ => .srli
  | .srai _ _ _ => .srai
  | .lui _ _ => .lui
  | .lb _ _ _ => .lb
  | .lh _ _ _ => .lh
  | .lw _ _ _ => .lw
  | .ld _ _ _ => .ld
  | .lbu _ _ _ => .lbu
  | .lhu _ _ _ => .lhu
  | .lwu _ _ _ => .lwu
  | .sb _ _ _ => .sb
  | .sh _ _ _ => .sh
  | .sw _ _ _ => .sw
  | .sd _ _ _ => .sd
  | .jalr _ _ _ => .jalr
  | .beq _ _ _ => .beq
  | .bne _ _ _ => .bne
  | .blt _ _ _ => .blt
  | .bge _ _ _ => .bge
  | .bltu _ _ _ => .bltu
  | .bgeu _ _ _ => .bgeu
  | .jal _ _ => .jal

/-- The row's `mask`. -/
def Op.mask : Op → InsnWord
  | .add | .sub | .sll | .xor | .srl | .sra | .or | .and => 0xfe00707f
  | .addi | .slti | .sltiu | .xori | .ori | .andi | .lb | .lh | .lw | .ld | .lbu | .lhu | .lwu | .sb | .sh | .sw | .sd | .jalr | .beq | .bne | .blt | .bge | .bltu | .bgeu => 0x0000707f
  | .slli | .srli | .srai => 0xfc00707f
  | .lui | .jal => 0x0000007f

/-- The row's `match`. -/
def Op.matchBits : Op → InsnWord
  | .add => 0x00000033
  | .sub => 0x40000033
  | .sll => 0x00001033
  | .xor => 0x00004033
  | .srl => 0x00005033
  | .sra => 0x40005033
  | .or => 0x00006033
  | .and => 0x00007033
  | .addi => 0x00000013
  | .slti => 0x00002013
  | .sltiu => 0x00003013
  | .xori => 0x00004013
  | .ori => 0x00006013
  | .andi => 0x00007013
  | .slli => 0x00001013
  | .srli => 0x00005013
  | .srai => 0x40005013
  | .lui => 0x00000037
  | .lb => 0x00000003
  | .lh => 0x00001003
  | .lw => 0x00002003
  | .ld => 0x00003003
  | .lbu => 0x00004003
  | .lhu => 0x00005003
  | .lwu => 0x00006003
  | .sb => 0x00000023
  | .sh => 0x00001023
  | .sw => 0x00002023
  | .sd => 0x00003023
  | .jalr => 0x00000067
  | .beq => 0x00000063
  | .bne => 0x00001063
  | .blt => 0x00004063
  | .bge => 0x00005063
  | .bltu => 0x00006063
  | .bgeu => 0x00007063
  | .jal => 0x0000006f

/-- Every name, in the table's order. -/
def Op.all : List Op :=
  [.add, .sub, .sll, .xor, .srl, .sra, .or, .and, .addi, .slti,
   .sltiu, .xori, .ori, .andi, .slli, .srli, .srai, .lui, .lb, .lh,
   .lw, .ld, .lbu, .lhu, .lwu, .sb, .sh, .sw, .sd, .jalr,
   .beq, .bne, .blt, .bge, .bltu, .bgeu, .jal]

/-! The host's reading of a table row's word. -/

/-- The instruction whose bits are `w`, bit 0 the least significant of the one 32-bit word; bits at and above `nbits` are 0. -/
def decodeTableWord (nbits w : Nat) : Option Instr :=
  match decode (BitVec.ofNat 32 (w % 2 ^ nbits)) with
  | .legal i => some i
  | .illegal => none

end Sys2Proof
end

