-- ==== Sys2Proof/Config.lean ====
section
/-! DEFINITION. What an implementation fixes (R8) and what the spec leaves free. The parameters are plain data; a machine carries its own in
State.params, which no step changes, so that a statement about every state holds for every value of them (log 1). -/

namespace Sys2Proof

/-- How lui widens its 32-bit result (R8, R131, D16). -/
inductive LuiExt where
  | sign
  | zero
  deriving DecidableEq, Repr

/-- What disable_cache does with dirty lines (R8, R76, D29). -/
inductive DisableFlush where
  | flush
  | discard
  deriving DecidableEq, Repr

/-- The named parameters of R8. -/
structure Params where
  /-- TEXT_CAPACITY, in words. -/
  textCapacity : Nat
  /-- DATA_MEM_SIZE, in bytes. -/
  dataMemSize : Nat
  /-- DATA_BASE, the data address of the first byte of the loaded image. -/
  dataBase : Nat
  /-- STACK_TOP, the value of x2 after a load. -/
  stackTop : Nat
  /-- LUI_EXT. -/
  luiExt : LuiExt
  /-- DISABLE_FLUSH. -/
  disableFlush : DisableFlush
  deriving DecidableEq, Repr

/-- The constraints of R9. -/
def Params.ok (p : Params) : Bool :=
  decide (1 ≤ p.textCapacity) && decide (1 ≤ p.dataMemSize) && decide (p.dataBase ≤ p.dataMemSize) &&
    decide (p.stackTop ≤ p.dataMemSize) && decide (4 * p.textCapacity < 2 ^ 63) && decide (p.dataMemSize < 2 ^ 63)

/-- The test configuration of 95_test_vectors.md. DESIGN CHOICE (log 1), unsafe: the spec leaves the sizes and bases OPEN (D2 to D5);
only State.reset uses these numbers. -/
def Params.test : Params where
  textCapacity := 1024
  dataMemSize := 0x10000
  dataBase := 0
  stackTop := 0x10000
  luiExt := .sign
  disableFlush := .flush

/-- `AssembleError`: why a source is rejected (R107, R180). -/
inductive AssembleError where
  | invalidLabel
  | unknownMnemonic
  | unknownRegister
  | missingOperand
  | immediateRangeError
  | unresolvedLabel
  | malformedMemoryOperand
  deriving DecidableEq, Repr, Inhabited

/-- Where the assembler's reading of a source is (R99): before any section directive, in `.data`, or in `.text`. -/
inductive Section where
  | start
  | data
  | text
  deriving DecidableEq, Repr, Inhabited

namespace Config

/-- FREE VALUE: the draw behind `rand_way` (R64, D23), one for each value of the counter `draws` in State. It has no body,
so nothing can be proved of it: a statement that uses it holds for every draw (log 4, safe). -/
opaque randWay : Nat → Nat

/-! FREE VALUES of the assembler outside the block (log 12): what it does with a line, or a part of a line, that the rules leave to it. Each is
applied to the source and the 1-based line number, and answers an error or what the assembler makes of it; a statement about a load holds for every
answer. Whatever the rules say of the same line, and of every other line, does not depend on them. -/

/-- FREE VALUE: a line without a mnemonic, as one with only a label (D37): by how many words it moves the address in pass 1 and in pass 2. -/
opaque openNoMnemonic : List Char → Nat → Except AssembleError (Nat × Nat)

/-- FREE VALUE: a directive out of order or not listed (R99, D41): the section after it and the bytes it adds to the data image. -/
opaque openDirective : List Char → Nat → Except AssembleError (Section × List Byte)

/-- FREE VALUE: whether an empty label (a line that begins with ':') is an error. -/
opaque openEmptyLabel : List Char → Nat → Except AssembleError Unit

/-- FREE VALUE: a token that is no number where a number is needed, or a negative data literal (R99, R103): its value. -/
opaque openNumber : List Char → Nat → List Char → Except AssembleError Int

/-- FREE VALUE: a memory operand of two different registers, or of an offset and a register apart (R104): its base and offset. -/
opaque openMemOperand : List Char → Nat → Except AssembleError (RegIdx × BitVec 12)

end Config

end Sys2Proof
end

