-- ==== Sys2Proof/Machine/State.lean ====
section
/-! DEFINITION. The state of the block as plain data (10_state.md): everything the spec names, and one counter of the model's own (`draws`, log 4).
State.reset is the state after a successful load of a program of zero instructions (R39, R191, log 5). -/

namespace Sys2Proof.Machine

/-- Data memory MEM (R28): the bytes that are not 0, by strictly rising address. An unlisted address reads as 0 (R39, R191, D8). -/
abbrev Memory := List Host.Cell

/-- The canonical form: addresses strictly rising, and no listed byte is 0. -/
def Memory.wf : Memory → Bool
  | [] => true
  | [c] => c.2 != 0#8
  | c :: e :: m => c.2 != 0#8 && decide (c.1 < e.1) && Memory.wf (e :: m)

/-- `cause` and `info` of a fault (R167, R171): the kind, with the pc of the step and what that kind also records. -/
inductive FaultRecord where
  /-- Code 1: the pc is negative as a signed value. -/
  | instructionAccessFault (pc : Word)
  /-- Code 2: a pc inside the program is no multiple of 4. -/
  | instructionAddressMisaligned (pc : Word)
  /-- Code 3: the fetched word matches no row of the opcode table. -/
  | illegalInstruction (pc : Word) (w : InsnWord)
  /-- Code 4: a load of `n` bytes at `ea` is out of bounds. -/
  | loadAccessFault (pc ea : Word) (n : Nat)
  /-- Code 5: a store of `n` bytes at `ea` is out of bounds. -/
  | storeAccessFault (pc ea : Word) (n : Nat)
  deriving DecidableEq, Repr

/-- The run status (R29). -/
inductive Status where
  | unloaded
  | ready
  | ended
  | faulted (f : FaultRecord)
  deriving DecidableEq, Repr

/-- The replacement policies (R30, R58). -/
inductive Replacement where
  | lru
  | fifo
  | lfu
  | random
  deriving DecidableEq, Repr

/-- The write policies (R30, R58). -/
inductive WritePolicy where
  | writeBack
  | writeThrough
  deriving DecidableEq, Repr

/-- The cache's configuration record `cfg` (R30). -/
structure CacheConfig where
  cacheSize : Nat
  blockSize : Nat
  associativity : Nat
  replacement : Replacement
  write : WritePolicy
  deriving DecidableEq, Repr

/-- One cache line (R32). The tag is the number `addr >> (s + b)`, 64 - s - b bits (log 9). -/
structure Line where
  valid : Bool
  dirty : Bool
  tag : Nat
  data : List Byte
  lastAccess : BitVec 64
  loadTime : BitVec 64
  freq : BitVec 64
  deriving DecidableEq, Repr

/-- The data side of the block: backing memory, the cache in front of it, and the cache's counters (R28, R30 to R33). -/
structure DataSide where
  /-- MEM, the backing memory (R28). -/
  mem : Memory
  /-- `cfg`; the cache is enabled exactly when there is one (R30, R36). -/
  cfg : Option CacheConfig
  /-- L[set][way] (R31); no lines while disabled. -/
  lines : List (List Line)
  accesses : BitVec 64
  hits : BitVec 64
  misses : BitVec 64
  /-- The MODEL's own: how many RANDOM draws have been made (log 4). -/
  draws : Nat
  deriving DecidableEq, Repr

/-- The whole state of the block (R20 to R39). -/
structure State where
  /-- The machine's parameters (R8); no step and no host command changes them (log 1). -/
  params : Params
  /-- X, the stored register file (R20, R21). -/
  x : Vector Word 32
  /-- The program counter (R25). -/
  pc : Word
  /-- TEXT[0 .. instr_count-1] (R26, R27); its length is `instr_count` (log 6). -/
  text : List InsnWord
  /-- The run status with the fault record (R29). -/
  status : Status
  /-- Data memory, cache and counters. -/
  data : DataSide
  /-- The set of source lines with a breakpoint (R36, R38), strictly rising. -/
  breakpoints : List Nat
  deriving DecidableEq, Repr

/-- No step of this machine ends in a fault of the host's kind, so the type has no constructor: each fault the spec names
is taken as it says, a NEXT state whose status is `faulted` (R164, R166, log 7). -/
inductive Fault where
  deriving DecidableEq, Repr

/-- What the model refuses. -/
inductive Refusal where
  /-- Raised by an arm of exec that has no meaning yet; no arm raises it now. Safe: the machine stops. -/
  | notModelled (mnemonic : String)
  /-- Raised by State.powerOn when a parameter breaks R9 ("A configuration that breaks one is refused"). Safe: no machine is built. -/
  | badParameters
  deriving DecidableEq, Repr

/-- `cache_enabled` (R30): there is a configuration. -/
def DataSide.cacheEnabled (d : DataSide) : Bool := d.cfg.isSome

/-- `instr_count` (R26). -/
def State.instrCount (s : State) : Nat := s.text.length

/-- `END = 4 * instr_count` (R26). -/
def State.endAddr (s : State) : Nat := 4 * s.instrCount

/-- The data side at power-on: MEM all 0, the cache off, the counters 0 (R39, R193). -/
def DataSide.zero : DataSide where
  mem := []
  cfg := none
  lines := []
  accesses := 0
  hits := 0
  misses := 0
  draws := 0

/-- Power-on with the given parameters (R39, R193): `Unloaded`, every register 0, no program, no breakpoint. -/
def State.unloaded (p : Params) : State where
  params := p
  x := Vector.replicate 32 0
  pc := 0
  text := []
  status := .unloaded
  data := DataSide.zero
  breakpoints := []

/-- Building a machine: the constraints of R9 are checked, and a configuration that breaks one is refused. -/
def State.powerOn (p : Params) : Host.Outcome State Fault Refusal :=
  if p.ok then .next (State.unloaded p) else .refused .badParameters

/-- The registers after a load: x2 is STACK_TOP, every other register 0 (R39, R191). -/
def loadedRegs (p : Params) : Vector Word 32 :=
  (Vector.replicate 32 0).set 2 (BitVec.ofNat 64 p.stackTop)

/-- The block right after reset: a successful load of zero instructions and an empty image into a machine just powered on (R39, R191; log 5),
with the parameters of the spec's test configuration (log 1). -/
def State.reset : State where
  params := Params.test
  x := loadedRegs Params.test
  pc := 0
  text := []
  status := .ready
  data := DataSide.zero
  breakpoints := []

end Sys2Proof.Machine
end

