-- ==== Sys2Proof/Machine/Memory.lean ====
section
/-! DEFINITION. Backing memory: one byte read and written in the canonical form, runs of bytes, and the little-endian primitives
BackRead and BackWrite (R48, R53). -/

namespace Sys2Proof.Machine

/-- `MEM[a]`: the listed byte, or 0 (R28, R39). -/
def readByte (m : Memory) (a : Nat) : Byte :=
  match m with
  | [] => 0#8
  | c :: m => if c.1 = a then c.2 else readByte m a

/-- `MEM[a] <- b`, keeping the canonical form: a 0 removes the entry. -/
def writeByte (m : Memory) (a : Nat) (b : Byte) : Memory :=
  match m with
  | [] => if b = 0#8 then [] else [(a, b)]
  | c :: m =>
    if a < c.1 then (if b = 0#8 then c :: m else (a, b) :: c :: m)
    else if a = c.1 then (if b = 0#8 then m else (a, b) :: m)
    else c :: writeByte m a b

/-- The `n` bytes from address `a` up. -/
def readBytes (m : Memory) (a : Nat) : Nat → List Byte
  | 0 => []
  | n + 1 => readByte m a :: readBytes m (a + 1) n

/-- Writes bytes at consecutive addresses from `a` up. -/
def writeBytes (m : Memory) (a : Nat) : List Byte → Memory
  | [] => m
  | b :: bs => writeBytes (writeByte m a b) (a + 1) bs

/-- The little-endian value of a list of bytes, zero-extended to 64 bits (R48, R53): the first byte is bits 7:0. -/
def leValue : List Byte → Word
  | [] => 0
  | b :: bs => b.setWidth 64 ||| (leValue bs <<< 8)

/-- `v[8*k+7 : 8*k]` (R53). -/
def byteOf (v : Word) (k : Nat) : Byte := v.extractLsb' (8 * k) 8

/-- The low `n` bytes of `v`, lowest first (R48). -/
def leBytes (v : Word) (n : Nat) : List Byte := (List.range n).map (byteOf v)

/-- BackRead (R53). -/
def backRead (m : Memory) (a n : Nat) : Word := leValue (readBytes m a n)

/-- BackWrite (R53). -/
def backWrite (m : Memory) (a n : Nat) (v : Word) : Memory := writeBytes m a (leBytes v n)

end Sys2Proof.Machine
end

