-- ==== Sys2Proof/Machine/Cache.lean ====
section
/-! DEFINITION. The cache controller (20_memory.md section 4): configuration, address split, segments, lookup, victim, write-back, fill,
CacheRead and CacheWrite, in the spec's own steps. Addresses here are in-bounds data addresses, as numbers. -/

namespace Sys2Proof.Machine

/-! Configuration (R30, R58). -/

/-- A positive power of two. -/
def isPow2 (n : Nat) : Bool := n == 2 ^ n.log2

/-- `num_sets = cache_size / (block_size * associativity)` (R30). -/
def numSets (c : CacheConfig) : Nat := c.cacheSize / (c.blockSize * c.associativity)
/-- `b = log2(block_size)` (R30). -/
def offsetBits (c : CacheConfig) : Nat := c.blockSize.log2
/-- `s = log2(num_sets)` (R30). -/
def indexBits (c : CacheConfig) : Nat := (numSets c).log2

/-- Conditions 1 to 5 of R58; `size` is DATA_MEM_SIZE. (Condition 6 is the reading of the tokens, Machine/Commands.lean.) -/
def configOk (size : Nat) (c : CacheConfig) : Bool :=
  decide (0 < c.cacheSize) && decide (0 < c.blockSize) && decide (0 < c.associativity) &&
    isPow2 c.cacheSize && isPow2 c.blockSize &&
    c.cacheSize % (c.blockSize * c.associativity) == 0 && isPow2 (numSets c) && size % c.blockSize == 0

/-! Address split (R59, R60). -/

/-- `a & (block_size - 1)`. -/
def blockOffset (c : CacheConfig) (a : Nat) : Nat := a &&& (c.blockSize - 1)
/-- `(a >> b) & (num_sets - 1)`. -/
def setIndex (c : CacheConfig) (a : Nat) : Nat := (a >>> offsetBits c) &&& (numSets c - 1)
/-- `a >> (s + b)`. -/
def tagOf (c : CacheConfig) (a : Nat) : Nat := a >>> (indexBits c + offsetBits c)
/-- `a & ~(block_size - 1)`. -/
def blockBase (c : CacheConfig) (a : Nat) : Nat := a - blockOffset c a
/-- `(tag << (s + b)) | (set << b)` (R60). -/
def lineBase (c : CacheConfig) (tag set : Nat) : Nat := (tag <<< (indexBits c + offsetBits c)) ||| (set <<< offsetBits c)

/-! The line array (R31). -/

/-- An invalid line, every field 0 (R58, R77). -/
def emptyLine (c : CacheConfig) : Line where
  valid := false
  dirty := false
  tag := 0
  data := List.replicate c.blockSize 0
  lastAccess := 0
  loadTime := 0
  freq := 0

/-- Every line invalid (R58, R77). -/
def emptyLines (c : CacheConfig) : List (List Line) :=
  List.replicate (numSets c) (List.replicate c.associativity (emptyLine c))

/-- The ways of a set. -/
def getSet (d : DataSide) (set : Nat) : List Line := d.lines.getD set []

/-- `L[set][w]`. -/
def getLine (c : CacheConfig) (d : DataSide) (set w : Nat) : Line := (getSet d set).getD w (emptyLine c)

/-- `L[set][w] <- l`. -/
def setLine (d : DataSide) (set w : Nat) (l : Line) : DataSide :=
  { d with lines := d.lines.set set ((getSet d set).set w l) }

/-! Lookup (R62 to R66). -/

/-- The way of the set that is valid and holds the tag, if any (R62; unique by R34). -/
def findWay (tag : Nat) (ways : List Line) : Option Nat :=
  ways.findIdx? fun l => l.valid && l.tag == tag

/-- The lowest-numbered way that is `less` than every way before it and not more than any after: the running minimum from `best` at `at`. -/
def leastFrom (less : Line → Line → Bool) (best : Line) (bestAt pos : Nat) : List Line → Nat
  | [] => bestAt
  | l :: ls => if less l best then leastFrom less l pos (pos + 1) ls else leastFrom less best bestAt (pos + 1) ls

/-- The lowest-numbered least way of a set (R64, D24). -/
def leastWay (less : Line → Line → Bool) : List Line → Nat
  | [] => 0
  | l :: ls => leastFrom less l 0 1 ls

/-- What LRU, FIFO and LFU compare (R64). LFU ties go to the older last access. RANDOM compares nothing. -/
def victimLess : Replacement → Line → Line → Bool
  | .lru, l, m => decide (l.lastAccess < m.lastAccess)
  | .fifo, l, m => decide (l.loadTime < m.loadTime)
  | .lfu, l, m => decide (l.freq < m.freq) || (l.freq == m.freq && decide (l.lastAccess < m.lastAccess))
  | .random, _, _ => false

/-- Victim (R64): RANDOM takes the drawn way, valid or not (D23); the others the lowest-numbered invalid way first. -/
def victimWay (c : CacheConfig) (ways : List Line) (draw : Nat) : Nat :=
  match c.replacement with
  | .random => draw % c.associativity
  | r =>
    match ways.findIdx? fun l => !l.valid with
    | some w => w
    | none => leastWay (victimLess r) ways

/-- The free value `rand_way` of the next miss is used up by RANDOM alone (R64, log 4). -/
def nextDraws (c : CacheConfig) (n : Nat) : Nat := if c.replacement = .random then n + 1 else n

/-- Touch (R63). -/
def touch (c : CacheConfig) (d : DataSide) (set w : Nat) (t : BitVec 64) : DataSide :=
  let l := getLine c d set w
  setLine d set w { l with lastAccess := t, freq := l.freq + 1 }

/-- WriteBackLine (R65). -/
def writeBackLine (c : CacheConfig) (d : DataSide) (set w : Nat) : DataSide :=
  let l := getLine c d set w
  setLine { d with mem := writeBytes d.mem (lineBase c l.tag set) l.data } set w { l with dirty := false }

/-- Before a way is filled: a valid dirty victim is written back, any other is left (R62, R65). -/
def evict (c : CacheConfig) (d : DataSide) (set w : Nat) : DataSide :=
  let l := getLine c d set w
  if l.valid && l.dirty then writeBackLine c d set w else d

/-- Fill (R66). -/
def fill (c : CacheConfig) (d : DataSide) (set w sa : Nat) (t : BitVec 64) : DataSide :=
  let l := getLine c d set w
  setLine d set w
    { l with
      data := readBytes d.mem (blockBase c sa) c.blockSize, valid := true, dirty := false, tag := tagOf c sa,
      loadTime := t, freq := 0 }

/-- Lookup (R62): the way that holds the segment's block afterwards, and the new data side. -/
def lookup (c : CacheConfig) (d : DataSide) (sa : Nat) : Nat × DataSide :=
  let set := setIndex c sa
  let t := d.accesses + 1
  match findWay (tagOf c sa) (getSet d set) with
  | some w => (w, touch c { d with accesses := t, hits := d.hits + 1 } set w t)
  | none =>
    let w := victimWay c (getSet d set) (Config.randWay d.draws)
    let d1 := { d with accesses := t, misses := d.misses + 1, draws := nextDraws c d.draws }
    (w, touch c (fill c (evict c d1 set w) set w sa t) set w t)

/-! Segments, CacheRead and CacheWrite (R61, R70, R71). -/

/-- One segment: its address, its byte position within the access, its length (R61). -/
structure Segment where
  addr : Nat
  pos : Nat
  len : Nat
  deriving DecidableEq, Repr

/-- The segments of an access from byte position `k` on; `fuel` bounds their number (each is at least one byte long). -/
def segmentsFrom (c : CacheConfig) (a n : Nat) : (fuel k : Nat) → List Segment
  | 0, _ => []
  | fuel + 1, k =>
    if k < n then
      let len := min (n - k) (c.blockSize - blockOffset c (a + k))
      ⟨a + k, k, len⟩ :: segmentsFrom c a n fuel (k + len)
    else []

/-- `Segments(a, n)` (R61). -/
def segments (c : CacheConfig) (a n : Nat) : List Segment := segmentsFrom c a n n 0

/-- The read loop of R70: the bytes in order, and the data side after every lookup. -/
def readSegments (c : CacheConfig) : List Segment → DataSide → List Byte × DataSide
  | [], d => ([], d)
  | g :: gs, d =>
    let r := lookup c d g.addr
    let bytes := ((getLine c r.2 (setIndex c g.addr) r.1).data.drop (blockOffset c g.addr)).take g.len
    let rest := readSegments c gs r.2
    (bytes ++ rest.1, rest.2)

/-- CacheRead (R70). -/
def cacheRead (c : CacheConfig) (d : DataSide) (a n : Nat) : Word × DataSide :=
  let r := readSegments c (segments c a n) d
  (leValue r.1, r.2)

/-- `data[o + j] <- bytes[j]`. -/
def splice (data : List Byte) (o : Nat) (bytes : List Byte) : List Byte :=
  data.take o ++ bytes ++ data.drop (o + bytes.length)

/-- One segment's write to the line its lookup returned, and under WT to MEM (R68, R69, R71). -/
def writeSegment (c : CacheConfig) (bytes : List Byte) (sa w : Nat) (d : DataSide) : DataSide :=
  let set := setIndex c sa
  let l := getLine c d set w
  let l1 := { l with data := splice l.data (blockOffset c sa) bytes }
  match c.write with
  | .writeBack => setLine d set w { l1 with dirty := true }
  | .writeThrough => setLine { d with mem := writeBytes d.mem sa bytes } set w l1

/-- The write loop of R71 over the access's bytes. -/
def writeSegments (c : CacheConfig) (bytes : List Byte) : List Segment → DataSide → DataSide
  | [], d => d
  | g :: gs, d =>
    let r := lookup c d g.addr
    writeSegments c bytes gs (writeSegment c ((bytes.drop g.pos).take g.len) g.addr r.1 r.2)

/-- CacheWrite (R71). -/
def cacheWrite (c : CacheConfig) (d : DataSide) (a n : Nat) (v : Word) : DataSide :=
  writeSegments c (leBytes v n) (segments c a n) d

/-! The load/store primitives (R54). -/

/-- MemRead (R54): through the cache when it is enabled. -/
def memRead (d : DataSide) (a n : Nat) : Word × DataSide :=
  match d.cfg with
  | some c => cacheRead c d a n
  | none => (backRead d.mem a n, d)

/-- MemWrite (R54): through the cache when it is enabled. -/
def memWrite (d : DataSide) (a n : Nat) (v : Word) : DataSide :=
  match d.cfg with
  | some c => cacheWrite c d a n v
  | none => { d with mem := backWrite d.mem a n v }

/-! Host control of the cache (R58, R76, R77) and the coherent view (R73). -/

/-- Writes back the dirty lines of one set, in way order (R76). -/
def flushWays (c : CacheConfig) (set : Nat) : (ways : List Nat) → DataSide → DataSide
  | [], d => d
  | w :: ws, d => flushWays c set ws (evict c d set w)

/-- Writes back every valid dirty line in increasing (set, way) order (R76). -/
def flushSets (c : CacheConfig) : (sets : List Nat) → DataSide → DataSide
  | [], d => d
  | set :: sets, d => flushSets c sets (flushWays c set (List.range c.associativity) d)

/-- disable_cache (R76): dirty lines as DISABLE_FLUSH says, then no configuration and no lines; MEM and the counters stay. -/
def disableCache (f : DisableFlush) (d : DataSide) : DataSide :=
  match d.cfg with
  | none => d
  | some c =>
    let d1 := match f with
      | .flush => flushSets c (List.range (numSets c)) d
      | .discard => d
    { d1 with cfg := none, lines := [] }

/-- Installing an accepted configuration (R58): every line invalid and the counters 0. -/
def installCache (c : CacheConfig) (d : DataSide) : DataSide :=
  { d with cfg := some c, lines := emptyLines c, accesses := 0, hits := 0, misses := 0 }

/-- What a load does to the cache (R77): lines invalid without write-back, counters 0, configuration kept. -/
def invalidateCache (d : DataSide) : DataSide :=
  { d with
    lines := (match d.cfg with
      | some c => emptyLines c
      | none => []),
    accesses := 0, hits := 0, misses := 0 }

/-- `View(a)` with the cache enabled (R73): the byte of the valid line that holds `a`, else `MEM[a]`. -/
def viewIn (c : CacheConfig) (d : DataSide) (a : Nat) : Byte :=
  match findWay (tagOf c a) (getSet d (setIndex c a)) with
  | some w => (getLine c d (setIndex c a) w).data.getD (blockOffset c a) 0#8
  | none => readByte d.mem a

/-- `View(a)` (R73). No instruction reads it; statements do. -/
def view (d : DataSide) (a : Nat) : Byte :=
  match d.cfg with
  | none => readByte d.mem a
  | some c => viewIn c d a

end Sys2Proof.Machine
end

