-- ==== Sys2Proof/Machine/Ops.lean ====
section
/-! DEFINITION. The named operations every meaning is written with: the register file (R12, R21), the pc (R25, R150), taking a fault
(R14, R164), the load/store unit (R134) and the fetch (R149). There is no return from a fault (R168), so none is defined. -/

namespace Sys2Proof.Machine

/-! Registers (R12, R20, R21). -/

/-- `x[i]`: 0 for x0, else the stored register. -/
def State.getReg (s : State) (i : RegIdx) : Word := if i = 0#5 then 0#64 else s.x[i.toNat]'i.isLt

/-- `x[i] <- v`: discarded for x0. -/
def State.setReg (s : State) (i : RegIdx) (v : Word) : State :=
  if i = 0#5 then s else { s with x := s.x.set i.toNat v i.isLt }

/-- `pc <- target`. -/
def State.setPc (s : State) (target : Word) : State := { s with pc := target }

/-- The data side replaced. -/
def State.setData (s : State) (d : DataSide) : State := { s with data := d }

/-- The run status replaced. -/
def State.setStatus (s : State) (st : Status) : State := { s with status := st }

/-- `pc + 4`, modulo 2^64 (R25, R150). -/
def State.nextPc (s : State) : Word := s.pc + 4

/-- The shared ending of every non-control instruction that writes a register: `x[rd] <- v; pc <- pc + 4` (R112, R150). -/
def retireReg (rd : RegIdx) (v : Word) (s : State) : Host.Outcome State Fault Refusal :=
  .next ((s.setReg rd v).setPc s.nextPc)

/-! Faults (R14, R164 to R171). -/

/-- The cause code of a fault (R171). -/
def FaultRecord.code : FaultRecord → BitVec 3
  | .instructionAccessFault _ => 1
  | .instructionAddressMisaligned _ => 2
  | .illegalInstruction _ _ => 3
  | .loadAccessFault _ _ _ => 4
  | .storeAccessFault _ _ _ => 5

/-- The `pc` every fault records (R167). -/
def FaultRecord.pc : FaultRecord → Word
  | .instructionAccessFault pc => pc
  | .instructionAddressMisaligned pc => pc
  | .illegalInstruction pc _ => pc
  | .loadAccessFault pc _ _ => pc
  | .storeAccessFault pc _ _ => pc

/-- The cause code of a status; 0 is no fault (R171). -/
def Status.cause : Status → BitVec 3
  | .faulted f => f.code
  | .unloaded => 0
  | .ready => 0
  | .ended => 0

/-- Taking a fault (R14, R164, R166): the status records it; no register, pc, byte, line or counter changes. -/
def takeFault (f : FaultRecord) (s : State) : Host.Outcome State Fault Refusal := .next (s.setStatus (.faulted f))

/-! The load/store unit (R52, R55, R134). -/

/-- The access widths (R55). -/
inductive Width where
  | byte
  | half
  | word
  | double
  deriving DecidableEq, Repr

/-- `n`, in bytes (R55). -/
def Width.bytes : Width → Nat
  | .byte => 1
  | .half => 2
  | .word => 4
  | .double => 8

/-- The two kinds of request (R134). -/
inductive LsuKind where
  | load
  | store
  deriving DecidableEq, Repr

/-- The LSU's answer (R134): Ok with the value read (a store reads none: 0) and the data side afterwards, or the fault. -/
inductive LsuReply where
  | ok (rdata : Word) (d : DataSide)
  | fault (f : FaultRecord)
  deriving DecidableEq, Repr

/-- The whole access is in bounds, without wrap-around (R52). -/
def inBounds (p : Params) (ea : Word) (n : Nat) : Bool := decide (ea.toNat + n ≤ p.dataMemSize)

/-- One request (R134): bounds first (R52), then MemRead or MemWrite (R54). -/
def lsu (kind : LsuKind) (ea : Word) (n : Nat) (wdata : Word) (s : State) : LsuReply :=
  match kind with
  | .load =>
    if inBounds s.params ea n then .ok (memRead s.data ea.toNat n).1 (memRead s.data ea.toNat n).2
    else .fault (.loadAccessFault s.pc ea n)
  | .store =>
    if inBounds s.params ea n then .ok 0 (memWrite s.data ea.toNat n wdata)
    else .fault (.storeAccessFault s.pc ea n)

/-! Fetch (R149). -/

/-- What a fetch gives. -/
inductive FetchResult where
  | word (w : InsnWord)
  | ended
  | fault (f : FaultRecord)
  deriving DecidableEq, Repr

/-- Fetch, its checks in the order of R149. In the last branch the pc is a multiple of 4 below END, so TEXT holds the word. -/
def fetch (s : State) : FetchResult :=
  if s.pc.getLsbD 63 then .fault (.instructionAccessFault s.pc)
  else if h : s.endAddr ≤ s.pc.toNat then .ended
  else if s.pc.extractLsb' 0 2 ≠ 0 then .fault (.instructionAddressMisaligned s.pc)
  else .word (s.text[s.pc.toNat >>> 2]'(by
    unfold State.endAddr State.instrCount at h
    rw [Nat.shiftRight_eq_div_pow]
    omega))

end Sys2Proof.Machine
end

