-- ==== Sys2Proof/Machine/Operands.lean ====
section
/-! DEFINITION. Operand forms: the immediates widened to 64 bits (R93), the widened loads (R135), the one addressing mode (R132, R133), the value of lui (R131). -/

namespace Sys2Proof.Machine

/-- `imm_I` and `imm_S`: a 12-bit immediate sign-extended (R93). -/
def immI (imm : BitVec 12) : Word := imm.signExtend 64

/-- `imm_B`: a 13-bit offset sign-extended (R93). -/
def immB (off : BitVec 13) : Word := off.signExtend 64

/-- `imm_J`: a 21-bit offset sign-extended (R93). -/
def immJ (off : BitVec 21) : Word := off.signExtend 64

/-- `imm_U`: `{imm20, 12'b0}`, 32 bits (R93). -/
def immU (imm20 : BitVec 20) : BitVec 32 := imm20 ++ 0#12

/-- `shamt`, 0 to 63, zero-extended (R93). -/
def immShamt (shamt : BitVec 6) : Word := shamt.setWidth 64

/-- The effective address `x[rs1] + imm` modulo 2^64 (R132). -/
def effAddr (s : State) (rs1 : RegIdx) (imm : BitVec 12) : Word := s.getReg rs1 + immI imm

/-- The two extensions of a load (R135). -/
inductive Extension where
  | sext
  | zext
  deriving DecidableEq, Repr

/-- `EXT_64(v[8n-1:0])` (R135). -/
def extend (e : Extension) (n : Nat) (v : Word) : Word :=
  match e with
  | .sext => (v.setWidth (8 * n)).signExtend 64
  | .zext => (v.setWidth (8 * n)).setWidth 64

/-- The value of lui: imm_U widened as LUI_EXT says (R131, D16). -/
def luiValue (e : LuiExt) (imm20 : BitVec 20) : Word :=
  match e with
  | .sign => (immU imm20).signExtend 64
  | .zero => (immU imm20).setWidth 64

/-- The load template (R135): the access is made for every rd, also x0 (D20). -/
def loadTemplate (w : Width) (e : Extension) (rd rs1 : RegIdx) (imm : BitVec 12) (s : State) : Host.Outcome State Fault Refusal :=
  match lsu .load (effAddr s rs1 imm) w.bytes 0 s with
  | .ok v d => retireReg rd (extend e w.bytes v) (s.setData d)
  | .fault f => takeFault f s

/-- The store template (R136). -/
def storeTemplate (w : Width) (rs2 rs1 : RegIdx) (imm : BitVec 12) (s : State) : Host.Outcome State Fault Refusal :=
  match lsu .store (effAddr s rs1 imm) w.bytes (s.getReg rs2) s with
  | .ok _ d => .next ((s.setData d).setPc s.nextPc)
  | .fault f => takeFault f s

end Sys2Proof.Machine
end

