-- ==== Sys2Proof/Machine/Flags.lean ====
section
/-! DEFINITION. The block has no flags and no condition codes (R35), so no flag computation stands here: only the ALU (R109), the branch comparator
that takes the flags' place (R152), and the R, I-alu and branch templates over them (R112, R113, R153). -/

namespace Sys2Proof.Machine

/-- The ALU operations (R109). -/
inductive AluOp where
  | add | sub | and | or | xor | sll | srl | sra | slt | sltu
  deriving DecidableEq, Repr

/-- A truth value as a 64-bit 1 or 0. -/
def boolWord (b : Bool) : Word := if b then 1 else 0

/-- `alu(op, a, b)` (R109, R110): modulo 2^64, shifts by the low 6 bits of `b` (D15). -/
def alu (op : AluOp) (a b : Word) : Word :=
  match op with
  | .add => a + b
  | .sub => a - b
  | .and => a &&& b
  | .or => a ||| b
  | .xor => a ^^^ b
  | .sll => a <<< (b.extractLsb' 0 6).toNat
  | .srl => a >>> (b.extractLsb' 0 6).toNat
  | .sra => a.sshiftRight (b.extractLsb' 0 6).toNat
  | .slt => boolWord (a.slt b)
  | .sltu => boolWord (a.ult b)

/-- The branch conditions (R152). -/
inductive Cond where
  | eq | ne | lt | ge | ltu | geu
  deriving DecidableEq, Repr

/-- `cmp(cond, a, b)` (R152): LT and GE signed, LTU and GEU unsigned. -/
def cmp (c : Cond) (a b : Word) : Bool :=
  match c with
  | .eq => a == b
  | .ne => a != b
  | .lt => a.slt b
  | .ge => b.sle a
  | .ltu => a.ult b
  | .geu => b.ule a

/-- The R-type template (R112): both operands are read before rd is written (R24). -/
def rTypeTemplate (op : AluOp) (rd rs1 rs2 : RegIdx) (s : State) : Host.Outcome State Fault Refusal :=
  retireReg rd (alu op (s.getReg rs1) (s.getReg rs2)) s

/-- The I-alu template (R113); `b` is imm_I or shamt. -/
def iAluTemplate (op : AluOp) (rd rs1 : RegIdx) (b : Word) (s : State) : Host.Outcome State Fault Refusal :=
  retireReg rd (alu op (s.getReg rs1) b) s

/-- The branch template (R153). -/
def branchTemplate (c : Cond) (rs1 rs2 : RegIdx) (off : BitVec 13) (s : State) : Host.Outcome State Fault Refusal :=
  .next (s.setPc (if cmp c (s.getReg rs1) (s.getReg rs2) then s.pc + immB off else s.nextPc))

end Sys2Proof.Machine
end

