-- ==== Sys2Proof/Machine/Alu.lean ====
section
/-! DEFINITION. The 18 ALU instructions (40_alu.md): R-type, I-alu and lui. None raises a fault (R111). -/

namespace Sys2Proof.Machine

/-- `add rd, rs1, rs2` (R114). -/
def execAdd (rd rs1 rs2 : RegIdx) (s : State) : Host.Outcome State Fault Refusal := rTypeTemplate .add rd rs1 rs2 s

/-- `sub rd, rs1, rs2` (R115). -/
def execSub (rd rs1 rs2 : RegIdx) (s : State) : Host.Outcome State Fault Refusal := rTypeTemplate .sub rd rs1 rs2 s

/-- `sll rd, rs1, rs2` (R116). -/
def execSll (rd rs1 rs2 : RegIdx) (s : State) : Host.Outcome State Fault Refusal := rTypeTemplate .sll rd rs1 rs2 s

/-- `xor rd, rs1, rs2` (R117). -/
def execXor (rd rs1 rs2 : RegIdx) (s : State) : Host.Outcome State Fault Refusal := rTypeTemplate .xor rd rs1 rs2 s

/-- `srl rd, rs1, rs2` (R118). -/
def execSrl (rd rs1 rs2 : RegIdx) (s : State) : Host.Outcome State Fault Refusal := rTypeTemplate .srl rd rs1 rs2 s

/-- `sra rd, rs1, rs2` (R119). -/
def execSra (rd rs1 rs2 : RegIdx) (s : State) : Host.Outcome State Fault Refusal := rTypeTemplate .sra rd rs1 rs2 s

/-- `or rd, rs1, rs2` (R120). -/
def execOr (rd rs1 rs2 : RegIdx) (s : State) : Host.Outcome State Fault Refusal := rTypeTemplate .or rd rs1 rs2 s

/-- `and rd, rs1, rs2` (R121). -/
def execAnd (rd rs1 rs2 : RegIdx) (s : State) : Host.Outcome State Fault Refusal := rTypeTemplate .and rd rs1 rs2 s

/-- `addi rd, rs1, imm` (R122). -/
def execAddi (rd rs1 : RegIdx) (imm : BitVec 12) (s : State) : Host.Outcome State Fault Refusal := iAluTemplate .add rd rs1 (immI imm) s

/-- `slti rd, rs1, imm` (R123). -/
def execSlti (rd rs1 : RegIdx) (imm : BitVec 12) (s : State) : Host.Outcome State Fault Refusal := iAluTemplate .slt rd rs1 (immI imm) s

/-- `sltiu rd, rs1, imm` (R124). -/
def execSltiu (rd rs1 : RegIdx) (imm : BitVec 12) (s : State) : Host.Outcome State Fault Refusal := iAluTemplate .sltu rd rs1 (immI imm) s

/-- `xori rd, rs1, imm` (R125). -/
def execXori (rd rs1 : RegIdx) (imm : BitVec 12) (s : State) : Host.Outcome State Fault Refusal := iAluTemplate .xor rd rs1 (immI imm) s

/-- `ori rd, rs1, imm` (R126). -/
def execOri (rd rs1 : RegIdx) (imm : BitVec 12) (s : State) : Host.Outcome State Fault Refusal := iAluTemplate .or rd rs1 (immI imm) s

/-- `andi rd, rs1, imm` (R127). -/
def execAndi (rd rs1 : RegIdx) (imm : BitVec 12) (s : State) : Host.Outcome State Fault Refusal := iAluTemplate .and rd rs1 (immI imm) s

/-- `slli rd, rs1, shamt` (R128). -/
def execSlli (rd rs1 : RegIdx) (shamt : BitVec 6) (s : State) : Host.Outcome State Fault Refusal := iAluTemplate .sll rd rs1 (immShamt shamt) s

/-- `srli rd, rs1, shamt` (R129). -/
def execSrli (rd rs1 : RegIdx) (shamt : BitVec 6) (s : State) : Host.Outcome State Fault Refusal := iAluTemplate .srl rd rs1 (immShamt shamt) s

/-- `srai rd, rs1, shamt` (R130). -/
def execSrai (rd rs1 : RegIdx) (shamt : BitVec 6) (s : State) : Host.Outcome State Fault Refusal := iAluTemplate .sra rd rs1 (immShamt shamt) s

/-- `lui rd, imm20` (R131, D16). -/
def execLui (rd : RegIdx) (imm20 : BitVec 20) (s : State) : Host.Outcome State Fault Refusal := retireReg rd (luiValue s.params.luiExt imm20) s

end Sys2Proof.Machine
end

