-- ==== Sys2Proof/Machine/Control.lean ====
section
/-! DEFINITION. The eight control transfers (42_control.md). None faults while it executes: the next fetch checks the target (R151). -/

namespace Sys2Proof.Machine

/-- `jalr rd, offset(rs1)` (R154): the target from the old x[rs1], no bit cleared (D17). -/
def execJalr (rd rs1 : RegIdx) (imm : BitVec 12) (s : State) : Host.Outcome State Fault Refusal :=
  .next ((s.setReg rd s.nextPc).setPc (s.getReg rs1 + immI imm))

/-- `beq rs1, rs2, label` (R155). -/
def execBeq (rs1 rs2 : RegIdx) (off : BitVec 13) (s : State) : Host.Outcome State Fault Refusal := branchTemplate .eq rs1 rs2 off s

/-- `bne rs1, rs2, label` (R156). -/
def execBne (rs1 rs2 : RegIdx) (off : BitVec 13) (s : State) : Host.Outcome State Fault Refusal := branchTemplate .ne rs1 rs2 off s

/-- `blt rs1, rs2, label` (R157). -/
def execBlt (rs1 rs2 : RegIdx) (off : BitVec 13) (s : State) : Host.Outcome State Fault Refusal := branchTemplate .lt rs1 rs2 off s

/-- `bge rs1, rs2, label` (R158). -/
def execBge (rs1 rs2 : RegIdx) (off : BitVec 13) (s : State) : Host.Outcome State Fault Refusal := branchTemplate .ge rs1 rs2 off s

/-- `bltu rs1, rs2, label` (R159). -/
def execBltu (rs1 rs2 : RegIdx) (off : BitVec 13) (s : State) : Host.Outcome State Fault Refusal := branchTemplate .ltu rs1 rs2 off s

/-- `bgeu rs1, rs2, label` (R160). -/
def execBgeu (rs1 rs2 : RegIdx) (off : BitVec 13) (s : State) : Host.Outcome State Fault Refusal := branchTemplate .geu rs1 rs2 off s

/-- `jal rd, label` (R161). -/
def execJal (rd : RegIdx) (off : BitVec 21) (s : State) : Host.Outcome State Fault Refusal :=
  .next ((s.setReg rd s.nextPc).setPc (s.pc + immJ off))

end Sys2Proof.Machine
end

