-- ==== Sys2Proof/Machine/LoadStore.lean ====
section
/-! DEFINITION. The eleven loads and stores (41_load_store.md). -/

namespace Sys2Proof.Machine

/-- `lb rd, offset(rs1)` (R137). -/
def execLb (rd rs1 : RegIdx) (imm : BitVec 12) (s : State) : Host.Outcome State Fault Refusal := loadTemplate .byte .sext rd rs1 imm s

/-- `lh rd, offset(rs1)` (R138). -/
def execLh (rd rs1 : RegIdx) (imm : BitVec 12) (s : State) : Host.Outcome State Fault Refusal := loadTemplate .half .sext rd rs1 imm s

/-- `lw rd, offset(rs1)` (R139). -/
def execLw (rd rs1 : RegIdx) (imm : BitVec 12) (s : State) : Host.Outcome State Fault Refusal := loadTemplate .word .sext rd rs1 imm s

/-- `ld rd, offset(rs1)` (R140). -/
def execLd (rd rs1 : RegIdx) (imm : BitVec 12) (s : State) : Host.Outcome State Fault Refusal := loadTemplate .double .sext rd rs1 imm s

/-- `lbu rd, offset(rs1)` (R141). -/
def execLbu (rd rs1 : RegIdx) (imm : BitVec 12) (s : State) : Host.Outcome State Fault Refusal := loadTemplate .byte .zext rd rs1 imm s

/-- `lhu rd, offset(rs1)` (R142). -/
def execLhu (rd rs1 : RegIdx) (imm : BitVec 12) (s : State) : Host.Outcome State Fault Refusal := loadTemplate .half .zext rd rs1 imm s

/-- `lwu rd, offset(rs1)` (R143). -/
def execLwu (rd rs1 : RegIdx) (imm : BitVec 12) (s : State) : Host.Outcome State Fault Refusal := loadTemplate .word .zext rd rs1 imm s

/-- `sb rs2, offset(rs1)` (R144). -/
def execSb (rs2 rs1 : RegIdx) (imm : BitVec 12) (s : State) : Host.Outcome State Fault Refusal := storeTemplate .byte rs2 rs1 imm s

/-- `sh rs2, offset(rs1)` (R145). -/
def execSh (rs2 rs1 : RegIdx) (imm : BitVec 12) (s : State) : Host.Outcome State Fault Refusal := storeTemplate .half rs2 rs1 imm s

/-- `sw rs2, offset(rs1)` (R146). -/
def execSw (rs2 rs1 : RegIdx) (imm : BitVec 12) (s : State) : Host.Outcome State Fault Refusal := storeTemplate .word rs2 rs1 imm s

/-- `sd rs2, offset(rs1)` (R147). -/
def execSd (rs2 rs1 : RegIdx) (imm : BitVec 12) (s : State) : Host.Outcome State Fault Refusal := storeTemplate .double rs2 rs1 imm s

end Sys2Proof.Machine
end

