-- ==== Sys2Proof/Machine/Cycle.lean ====
section
/-! DEFINITION. The instruction step in its four phases (R148), and the placing of a word where the next fetch reads it. -/

namespace Sys2Proof.Machine

/-- Decode and execute a fetched word (R148): an illegal word faults, a legal one runs. -/
def decodeExecute (w : InsnWord) (s : State) : Host.Outcome State Fault Refusal :=
  match decode w with
  | .legal i => exec i s
  | .illegal => takeFault (.illegalInstruction s.pc w) s

/-- One step of a Ready block (R148, R149, R170): fetch, decode, execute. -/
def cycle (s : State) : Host.Outcome State Fault Refusal :=
  match fetch s with
  | .fault f => takeFault f s
  | .ended => .next (s.setStatus .ended)
  | .word w => decodeExecute w s

/-- A step is taken only when the status is Ready; otherwise nothing happens (R148, R168, R182). -/
def stepWhenReady (s : State) : Host.Outcome State Fault Refusal :=
  match s.status with
  | .ready => cycle s
  | .unloaded => .next s
  | .ended => .next s
  | .faulted _ => .next s

/-- TEXT with word `i` set; words below it that are not there become 0. -/
def placeText (text : List InsnWord) (i : Nat) (w : InsnWord) : List InsnWord :=
  text.take i ++ List.replicate (i - text.length) 0 ++ w :: text.drop (i + 1)

/-- A pc the fetch can use: a multiple of 4 inside TEXT's capacity (R149). -/
def fetchablePc (s : State) : Word :=
  if s.pc.toNat % 4 = 0 ∧ s.pc.toNat / 4 < s.params.textCapacity ∧ s.pc.getLsbD 63 = false then s.pc else 0

/-- The state whose next step fetches `w`: Ready, the pc one that can be fetched from, the word in TEXT there. It stands for the load that
puts a program into TEXT (log 5). -/
def placeFetchWord (s : State) (w : InsnWord) : State :=
  { s with
    status := .ready, pc := fetchablePc s,
    text := placeText s.text ((fetchablePc s).toNat / 4) w }

end Sys2Proof.Machine
end

