-- ==== Sys2Proof/Machine/Step.lean ====
section
/-! DEFINITION. The machine's step (R148), and the host's placing of an instruction word at the next fetch. -/

namespace Sys2Proof.Machine

/-- One step (R148, R182). -/
def step (s : State) : Host.Outcome State Fault Refusal := stepWhenReady s

/-- `s` with the instruction whose bits are `w` (bits at and above `nbits` 0) where `step` fetches next. -/
def State.withFetchWord (s : State) (nbits w : Nat) : State := placeFetchWord s (BitVec.ofNat 32 (w % 2 ^ nbits))

end Sys2Proof.Machine
end

