-- ==== Sys2Proof/Machine/Assembler.lean ====
section
/-! DEFINITION. The assembler in front of `load` (R99 to R107): lines, labels, tokens, ranges, packing through `encode`, the data image.
It is software outside the block (R5). Where the rules leave a line, or a part of it, to the assembler, a free value of Config stands for that alone;
log 12 lists those places and every choice the model makes where the rules do not settle a source's reading. -/

namespace Sys2Proof.Machine

/-- A value or the error that aborts the assembly (R107). -/
abbrev Asm (α : Type) := Except AssembleError α

/-- A piece of source text. -/
abbrev Text := List Char

/-! Lines and tokens (R99, R102). -/

/-- Space or tab. -/
def isBlank (c : Char) : Bool := c == ' ' || c == '\t' || c == '\r'

/-- What separates tokens: comma, space, tab (R102). -/
def isSeparator (c : Char) : Bool := c == ',' || isBlank c

/-- The pieces of a text between the characters `p` holds of, the empty ones kept; `acc` is the piece being read, reversed. -/
def splitOn (p : Char → Bool) (acc : Text) : Text → List Text
  | [] => [acc.reverse]
  | c :: cs => if p c then acc.reverse :: splitOn p [] cs else splitOn p (c :: acc) cs

/-- The lines of a source. -/
def sourceLines (source : Text) : List Text := splitOn (· == '\n') [] source

/-- The tokens of a line (R102). -/
def tokens (line : Text) : List Text := (splitOn isSeparator [] line).filter fun t => !t.isEmpty

/-- Whether a text begins with the characters of another. -/
def startsWith (pre t : Text) : Bool := t.take pre.length == pre

/-! Numbers (R103, R99). -/

/-- The value of a digit in base 10 or 16. -/
def digitValue (base : Nat) (c : Char) : Option Nat :=
  let n := c.toNat
  let v := if 48 ≤ n ∧ n ≤ 57 then some (n - 48) else if 97 ≤ n ∧ n ≤ 102 then some (n - 87)
    else if 65 ≤ n ∧ n ≤ 70 then some (n - 55) else none
  v.filter fun d => decide (d < base)

/-- The value of digits read from the left. -/
def digitsValue (base acc : Nat) : Text → Option Nat
  | [] => some acc
  | c :: cs => (digitValue base c).bind fun d => digitsValue base (base * acc + d) cs

/-- A non-negative literal: decimal digits, or `0x` and hexadecimal digits. -/
def literal (t : Text) : Option Nat :=
  if startsWith ['0', 'x'] t then (if t.length = 2 then none else digitsValue 16 0 (t.drop 2))
  else if t.isEmpty then none
  else digitsValue 10 0 t

/-- An immediate token (R103): decimal, optionally negative, or non-negative hexadecimal (D39). -/
def immediate (t : Text) : Option Int :=
  match t with
  | '-' :: ds => if startsWith ['0', 'x'] ds || ds.isEmpty then none else (digitsValue 10 0 ds).map fun n => -(n : Int)
  | _ => (literal t).map fun n => (n : Int)

/-! Registers (R22). -/

/-- The ABI aliases (R22). -/
def abiNames : List (String × Nat) :=
  [("zero", 0), ("ra", 1), ("sp", 2), ("gp", 3), ("tp", 4), ("t0", 5), ("t1", 6), ("t2", 7), ("s0", 8), ("fp", 8), ("s1", 9),
   ("a0", 10), ("a1", 11), ("a2", 12), ("a3", 13), ("a4", 14), ("a5", 15), ("a6", 16), ("a7", 17)] ++
  [("s2", 18), ("s3", 19), ("s4", 20), ("s5", 21), ("s6", 22), ("s7", 23), ("s8", 24), ("s9", 25), ("s10", 26), ("s11", 27),
   ("t3", 28), ("t4", 29), ("t5", 30), ("t6", 31)]

/-- The index in a numeric name `x0` to `x31`, written without leading zeros. -/
def numericName (t : Text) : Option Nat :=
  match t with
  | ['x', c] => digitValue 10 c
  | ['x', c, d] => if c = '0' then none else (digitsValue 10 0 [c, d]).filter fun n => decide (n < 32)
  | _ => none

/-- A register token (R103): any other token is UnknownRegister. -/
def register (t : Text) : Asm RegIdx :=
  match numericName t with
  | some n => .ok (BitVec.ofNat 5 n)
  | none =>
    match abiNames.find? fun e => e.1.toList == t with
    | some e => .ok (BitVec.ofNat 5 e.2)
    | none => .error .unknownRegister

/-- Whether a token names a register. -/
def isRegister (t : Text) : Bool :=
  match register t with
  | .ok _ => true
  | .error _ => false

/-! Operands in range (R103, R105). -/

/-- A table of labels and their addresses (R101). -/
abbrev Labels := List (Text × Nat)

/-- Where pass 2 is: the source and the line number (for the free values of log 12), the instruction's address, the labels of pass 1. -/
structure Here where
  source : Text
  line : Nat
  address : Nat
  labels : Labels
  deriving DecidableEq, Repr

/-- A number in [lo, hi], as a bit field. -/
def ranged (width : Nat) (lo hi v : Int) : Asm (BitVec width) :=
  if lo ≤ v ∧ v ≤ hi then .ok (BitVec.ofInt width v) else .error .immediateRangeError

/-- An immediate token in [lo, hi]. For a token that is no number the rules name no error: its value is free (log 12), its range is not. -/
def immOperand (width : Nat) (lo hi : Int) (h : Here) (t : Text) : Asm (BitVec width) :=
  match immediate t with
  | some v => ranged width lo hi v
  | none => do ranged width lo hi (← Config.openNumber h.source h.line t)

/-- The signed 12-bit range of I and S immediates. -/
def imm12 (h : Here) (t : Text) : Asm (BitVec 12) := immOperand 12 (-2048) 2047 h t

/-- The token form `offset(reg)`. The model's choices (log 12): the form is a number, the first '(', at least one character, and ')' as the token's
last, so the text between is the register token, also in `4((x2)` and `4(x2))`; of several errors the form's is reported first, then the offset's
range, then the register. -/
def offsetReg (t : Text) : Asm (RegIdx × BitVec 12) :=
  let off := t.takeWhile (· != '(')
  let rest := t.drop (off.length + 1)
  if rest.getLast? = some ')' ∧ rest.length ≥ 2 then
    match immediate off with
    | none => .error .malformedMemoryOperand
    | some v => do
      let i ← ranged 12 (-2048) 2047 v
      let r ← register rest.dropLast
      .ok (r, i)
  else .error .malformedMemoryOperand

/-- The tokens of a memory operand (R104, R133): `offset(reg)`; `reg offset reg`; or an offset and a register apart, as in `lw x1, 4 x2`, which the
rules leave open, because `reg offset reg` may also be read as the line's whole operand list (log 12). -/
inductive MemTokens where
  | pair (t : Text)
  | spaced (base offset again : Text)
  | apart (offset base : Text)
  deriving DecidableEq, Repr

/-- Picks a memory operand's tokens. A first token that names a register begins `reg offset reg`, which needs three tokens. Any other is taken for
an `offset(reg)`, whatever R103 says of a token that names no register (log 12), unless it is an offset before a register. -/
def memTokens : List Text → Asm MemTokens
  | [] => .error .missingOperand
  | t :: more =>
    if isRegister t then
      match more with
      | o :: b :: _ => .ok (.spaced t o b)
      | _ => .error .missingOperand
    else if (immediate t).isSome then
      match more with
      | b :: _ => if isRegister b then .ok (.apart t b) else .ok (.pair t)
      | [] => .ok (.pair t)
    else .ok (.pair t)

/-- The base register and offset of a memory operand, its tokens taken from left to right (log 12). `reg offset reg` names its base twice; what two
different registers, or an offset and a register apart, stand for is free (log 12). -/
def memOperand (h : Here) : MemTokens → Asm (RegIdx × BitVec 12)
  | .pair t => offsetReg t
  | .spaced t o b => do
    let r ← register t
    let i ← imm12 h o
    let r2 ← register b
    if r2 = r then .ok (r, i) else Config.openMemOperand h.source h.line
  | .apart o _ => do
    let _ ← imm12 h o
    Config.openMemOperand h.source h.line

/-- The distance to a label, even and in [lo, hi] (R105). -/
def distance (width : Nat) (lo hi : Int) (h : Here) (t : Text) : Asm (BitVec width) :=
  match h.labels.find? fun e => e.1 == t with
  | none => .error .unresolvedLabel
  | some e =>
    let d := (e.2 : Int) - h.address
    if d % 2 = 0 then ranged width lo hi d else .error .immediateRangeError

/-! One instruction line (R102 to R106). A missing operand is reported first, then the tokens from left to right (log 12). -/

/-- R-type operands `rd, rs1, rs2`. -/
def asmR (mk : RegIdx → RegIdx → RegIdx → Instr) (_ : Here) (ts : List Text) : Asm Instr :=
  match ts with
  | d :: a :: b :: _ => do .ok (mk (← register d) (← register a) (← register b))
  | _ => .error .missingOperand

/-- I-alu operands `rd, rs1, imm`. -/
def asmI (mk : RegIdx → RegIdx → BitVec 12 → Instr) (h : Here) (ts : List Text) : Asm Instr :=
  match ts with
  | d :: a :: i :: _ => do .ok (mk (← register d) (← register a) (← imm12 h i))
  | _ => .error .missingOperand

/-- Shift operands `rd, rs1, shamt`. -/
def asmShift (mk : RegIdx → RegIdx → BitVec 6 → Instr) (h : Here) (ts : List Text) : Asm Instr :=
  match ts with
  | d :: a :: i :: _ => do .ok (mk (← register d) (← register a) (← immOperand 6 0 63 h i))
  | _ => .error .missingOperand

/-- `reg, memory operand`: loads, jalr and stores. -/
def asmMem (mk : RegIdx → RegIdx → BitVec 12 → Instr) (h : Here) (ts : List Text) : Asm Instr :=
  match ts with
  | d :: m => do
    let shape ← memTokens m
    let r ← register d
    let o ← memOperand h shape
    .ok (mk r o.1 o.2)
  | [] => .error .missingOperand

/-- Branch operands `rs1, rs2, label`. -/
def asmB (mk : RegIdx → RegIdx → BitVec 13 → Instr) (h : Here) (ts : List Text) : Asm Instr :=
  match ts with
  | a :: b :: l :: _ => do .ok (mk (← register a) (← register b) (← distance 13 (-4096) 4094 h l))
  | _ => .error .missingOperand

/-- `jal rd, label`. -/
def asmJal (h : Here) (ts : List Text) : Asm Instr :=
  match ts with
  | d :: l :: _ => do .ok (.jal (← register d) (← distance 21 (-1048576) 1048574 h l))
  | _ => .error .missingOperand

/-- `lui rd, imm`. -/
def asmLui (h : Here) (ts : List Text) : Asm Instr :=
  match ts with
  | d :: i :: _ => do .ok (.lui (← register d) (← immOperand 20 0 1048575 h i))
  | _ => .error .missingOperand

/-- The mnemonics of the three-register and immediate forms (R102). slti and sltiu are not among them (C2). -/
def aluMnemonics : List (String × (Here → List Text → Asm Instr)) :=
  [("add", asmR .add), ("sub", asmR .sub), ("and", asmR .and), ("or", asmR .or), ("xor", asmR .xor), ("sll", asmR .sll),
   ("srl", asmR .srl), ("sra", asmR .sra), ("addi", asmI .addi), ("andi", asmI .andi), ("ori", asmI .ori), ("xori", asmI .xori),
   ("slli", asmShift .slli), ("srli", asmShift .srli), ("srai", asmShift .srai), ("lui", asmLui)]

/-- The mnemonics with a memory operand (R102, R104). -/
def memMnemonics : List (String × (Here → List Text → Asm Instr)) :=
  [("lb", asmMem .lb), ("lh", asmMem .lh), ("lw", asmMem .lw), ("ld", asmMem .ld), ("lbu", asmMem .lbu), ("lhu", asmMem .lhu),
   ("lwu", asmMem .lwu), ("jalr", asmMem .jalr), ("sb", asmMem .sb), ("sh", asmMem .sh), ("sw", asmMem .sw), ("sd", asmMem .sd)]

/-- The mnemonics with a label operand (R102, R105). -/
def labelMnemonics : List (String × (Here → List Text → Asm Instr)) :=
  [("beq", asmB .beq), ("bne", asmB .bne), ("blt", asmB .blt), ("bge", asmB .bge), ("bltu", asmB .bltu), ("bgeu", asmB .bgeu),
   ("jal", asmJal)]

/-- The assembler's whole mnemonic table (R102). -/
def mnemonics : List (String × (Here → List Text → Asm Instr)) := aluMnemonics ++ memMnemonics ++ labelMnemonics

/-- Pass 2 on the mnemonic and operand tokens of one instruction line (R102). -/
def asmLine (h : Here) (m : Text) (ops : List Text) : Asm Instr :=
  match mnemonics.find? fun e => e.1.toList == m with
  | some e => e.2 h ops
  | none => .error .unknownMnemonic

/-! Sections, labels, data (R99 to R101). -/

/-- What a source line is (R99): nothing, a directive with its arguments, or an instruction line with its label and tokens. A line with only a
label has no tokens. -/
inductive SourceLine where
  | blank
  | directive (name : Text) (args : List Text)
  | instr (label : Option Text) (ts : List Text)
  deriving DecidableEq, Repr

/-- A text without the blanks at its end. -/
def dropTrailingBlanks (t : Text) : Text := (t.reverse.dropWhile isBlank).reverse

/-- The leading `name:` of an instruction line and the rest (R101, R102). The model's choices (log 12): the label is all the text before the line's
first ':', wherever that stands, without blanks at its end; the only test of it is R101's, for `(`, `)` and `,`, so that a blank inside it is no
error. -/
def splitLabel (line : Text) : Asm (Option Text × Text) :=
  if line.contains ':' then
    let before := line.takeWhile (· != ':')
    let name := dropTrailingBlanks before
    if name.any fun c => c == '(' || c == ')' || c == ',' then .error .invalidLabel
    else .ok (some name, line.drop (before.length + 1))
  else .ok (none, line)

/-- Reads one line (R99). A line that begins with a dot is a directive. Blanks before a comment sign, a directive's dot, a label or a mnemonic are
dropped first: the model's choice, the spec says "prefix" and "leading" and nothing of indented lines (log 12). -/
def readLine (line : Text) : Asm SourceLine :=
  let t := line.dropWhile isBlank
  match t with
  | [] => .ok .blank
  | c :: _ =>
    if c = ';' ∨ c = '#' then .ok .blank
    else if c = '.' then
      match tokens t with
      | name :: args => .ok (.directive name args)
      | [] => .ok .blank
    else (splitLabel t).map fun r => .instr r.1 (tokens r.2)

/-- The width in bytes of a data directive (R99, R100). -/
def dataWidth (name : Text) : Option Nat :=
  if name == ".byte".toList then some 1 else if name == ".half".toList then some 2
  else if name == ".word".toList then some 4 else if name == ".dword".toList then some 8 else none

/-- A literal of a data directive (R99). The value of a token that is no literal is free (log 12). -/
def dataLiteral (source : Text) (n : Nat) (t : Text) : Asm Int :=
  match literal t with
  | some v => .ok v
  | none => Config.openNumber source n t

/-- The bytes of a data directive's values, truncated to the width, little-endian, packed (R100). No value at all is no error and emits no byte:
the model's choice, the spec does not say (log 12). -/
def dataBytes (source : Text) (n width : Nat) : List Text → Asm (List Byte)
  | [] => .ok []
  | t :: ts => do
    let v ← dataLiteral source n t
    let bs ← dataBytes source n width ts
    .ok (leBytes (BitVec.ofInt 64 v) width ++ bs)

/-- What pass 1 has gathered (R101): the section, the running byte address, the labels, the instruction lines' tokens with their 1-based line
numbers, the data image. -/
structure Pass1 where
  sec : Section
  address : Nat
  labels : Labels
  instrs : List (Nat × List Text)
  image : List Byte
  deriving DecidableEq, Repr

/-- By how much an instruction line moves the address in pass 1: 4 (R101, C9); a line without a mnemonic, by a free number of words (D37, log 12). -/
def advance (source : Text) (n : Nat) (ts : List Text) : Asm Nat :=
  match ts with
  | [] => (Config.openNoMnemonic source n).map fun r => 4 * r.1
  | _ :: _ => .ok 4

/-- The labels after a line that declares one at the current address (R101). A label defined twice is InvalidLabel (D42); an empty one names nothing,
and whether it is an error is free (log 12). -/
def recordLabel (source : Text) (n : Nat) (label : Option Text) (p : Pass1) : Asm Labels :=
  match label with
  | none => .ok p.labels
  | some [] => (Config.openEmptyLabel source n).map fun _ => p.labels
  | some (c :: cs) => if p.labels.any fun e => e.1 == c :: cs then .error .invalidLabel else .ok (p.labels ++ [(c :: cs, p.address)])

/-- Pass 1 on an instruction line, in whatever section it stands: "every non-blank, non-comment, non-directive line" (R101, R102). -/
def pass1Instr (source : Text) (n : Nat) (label : Option Text) (ts : List Text) (p : Pass1) : Asm Pass1 := do
  let labels ← recordLabel source n label p
  let k ← advance source n ts
  .ok { p with address := p.address + k, labels := labels, instrs := p.instrs ++ [(n, ts)] }

/-- A directive the rules leave open: its section and its bytes are free (log 12). No directive moves the address (R101). -/
def pass1Open (source : Text) (n : Nat) (p : Pass1) : Asm Pass1 :=
  (Config.openDirective source n).map fun r => { p with sec := r.1, image := p.image ++ r.2 }

/-- Pass 1 on a directive (R99, R100). `.data` and `.text` may follow instruction lines or be repeated. Left open (log 12): `.data` after `.text`, a
data directive outside `.data` (D41), and a directive R99 does not list. -/
def pass1Directive (source : Text) (n : Nat) (name : Text) (args : List Text) (p : Pass1) : Asm Pass1 :=
  if name == ".data".toList then
    if p.sec = .text then pass1Open source n p else .ok { p with sec := .data }
  else if name == ".text".toList then .ok { p with sec := .text }
  else
    match dataWidth name with
    | none => pass1Open source n p
    | some w =>
      if p.sec = .data then (dataBytes source n w args).map fun bs => { p with image := p.image ++ bs }
      else pass1Open source n p

/-- Pass 1 on one line (R99, R101). -/
def pass1Line (source : Text) (n : Nat) (line : Text) (p : Pass1) : Asm Pass1 :=
  match readLine line with
  | .error e => .error e
  | .ok .blank => .ok p
  | .ok (.directive name args) => pass1Directive source n name args p
  | .ok (.instr label ts) => pass1Instr source n label ts p

/-- Pass 1 over the lines from line number `n` on; an error carries its line number (R107). -/
def pass1 (source : Text) (n : Nat) : List Text → Pass1 → Except (AssembleError × Nat) Pass1
  | [], p => .ok p
  | l :: ls, p =>
    match pass1Line source n l p with
    | .error e => .error (e, n)
    | .ok q => pass1 source (n + 1) ls q

/-- Pass 2 over the instruction lines from address `here` on (R102). A line without a mnemonic gives no word and moves the address by a free number of
words (D37, log 12). -/
def pass2 (source : Text) (labels : Labels) (here : Nat) : List (Nat × List Text) → Except (AssembleError × Nat) (List InsnWord)
  | [] => .ok []
  | (n, []) :: more =>
    match Config.openNoMnemonic source n with
    | .error e => .error (e, n)
    | .ok r => pass2 source labels (here + 4 * r.2) more
  | (n, m :: ops) :: more =>
    match asmLine ⟨source, n, here, labels⟩ m ops with
    | .error e => .error (e, n)
    | .ok i => (pass2 source labels (here + 4) more).map fun ws => encode i :: ws

/-- The two passes (R101, R102): the words in program order and the data image, or the first error with its line number, which aborts the whole
(R107). -/
def assemble (source : Text) : Except (AssembleError × Nat) (List InsnWord × List Byte) :=
  match pass1 source 1 (sourceLines source) ⟨.start, 0, [], [], []⟩ with
  | .error e => .error e
  | .ok p => (pass2 source p.labels 0 p.instrs).map fun ws => (ws, p.image)

/-! The textual output (R107, R49). -/

/-- One lowercase hex digit. -/
def hexDigit (n : Nat) : Char := Char.ofNat (if n < 10 then 48 + n else 87 + n)

/-- A word as 8 lowercase hex digits, the most significant first. -/
def wordText (w : InsnWord) : Text := (List.range 8).map fun k => hexDigit (w.toNat / 16 ^ (7 - k) % 16)

/-- The assembler's output, one instruction per line in program order. -/
def listing (words : List InsnWord) : List Text := words.map wordText

end Sys2Proof.Machine
end

