-- ==== Sys2Proof/Machine/Commands.lean ====
section
/-! DEFINITION. The operations the layer outside the block performs on it (R179 to R190) and the load that is its reset (R191, R192).
Each runs to completion between steps (R199). -/

namespace Sys2Proof.Machine

/-! Program load (R191, R192). -/

/-- Why a load fails (R180). -/
inductive LoadError where
  | assemble (e : AssembleError) (line : Nat)
  | capacityError
  | memoryBoundsError
  deriving DecidableEq, Repr

/-- The state after a failed load (R192): everything of the program gone, the cache configuration and the breakpoints kept. Whatever the status was:
a failed load of a Faulted or Ended block gives Unloaded, as R180, R192 and D40 say, though R29, R168 and D11 say that only a successful load leaves
that status. The choice between the two is the model's (log 15). -/
def loadFailed (s : State) : State :=
  { s with
    x := Vector.replicate 32 0, pc := 0, text := [], status := .unloaded,
    data := { invalidateCache s.data with mem := [] } }

/-- The state after a successful load of `words` and `image` (R39, R191). -/
def loadDone (words : List InsnWord) (image : List Byte) (s : State) : State :=
  { s with
    x := loadedRegs s.params, pc := 0, text := words, status := .ready,
    data := { invalidateCache s.data with mem := writeBytes [] s.params.dataBase image } }

/-- The checks of R191 on an assembled program, in its order. -/
def loadCheck (p : Params) (words : List InsnWord) (image : List Byte) : Option LoadError :=
  if p.textCapacity < words.length then some .capacityError
  else if p.dataMemSize < p.dataBase + image.length then some .memoryBoundsError
  else none

/-- Installing an assembled program (R191). It also installs words no assembler gives, such as slti (C2). -/
def loadWords (words : List InsnWord) (image : List Byte) (s : State) : Option LoadError × State :=
  match loadCheck s.params words image with
  | some e => (some e, loadFailed s)
  | none => (none, loadDone words image s)

/-! Cache requests (R58). -/

/-- What enable_cache is given: three integers and two policy tokens. -/
structure CacheRequest where
  cacheSize : Int
  blockSize : Int
  associativity : Int
  replacement : String
  write : String
  deriving DecidableEq, Repr

/-- The replacement policy a token names, if any (R58 condition 6). -/
def replacementToken (t : String) : Option Replacement :=
  if t == "LRU" then some .lru else if t == "FIFO" then some .fifo
  else if t == "LFU" then some .lfu else if t == "RANDOM" then some .random else none

/-- The write policy a token names, if any (R58 condition 6). -/
def writeToken (t : String) : Option WritePolicy :=
  if t == "WB" then some .writeBack else if t == "WT" then some .writeThrough else none

/-- The configuration a request asks for, if all six conditions of R58 hold; `size` is DATA_MEM_SIZE. -/
def acceptConfig (size : Nat) (r : CacheRequest) : Option CacheConfig :=
  match replacementToken r.replacement, writeToken r.write with
  | some p, some w =>
    let c : CacheConfig := ⟨r.cacheSize.toNat, r.blockSize.toNat, r.associativity.toNat, p, w⟩
    if configOk size c then some c else none
  | _, _ => none

/-! Breakpoints (R187): a strictly rising list of line numbers. -/

/-- Adds a line to the set. -/
def insertLine (n : Nat) : List Nat → List Nat
  | [] => [n]
  | m :: ms => if n < m then n :: m :: ms else if n = m then m :: ms else m :: insertLine n ms

/-- Removes a line from the set. -/
def removeLine (n : Nat) (ms : List Nat) : List Nat := ms.filter fun m => m != n

/-! run (R181, R187). -/

/-- `run`: steps while Ready. Each element of `choices` is the outside layer's choice for one step, true where a breakpoint is on the line
about to execute (D35: the mapping is free); with no breakpoint set there is no stop. The list's end cuts a run that has not stopped (log 10). -/
def runChoices : List Bool → State → Host.Outcome State Fault Refusal
  | [], s => .next s
  | stop :: more, s =>
    match s.status with
    | .ready =>
      if stop && !s.breakpoints.isEmpty then .next s
      else
        match step s with
        | .next t => runChoices more t
        | .fault f => .fault f
        | .refused r => .refused r
    | .unloaded => .next s
    | .ended => .next s
    | .faulted _ => .next s

/-! The operations (R179). -/

/-- The core operations exposed to the outside layer (R179). -/
inductive Command where
  | load (source : String)
  | run (choices : List Bool)
  | step
  | readRegisters
  | readMemory (address count : Nat)
  | setBreakpoint (line : Nat)
  | clearBreakpoint (line : Nat)
  | enableCache (r : CacheRequest)
  | disableCache
  | cacheStats
  deriving DecidableEq, Repr

/-- What an operation answers. -/
inductive Reply where
  | done
  | loaded (instrCount : Nat)
  | loadFailed (e : LoadError)
  | registers (values : List Int)
  | bytes (values : List Byte)
  | memoryBoundsError
  | cacheConfigError
  | stats (accesses hits misses : BitVec 64)
  deriving DecidableEq, Repr

/-- `load(source)` (R180, R191, R192). -/
def loadSource (source : String) (s : State) : Host.Outcome (Reply × State) Fault Refusal :=
  match assemble source.toList with
  | .error (e, n) => .next (.loadFailed (.assemble e n), loadFailed s)
  | .ok (words, image) =>
    match loadWords words image s with
    | (none, t) => .next (.loaded t.instrCount, t)
    | (some e, t) => .next (.loadFailed e, t)

/-- The 32 registers as signed integers (R183). -/
def readRegisters (s : State) : List Int := (List.range 32).map fun i => (s.getReg (BitVec.ofNat 5 i)).toInt

/-- read_memory (R184): backing bytes, or MemoryBoundsError. -/
def readMemory (address count : Nat) (s : State) : Reply :=
  if address + count ≤ s.params.dataMemSize then .bytes (readBytes s.data.mem address count) else .memoryBoundsError

/-- enable_cache (R58): when accepted, a cache already enabled is first disabled (D28). -/
def enableCache (r : CacheRequest) (s : State) : Reply × State :=
  match acceptConfig s.params.dataMemSize r with
  | none => (.cacheConfigError, s)
  | some c => (.done, s.setData (installCache c (disableCache s.params.disableFlush s.data)))

/-- A state answer of a step or run as an operation's answer. -/
def doneWith (o : Host.Outcome State Fault Refusal) : Host.Outcome (Reply × State) Fault Refusal :=
  match o with
  | .next s => .next (.done, s)
  | .fault f => .fault f
  | .refused r => .refused r

/-- One operation on the block (R179). -/
def command (c : Command) (s : State) : Host.Outcome (Reply × State) Fault Refusal :=
  match c with
  | .load source => loadSource source s
  | .run choices => doneWith (runChoices choices s)
  | .step => doneWith (step s)
  | .readRegisters => .next (.registers (readRegisters s), s)
  | .readMemory address count => .next (readMemory address count s, s)
  | .setBreakpoint n => .next (.done, { s with breakpoints := insertLine n s.breakpoints })
  | .clearBreakpoint n => .next (.done, { s with breakpoints := removeLine n s.breakpoints })
  | .enableCache r => .next (enableCache r s)
  | .disableCache => .next (.done, s.setData (disableCache s.params.disableFlush s.data))
  | .cacheStats => .next (.stats s.data.accesses s.data.hits s.data.misses, s)

end Sys2Proof.Machine
end

