-- ==== Sys2Proof/Safety.lean ====
section
/-! DEFINITION. What the statements say of a state: the invariants the rules keep (R34, R73, R33, R29) and the frames of a step that writes
one register, stores, or only moves the pc. -/

namespace Sys2Proof

namespace Machine

/-- One line of set `set` (R32, R34, R73): its buffer has the block's length; dirty only under WB and only if valid; a valid line's block lies in
data memory; a valid clean line equals MEM over its block. -/
def LineOk (size : Nat) (c : CacheConfig) (m : Memory) (set : Nat) (l : Line) : Prop :=
  l.data.length = c.blockSize ∧
  (l.dirty = true → l.valid = true ∧ c.write = .writeBack) ∧
  (l.valid = true → lineBase c l.tag set + c.blockSize ≤ size) ∧
  (l.valid = true → l.dirty = false → ∀ k, k < c.blockSize → l.data.getD k 0#8 = readByte m (lineBase c l.tag set + k))

/-- "at most one valid line per tag per set" (R34). -/
def UniqueTags (ways : List Line) : Prop :=
  ∀ (w w' : Nat) (h : w < ways.length) (h' : w' < ways.length),
    ways[w].valid = true → ways[w'].valid = true → ways[w].tag = ways[w'].tag → w = w'

/-- The cache's shape and contents (R30 to R34, R73). -/
structure CacheOk (size : Nat) (c : CacheConfig) (d : DataSide) : Prop where
  config : configOk size c = true
  sets : d.lines.length = numSets c
  ways : ∀ set, set < numSets c → (getSet d set).length = c.associativity
  lines : ∀ set, set < numSets c → ∀ l ∈ getSet d set, LineOk size c d.mem set l
  unique : ∀ set, set < numSets c → UniqueTags (getSet d set)

/-- The data side (R28, R30, R33): MEM in canonical form and inside data memory, the counters' sum, and no lines or a sound cache. -/
structure DataOk (size : Nat) (d : DataSide) : Prop where
  memWf : Memory.wf d.mem = true
  memIn : ∀ e ∈ d.mem, e.1 < size
  counters : d.accesses = d.hits + d.misses
  off : d.cfg = none → d.lines = []
  on : ∀ c, d.cfg = some c → CacheOk size c d

/-- What a status says of the rest (R29, R163, R166, R192). -/
def StatusOk (s : State) : Prop :=
  match s.status with
  | .unloaded => s.text = [] ∧ s.pc = 0
  | .ready => True
  | .ended => s.pc.getLsbD 63 = false ∧ s.endAddr ≤ s.pc.toNat
  | .faulted f => f.pc = s.pc

/-- A list of line numbers is a set: strictly rising (R36). -/
abbrev LinesOk (ms : List Nat) : Prop := ms.Pairwise (· < ·)

/-- The invariant of the block: sound parameters (R9), a program that fits (R27), a sound data side, a truthful status, a set of breakpoints. -/
structure State.Inv (s : State) : Prop where
  params : s.params.ok = true
  text : s.text.length ≤ s.params.textCapacity
  data : DataOk s.params.dataMemSize s.data
  status : StatusOk s
  breakpoints : LinesOk s.breakpoints

/-- Everything but the registers, the pc and the data side is as before: parameters, program, status, breakpoints (R23, R27, R29, R36). -/
def SameControl (s t : State) : Prop :=
  t.params = s.params ∧ t.text = s.text ∧ t.status = s.status ∧ t.breakpoints = s.breakpoints

/-- Every byte of MEM reads as before, and no cache line and no counter has changed. -/
def SameData (s t : State) : Prop :=
  (∀ a, readByte t.data.mem a = readByte s.data.mem a) ∧ t.data = s.data

/-- Every register reads as before. -/
def SameRegs (s t : State) : Prop := ∀ r, t.getReg r = s.getReg r

/-- `x[rd] <- v` and no other register (R12, R21): x0 keeps reading 0. -/
def WritesReg (s t : State) (rd : RegIdx) (v : Word) : Prop :=
  ∀ r, t.getReg r = if r = rd ∧ r ≠ 0#5 then v else s.getReg r

/-- `t` is `s` after an instruction that writes `v` to `rd`, moves the pc by 4 and does nothing else (R112, R113, R150). -/
def RetiresReg (s t : State) (rd : RegIdx) (v : Word) : Prop :=
  t.pc = s.pc + 4 ∧ WritesReg s t rd v ∧ SameData s t ∧ SameControl s t

/-- The coherent byte `View(a)` of a state (R73). -/
def State.view (s : State) (a : Nat) : Byte := Sys2Proof.Machine.view s.data a

/-- The n-byte little-endian value of the coherent view at `a` (R48, R73). -/
def State.viewValue (s : State) (a n : Nat) : Word := leValue ((List.range n).map fun k => s.view (a + k))

/-- The block with its cache switched off and the counters and draws forgotten: every dirty line written back (R73, R76). -/
def State.uncached (s : State) : State :=
  { s with data := { disableCache .flush s.data with accesses := 0, hits := 0, misses := 0, draws := 0 } }

/-- No byte of the coherent view has changed (R73). -/
def SameView (s t : State) : Prop := ∀ a, t.view a = s.view a

/-- `t` is `s` after a load of `n` bytes at `a` that writes `v` to `rd` (R135): the pc moves by 4; the data side is what one MemRead of those bytes
leaves, also when `rd` is x0 (R54, R57, R62; D20); so the coherent view and the cache's configuration stay, and with the cache off the whole data
side stays. (With it on, the lookups change lines, counters and, under WB, which bytes MEM has caught up with.) -/
def LoadsReg (s t : State) (rd : RegIdx) (a n : Nat) (v : Word) : Prop :=
  t.pc = s.pc + 4 ∧ WritesReg s t rd v ∧ t.data = (memRead s.data a n).2 ∧ SameView s t ∧ t.data.cfg = s.data.cfg ∧ (s.data.cfg = none → SameData s t) ∧ SameControl s t

/-- `v` is the n bytes of the view at `a`, lowest first, and above them zeros or, for a sign-extending load, copies of the top bit (R48, R135). -/
def LoadedValue (e : Extension) (s : State) (a n : Nat) (v : Word) : Prop :=
  (∀ k, k < n → byteOf v k = s.view (a + k)) ∧
  (∀ k, n ≤ k → k < 8 → byteOf v k = if e = .sext ∧ (s.view (a + n - 1)).getLsbD 7 = true then 0xff#8 else 0#8)

/-- `t` is `s` after a store of the low `n` bytes of `v` at `a` (R136): the pc moves by 4, no register changes, the data side is
what one MemWrite of those bytes leaves (R54, R57, R62), so the view changes in them alone, and with the cache off nothing of the data side but MEM
changes. -/
def StoresBytes (s t : State) (a n : Nat) (v : Word) : Prop :=
  t.pc = s.pc + 4 ∧ SameRegs s t ∧ t.data = memWrite s.data a n v ∧ (∀ x, t.view x = if a ≤ x ∧ x < a + n then byteOf v (x - a) else s.view x) ∧
  t.data.cfg = s.data.cfg ∧ (s.data.cfg = none → t.data = { s.data with mem := t.data.mem }) ∧ SameControl s t

/-- `t` is `s` after a jump to `target` that writes nothing else (R153). -/
def JumpsTo (s t : State) (target : Word) : Prop := t.pc = target ∧ SameRegs s t ∧ SameData s t ∧ SameControl s t

/-- `t` is `s` after a jump to `target` that links in `rd` (R154, R161). -/
def LinksTo (s t : State) (rd : RegIdx) (target : Word) : Prop :=
  t.pc = target ∧ WritesReg s t rd (s.pc + 4) ∧ SameData s t ∧ SameControl s t

/-- The six conditions of R58 on a request, over the integers. -/
def CacheRequest.Accepted (r : CacheRequest) (size : Nat) : Prop :=
  0 < r.cacheSize ∧ 0 < r.blockSize ∧ 0 < r.associativity ∧ (∃ k : Nat, r.cacheSize = 2 ^ k) ∧ (∃ k : Nat, r.blockSize = 2 ^ k) ∧
  r.blockSize * r.associativity ∣ r.cacheSize ∧ (∃ k : Nat, r.cacheSize = 2 ^ k * (r.blockSize * r.associativity)) ∧
  r.blockSize ∣ (size : Int) ∧ r.replacement ∈ ["LRU", "FIFO", "LFU", "RANDOM"] ∧ r.write ∈ ["WB", "WT"]

end Machine

open Machine

/-! What R97 calls the fields of an instruction's record; `none` where R97 says "unused". -/

/-- `rd`. Stores and branches have none (R23). -/
def Instr.rd? : Instr → Option RegIdx
  | .add rd _ _ | .sub rd _ _ | .sll rd _ _ | .xor rd _ _ | .srl rd _ _ | .sra rd _ _ | .or rd _ _ | .and rd _ _
  | .addi rd _ _ | .slti rd _ _ | .sltiu rd _ _ | .xori rd _ _ | .ori rd _ _ | .andi rd _ _
  | .slli rd _ _ | .srli rd _ _ | .srai rd _ _
  | .lb rd _ _ | .lh rd _ _ | .lw rd _ _ | .ld rd _ _ | .lbu rd _ _ | .lhu rd _ _ | .lwu rd _ _
  | .jalr rd _ _ | .lui rd _ | .jal rd _ => some rd
  | .sb _ _ _ | .sh _ _ _ | .sw _ _ _ | .sd _ _ _
  | .beq _ _ _ | .bne _ _ _ | .blt _ _ _ | .bge _ _ _ | .bltu _ _ _ | .bgeu _ _ _ => none

/-- `rs1`. -/
def Instr.rs1? : Instr → Option RegIdx
  | .add _ rs1 _ | .sub _ rs1 _ | .sll _ rs1 _ | .xor _ rs1 _ | .srl _ rs1 _ | .sra _ rs1 _ | .or _ rs1 _ | .and _ rs1 _
  | .addi _ rs1 _ | .slti _ rs1 _ | .sltiu _ rs1 _ | .xori _ rs1 _ | .ori _ rs1 _ | .andi _ rs1 _
  | .slli _ rs1 _ | .srli _ rs1 _ | .srai _ rs1 _
  | .lb _ rs1 _ | .lh _ rs1 _ | .lw _ rs1 _ | .ld _ rs1 _ | .lbu _ rs1 _ | .lhu _ rs1 _ | .lwu _ rs1 _
  | .jalr _ rs1 _
  | .sb _ rs1 _ | .sh _ rs1 _ | .sw _ rs1 _ | .sd _ rs1 _
  | .beq rs1 _ _ | .bne rs1 _ _ | .blt rs1 _ _ | .bge rs1 _ _ | .bltu rs1 _ _ | .bgeu rs1 _ _ => some rs1
  | .lui _ _ | .jal _ _ => none

/-- `rs2`. -/
def Instr.rs2? : Instr → Option RegIdx
  | .add _ _ rs2 | .sub _ _ rs2 | .sll _ _ rs2 | .xor _ _ rs2 | .srl _ _ rs2 | .sra _ _ rs2 | .or _ _ rs2 | .and _ _ rs2
  | .sb rs2 _ _ | .sh rs2 _ _ | .sw rs2 _ _ | .sd rs2 _ _
  | .beq _ rs2 _ | .bne _ rs2 _ | .blt _ rs2 _ | .bge _ rs2 _ | .bltu _ rs2 _ | .bgeu _ rs2 _ => some rs2
  | .addi _ _ _ | .slti _ _ _ | .sltiu _ _ _ | .xori _ _ _ | .ori _ _ _ | .andi _ _ _
  | .slli _ _ _ | .srli _ _ _ | .srai _ _ _
  | .lb _ _ _ | .lh _ _ _ | .lw _ _ _ | .ld _ _ _ | .lbu _ _ _ | .lhu _ _ _ | .lwu _ _ _
  | .jalr _ _ _ | .lui _ _ | .jal _ _ => none

/-- `imm`, as 64 bits (R93); imm_U with zeros above its 32 bits. -/
def Instr.imm? : Instr → Option Word
  | .addi _ _ imm | .slti _ _ imm | .sltiu _ _ imm | .xori _ _ imm | .ori _ _ imm | .andi _ _ imm
  | .lb _ _ imm | .lh _ _ imm | .lw _ _ imm | .ld _ _ imm | .lbu _ _ imm | .lhu _ _ imm | .lwu _ _ imm
  | .sb _ _ imm | .sh _ _ imm | .sw _ _ imm | .sd _ _ imm
  | .jalr _ _ imm => some (immI imm)
  | .beq _ _ off | .bne _ _ off | .blt _ _ off | .bge _ _ off | .bltu _ _ off | .bgeu _ _ off => some (immB off)
  | .jal _ off => some (immJ off)
  | .lui _ imm20 => some ((immU imm20).setWidth 64)
  | .add _ _ _ | .sub _ _ _ | .sll _ _ _ | .xor _ _ _ | .srl _ _ _ | .sra _ _ _ | .or _ _ _ | .and _ _ _
  | .slli _ _ _ | .srli _ _ _ | .srai _ _ _ => none

/-- `shamt`, as 64 bits (R93). -/
def Instr.shamt? : Instr → Option Word
  | .slli _ _ shamt | .srli _ _ shamt | .srai _ _ shamt => some (immShamt shamt)
  | .add _ _ _ | .sub _ _ _ | .sll _ _ _ | .xor _ _ _ | .srl _ _ _ | .sra _ _ _ | .or _ _ _ | .and _ _ _
  | .addi _ _ _ | .slti _ _ _ | .sltiu _ _ _ | .xori _ _ _ | .ori _ _ _ | .andi _ _ _
  | .lb _ _ _ | .lh _ _ _ | .lw _ _ _ | .ld _ _ _ | .lbu _ _ _ | .lhu _ _ _ | .lwu _ _ _
  | .sb _ _ _ | .sh _ _ _ | .sw _ _ _ | .sd _ _ _
  | .beq _ _ _ | .bne _ _ _ | .blt _ _ _ | .bge _ _ _ | .bltu _ _ _ | .bgeu _ _ _
  | .jalr _ _ _ | .lui _ _ | .jal _ _ => none

/-- The data access an instruction makes (R55, R134): its kind, base register, offset and width in bytes. -/
def Instr.access : Instr → Option (LsuKind × RegIdx × BitVec 12 × Nat)
  | .lb _ rs1 imm | .lbu _ rs1 imm => some (.load, rs1, imm, 1)
  | .lh _ rs1 imm | .lhu _ rs1 imm => some (.load, rs1, imm, 2)
  | .lw _ rs1 imm | .lwu _ rs1 imm => some (.load, rs1, imm, 4)
  | .ld _ rs1 imm => some (.load, rs1, imm, 8)
  | .sb _ rs1 imm => some (.store, rs1, imm, 1)
  | .sh _ rs1 imm => some (.store, rs1, imm, 2)
  | .sw _ rs1 imm => some (.store, rs1, imm, 4)
  | .sd _ rs1 imm => some (.store, rs1, imm, 8)
  | .add _ _ _ | .sub _ _ _ | .sll _ _ _ | .xor _ _ _ | .srl _ _ _ | .sra _ _ _ | .or _ _ _ | .and _ _ _
  | .addi _ _ _ | .slti _ _ _ | .sltiu _ _ _ | .xori _ _ _ | .ori _ _ _ | .andi _ _ _
  | .slli _ _ _ | .srli _ _ _ | .srai _ _ _
  | .beq _ _ _ | .bne _ _ _ | .blt _ _ _ | .bge _ _ _ | .bltu _ _ _ | .bgeu _ _ _
  | .jalr _ _ _ | .lui _ _ | .jal _ _ => none

end Sys2Proof
end

