-- ==== Sys2Proof/Certificates/Slice0/Obligations.lean ====
section
/-! DEFINITION. The statements for the provers. Each docstring names the rules of spec/ it formalises; where a rule carries a decision D<n> of
92_eei_decisions.md or an inference the spec marks as its own, or a log entry, it says so. -/

section

open Sys2Proof Sys2Proof.Machine

/-! Encoding. -/

/-- R108: every well-formed instruction's word decodes to that instruction, whatever its operands. -/
def Obligations.DecodeOfEncode : Prop :=
  ∀ i : Instr, i.wellFormed = true → decode (encode i) = .legal i

/-- R97, R106: a legal word is the word of the instruction it decodes to, which is well formed; so no bit of a legal word is ignored. -/
def Obligations.EncodeOfDecode : Prop :=
  ∀ (w : InsnWord) (i : Instr), decode w = .legal i → i.wellFormed = true ∧ encode i = w

/-- R95: a word decodes to the instruction of a row exactly when it matches the row, no word matches two rows, and a word that matches none is
illegal (D10). -/
def Obligations.DecodeFollowsTable : Prop :=
  ∀ w : InsnWord,
    (∀ o : Op, w &&& o.mask = o.matchBits ↔ ∃ i, decode w = .legal i ∧ i.op = o) ∧
    (∀ o o' : Op, w &&& o.mask = o.matchBits → w &&& o'.mask = o'.matchBits → o = o') ∧
    (decode w = .illegal ↔ ∀ o : Op, w &&& o.mask ≠ o.matchBits)

/-- R94, R95, R96 (D10, D33): an opcode outside R94's table is illegal, and so are the standard encodings R96 lists, by opcode, `slt`/`sltu`, and the
all-zero and all-ones words. -/
def Obligations.OtherWordsIllegal : Prop :=
  (∀ w : InsnWord, w &&& 0x7f ∉ [0x33#32, 0x13#32, 0x03#32, 0x67#32, 0x23#32, 0x37#32, 0x63#32, 0x6f#32] → decode w = .illegal) ∧
  (∀ w : InsnWord, w &&& 0x7f ∈ [0x17#32, 0x1b#32, 0x3b#32, 0x0f#32, 0x73#32] → decode w = .illegal) ∧
  (∀ w : InsnWord, w &&& 0x707f ∈ [0x2033#32, 0x3033#32] → decode w = .illegal) ∧
  decode 0x00000000 = .illegal ∧ decode 0xffffffff = .illegal

/-- 95_test_vectors L1.1, L1.2, L1.9 and the worked words of R116 to R161, one or more for every family. -/
def Obligations.WorkedWordsDecode : Prop :=
  decode 0x003100b3 = .legal (.add 1 2 3) ∧ decode 0x4020d1b3 = .legal (.sra 3 1 2) ∧
  decode 0x00a00293 = .legal (.addi 5 0 10) ∧ decode 0x40415093 = .legal (.srai 1 2 4) ∧
  decode 0xfff10083 = .legal (.lb 1 2 (-1)) ∧ decode 0x80113023 = .legal (.sd 1 2 (-2048)) ∧
  decode 0x7e110fa3 = .legal (.sb 1 2 2047) ∧ decode 0x123450b7 = .legal (.lui 1 0x12345) ∧
  decode 0x004280e7 = .legal (.jalr 1 5 4) ∧ decode 0xfe209ee3 = .legal (.bne 1 2 (-4)) ∧
  decode 0x800000ef = .legal (.jal 1 (-1048576))

/-- R93: every immediate, bit by bit from the word, and its range. (That the ranges follow and that the logical immediates are sign-extended are
marked by the spec as its own.) -/
def Obligations.ImmediatesFromWord : Prop :=
  ∀ w : InsnWord,
    (∀ k, k < 64 → (immI (fieldImmI w)).getLsbD k = if k < 11 then w.getLsbD (20 + k) else w.getLsbD 31) ∧
    (∀ k, k < 64 → (immI (fieldImmS w)).getLsbD k =
      if k < 5 then w.getLsbD (7 + k) else if k < 11 then w.getLsbD (20 + k) else w.getLsbD 31) ∧
    (∀ k, k < 64 → (immB (fieldImmB w)).getLsbD k =
      if k = 0 then false else if k < 5 then w.getLsbD (7 + k) else if k < 11 then w.getLsbD (20 + k)
      else if k = 11 then w.getLsbD 7 else w.getLsbD 31) ∧
    (∀ k, k < 64 → (immJ (fieldImmJ w)).getLsbD k =
      if k = 0 then false else if k < 11 then w.getLsbD (20 + k) else if k = 11 then w.getLsbD 20
      else if k < 20 then w.getLsbD k else w.getLsbD 31) ∧
    (∀ k, k < 32 → (immU (fieldImm20 w)).getLsbD k = if k < 12 then false else w.getLsbD k) ∧
    (∀ k, k < 64 → (immShamt (fieldShamt w)).getLsbD k = if k < 6 then w.getLsbD (20 + k) else false) ∧
    (-2048 ≤ (immI (fieldImmI w)).toInt ∧ (immI (fieldImmI w)).toInt ≤ 2047) ∧
    (-2048 ≤ (immI (fieldImmS w)).toInt ∧ (immI (fieldImmS w)).toInt ≤ 2047) ∧
    (-4096 ≤ (immB (fieldImmB w)).toInt ∧ (immB (fieldImmB w)).toInt ≤ 4094) ∧
    (-1048576 ≤ (immJ (fieldImmJ w)).toInt ∧ (immJ (fieldImmJ w)).toInt ≤ 1048574) ∧
    (immShamt (fieldShamt w)).toNat ≤ 63

/-- R97: the decoder's record, field by field as R97's table places them for the instruction's family; and it is total. -/
def Obligations.DecodedRecord : Prop :=
  ∀ w : InsnWord,
    (decode w = .illegal ∨ ∃ i, decode w = .legal i) ∧
    ∀ i, decode w = .legal i →
      (∀ r, i.rd? = some r → r = w.extractLsb' 7 5) ∧
      (∀ r, i.rs1? = some r → r = w.extractLsb' 15 5) ∧
      (∀ r, i.rs2? = some r → r = w.extractLsb' 20 5) ∧
      (∀ v, i.shamt? = some v → v = immShamt (fieldShamt w)) ∧
      (∀ v, i.imm? = some v →
        v = if w.extractLsb' 0 7 = 0x23#7 then immI (fieldImmS w)
          else if w.extractLsb' 0 7 = 0x63#7 then immB (fieldImmB w)
          else if w.extractLsb' 0 7 = 0x6f#7 then immJ (fieldImmJ w)
          else if w.extractLsb' 0 7 = 0x37#7 then (immU (fieldImm20 w)).setWidth 64
          else immI (fieldImmI w))

/-- R102, R106, R108 (the spec marks R108's second sentence as derived; log 12; C2): every word the assembler puts into a program decodes, to an
instruction of the assembler's table, which has no slti and no sltiu; and so does every word of TEXT after a load that answers a count. -/
def Obligations.AssembledWordsDecode : Prop :=
  (∀ (source : Text) (words : List InsnWord) (image : List Byte), assemble source = .ok (words, image) →
    ∀ w ∈ words, ∃ i, i.wellFormed = true ∧ w = encode i ∧ decode w = .legal i ∧ i.op ≠ .slti ∧ i.op ≠ .sltiu) ∧
  (∀ (source : String) (s t : State) (k : Nat), command (.load source) s = .next (.loaded k, t) →
    ∀ w ∈ t.text, ∃ i, i.wellFormed = true ∧ w = encode i ∧ decode w = .legal i ∧ i.op ≠ .slti ∧ i.op ≠ .sltiu)

/-! The step. -/

/-- R148, R149: a Ready step whose pc addresses a loaded legal word runs exactly its instruction; an illegal word faults (D10). The step adds nothing
around exec: each meaning moves the pc itself. -/
def Obligations.StepRunsDecoded : Prop :=
  ∀ (s : State) (w : InsnWord),
    s.status = .ready → 0 ≤ s.pc.toInt → s.pc.toNat % 4 = 0 → s.text[s.pc.toNat / 4]? = some w →
    (∀ i, decode w = .legal i → step s = exec i s) ∧
    (decode w = .illegal → step s = .next (s.setStatus (.faulted (.illegalInstruction s.pc w))))

/-- R149 (D9): the fetch checks in their order. The four cases exclude each other. -/
def Obligations.FetchOutcomes : Prop :=
  ∀ s : State, s.status = .ready →
    (s.pc.toInt < 0 → step s = .next (s.setStatus (.faulted (.instructionAccessFault s.pc)))) ∧
    (0 ≤ s.pc.toInt → 4 * s.text.length ≤ s.pc.toNat → step s = .next (s.setStatus .ended)) ∧
    (0 ≤ s.pc.toInt → s.pc.toNat < 4 * s.text.length → s.pc.toNat % 4 ≠ 0 →
      step s = .next (s.setStatus (.faulted (.instructionAddressMisaligned s.pc)))) ∧
    (0 ≤ s.pc.toInt → s.pc.toNat < 4 * s.text.length → s.pc.toNat % 4 = 0 →
      ∃ w, s.text[s.pc.toNat / 4]? = some w ∧ step s = decodeExecute w s)

/-- R182: one step when Ready, Ended at or past END, no heed of breakpoints, nothing when not Ready; the host's `step` is that step. -/
def Obligations.StepWhenReady : Prop :=
  ∀ s : State,
    (s.status ≠ .ready → step s = .next s) ∧
    (s.status = .ready → step s = cycle s) ∧
    (s.status = .ready → 0 ≤ s.pc.toInt → 4 * s.text.length ≤ s.pc.toNat → step s = .next (s.setStatus .ended)) ∧
    (∀ (t : State) (ms : List Nat), step s = .next t → step { s with breakpoints := ms } = .next { t with breakpoints := ms }) ∧
    (∀ t : State, step s = .next t → command .step s = .next (.done, t))

/-! Faults. -/

/-- R164, R166 (D11), R14: a step that faults changes the status and nothing else, and the record holds the pc. -/
def Obligations.FaultsArePrecise : Prop :=
  ∀ (s t : State) (f : FaultRecord),
    s.status = .ready → step s = .next t → t.status = .faulted f → t = s.setStatus (.faulted f) ∧ f.pc = s.pc

/-- R170, R171 (D12): which fault code a Ready step leaves, with the exact condition of each. -/
def Obligations.FaultConditions : Prop :=
  ∀ s t : State, s.status = .ready → step s = .next t →
    (t.status.cause = 1 ↔ s.pc.toInt < 0) ∧
    (t.status.cause = 2 ↔ 0 ≤ s.pc.toInt ∧ s.pc.toNat < 4 * s.text.length ∧ s.pc.toNat % 4 ≠ 0) ∧
    (t.status.cause = 3 ↔ ∃ w, fetch s = .word w ∧ ∀ o : Op, w &&& o.mask ≠ o.matchBits) ∧
    (t.status.cause = 4 ↔ ∃ w i rs1 imm n, fetch s = .word w ∧ decode w = .legal i ∧ i.access = some (.load, rs1, imm, n) ∧
      s.params.dataMemSize < (effAddr s rs1 imm).toNat + n) ∧
    (t.status.cause = 5 ↔ ∃ w i rs1 imm n, fetch s = .word w ∧ decode w = .legal i ∧ i.access = some (.store, rs1, imm, n) ∧
      s.params.dataMemSize < (effAddr s rs1 imm).toNat + n)

/-- R168, R29 (D11, D40): only a load leaves Faulted; step and run do nothing then. (What a failed load does there is log 15's.) -/
def Obligations.FaultedForGood : Prop :=
  ∀ (s : State) (f : FaultRecord), s.status = .faulted f →
    step s = .next s ∧ (∀ choices, runChoices choices s = .next s) ∧
    ∀ (c : Command) (r : Reply) (t : State), command c s = .next (r, t) → (∀ src, c ≠ .load src) → t.status = .faulted f

/-! The ALU instructions. -/

/-- R112: every R-type instruction writes `alu(OP, x[rs1], x[rs2])` of the old registers to rd, moves the pc by 4 and does nothing else;
with rd = 0 only the pc changes (RetiresReg never writes x0). -/
def Obligations.RTypeTemplate : Prop :=
  ∀ (s : State) (rd rs1 rs2 : RegIdx),
    (∃ t, exec (.add rd rs1 rs2) s = .next t ∧ RetiresReg s t rd (alu .add (s.getReg rs1) (s.getReg rs2))) ∧
    (∃ t, exec (.sub rd rs1 rs2) s = .next t ∧ RetiresReg s t rd (alu .sub (s.getReg rs1) (s.getReg rs2))) ∧
    (∃ t, exec (.sll rd rs1 rs2) s = .next t ∧ RetiresReg s t rd (alu .sll (s.getReg rs1) (s.getReg rs2))) ∧
    (∃ t, exec (.xor rd rs1 rs2) s = .next t ∧ RetiresReg s t rd (alu .xor (s.getReg rs1) (s.getReg rs2))) ∧
    (∃ t, exec (.srl rd rs1 rs2) s = .next t ∧ RetiresReg s t rd (alu .srl (s.getReg rs1) (s.getReg rs2))) ∧
    (∃ t, exec (.sra rd rs1 rs2) s = .next t ∧ RetiresReg s t rd (alu .sra (s.getReg rs1) (s.getReg rs2))) ∧
    (∃ t, exec (.or rd rs1 rs2) s = .next t ∧ RetiresReg s t rd (alu .or (s.getReg rs1) (s.getReg rs2))) ∧
    (∃ t, exec (.and rd rs1 rs2) s = .next t ∧ RetiresReg s t rd (alu .and (s.getReg rs1) (s.getReg rs2)))

/-- R113, R93, R124 (that xori, ori, andi and sltiu sign-extend their immediate is standard RV64I, which the spec supplies from general knowledge,
log 8): every I-alu instruction writes `alu(OP, x[rs1], imm_I)`, or with the shift amount for the shift forms, of the old register to rd,
moves the pc by 4 and does nothing else; with rd = 0 only the pc changes. -/
def Obligations.IAluTemplate : Prop :=
  ∀ (s : State) (rd rs1 : RegIdx) (imm : BitVec 12) (shamt : BitVec 6),
    (∃ t, exec (.addi rd rs1 imm) s = .next t ∧ RetiresReg s t rd (alu .add (s.getReg rs1) (imm.signExtend 64))) ∧
    (∃ t, exec (.slti rd rs1 imm) s = .next t ∧ RetiresReg s t rd (alu .slt (s.getReg rs1) (imm.signExtend 64))) ∧
    (∃ t, exec (.sltiu rd rs1 imm) s = .next t ∧ RetiresReg s t rd (alu .sltu (s.getReg rs1) (imm.signExtend 64))) ∧
    (∃ t, exec (.xori rd rs1 imm) s = .next t ∧ RetiresReg s t rd (alu .xor (s.getReg rs1) (imm.signExtend 64))) ∧
    (∃ t, exec (.ori rd rs1 imm) s = .next t ∧ RetiresReg s t rd (alu .or (s.getReg rs1) (imm.signExtend 64))) ∧
    (∃ t, exec (.andi rd rs1 imm) s = .next t ∧ RetiresReg s t rd (alu .and (s.getReg rs1) (imm.signExtend 64))) ∧
    (∃ t, exec (.slli rd rs1 shamt) s = .next t ∧ RetiresReg s t rd (alu .sll (s.getReg rs1) (shamt.setWidth 64))) ∧
    (∃ t, exec (.srli rd rs1 shamt) s = .next t ∧ RetiresReg s t rd (alu .srl (s.getReg rs1) (shamt.setWidth 64))) ∧
    (∃ t, exec (.srai rd rs1 shamt) s = .next t ∧ RetiresReg s t rd (alu .sra (s.getReg rs1) (shamt.setWidth 64)))

/-- R109, R110 (D15; the operations' meanings are standard RV64I, which the spec supplies from general knowledge, log 8): the ten results as integers
and bits. -/
def Obligations.AluResults : Prop :=
  ∀ a b : Word,
    (alu .add a b).toNat = (a.toNat + b.toNat) % 2 ^ 64 ∧
    (alu .sub a b).toNat = (2 ^ 64 + a.toNat - b.toNat) % 2 ^ 64 ∧
    (∀ k, (alu .and a b).getLsbD k = (a.getLsbD k && b.getLsbD k)) ∧
    (∀ k, (alu .or a b).getLsbD k = (a.getLsbD k || b.getLsbD k)) ∧
    (∀ k, (alu .xor a b).getLsbD k = (a.getLsbD k != b.getLsbD k)) ∧
    (alu .sll a b).toNat = a.toNat * 2 ^ (b.toNat % 64) % 2 ^ 64 ∧
    (alu .srl a b).toNat = a.toNat / 2 ^ (b.toNat % 64) ∧
    (alu .sra a b).toInt = a.toInt / 2 ^ (b.toNat % 64) ∧
    alu .slt a b = (if a.toInt < b.toInt then 1 else 0) ∧
    alu .sltu a b = (if a.toNat < b.toNat then 1 else 0)

/-- R131 (D16): lui writes the 20 bits over 12 zeros, widened as LUI_EXT says, for both values of LUI_EXT. -/
def Obligations.LuiResult : Prop :=
  ∀ (s : State) (rd : RegIdx) (imm20 : BitVec 20), ∃ t v, exec (.lui rd imm20) s = .next t ∧ RetiresReg s t rd v ∧
    (∀ k, k < 12 → v.getLsbD k = false) ∧
    (∀ k, 12 ≤ k → k < 32 → v.getLsbD k = imm20.getLsbD (k - 12)) ∧
    (∀ k, 32 ≤ k → k < 64 → v.getLsbD k = (decide (s.params.luiExt = .sign) && imm20.getLsbD 19))

/-! Loads and stores. -/

/-- R132 (D19): the effective address is base plus signed offset modulo 2^64. -/
def Obligations.EffectiveAddress : Prop :=
  ∀ (s : State) (rs1 : RegIdx) (imm : BitVec 12),
    ((effAddr s rs1 imm).toNat : Int) = ((s.getReg rs1).toNat + imm.toInt) % 2 ^ 64

/-- R135, R137 to R140 (R73 is derived by the spec): a sign-extending load in bounds, at any alignment (D14), answers a next state and writes the
view's bytes, extended, to rd; the access goes through MemRead, so through the cache while it is on, also when rd is x0 (R54, R57, R62; D20). -/
def Obligations.SignedLoadsComplete : Prop :=
  ∀ (s : State) (rd rs1 : RegIdx) (imm : BitVec 12), s.Inv →
    let ea := (effAddr s rs1 imm).toNat
    (ea + 1 ≤ s.params.dataMemSize → ∃ t v, exec (.lb rd rs1 imm) s = .next t ∧ LoadsReg s t rd ea 1 v ∧ LoadedValue .sext s ea 1 v) ∧
    (ea + 2 ≤ s.params.dataMemSize → ∃ t v, exec (.lh rd rs1 imm) s = .next t ∧ LoadsReg s t rd ea 2 v ∧ LoadedValue .sext s ea 2 v) ∧
    (ea + 4 ≤ s.params.dataMemSize → ∃ t v, exec (.lw rd rs1 imm) s = .next t ∧ LoadsReg s t rd ea 4 v ∧ LoadedValue .sext s ea 4 v) ∧
    (ea + 8 ≤ s.params.dataMemSize → ∃ t v, exec (.ld rd rs1 imm) s = .next t ∧ LoadsReg s t rd ea 8 v ∧ LoadedValue .sext s ea 8 v)

/-- R135, R141 to R143, R54, R57, R62 (D20): the same for the zero-extending loads. -/
def Obligations.UnsignedLoadsComplete : Prop :=
  ∀ (s : State) (rd rs1 : RegIdx) (imm : BitVec 12), s.Inv →
    let ea := (effAddr s rs1 imm).toNat
    (ea + 1 ≤ s.params.dataMemSize → ∃ t v, exec (.lbu rd rs1 imm) s = .next t ∧ LoadsReg s t rd ea 1 v ∧ LoadedValue .zext s ea 1 v) ∧
    (ea + 2 ≤ s.params.dataMemSize → ∃ t v, exec (.lhu rd rs1 imm) s = .next t ∧ LoadsReg s t rd ea 2 v ∧ LoadedValue .zext s ea 2 v) ∧
    (ea + 4 ≤ s.params.dataMemSize → ∃ t v, exec (.lwu rd rs1 imm) s = .next t ∧ LoadsReg s t rd ea 4 v ∧ LoadedValue .zext s ea 4 v)

/-- R136, R144 to R147 (R73 is derived by the spec): a store in bounds, at any alignment (D14), answers a next state in which the view has changed in
its n bytes alone; the access goes through MemWrite, so through the cache while it is on (R54, R57, R62). -/
def Obligations.StoresComplete : Prop :=
  ∀ (s : State) (rs2 rs1 : RegIdx) (imm : BitVec 12), s.Inv →
    let ea := (effAddr s rs1 imm).toNat
    (ea + 1 ≤ s.params.dataMemSize → ∃ t, exec (.sb rs2 rs1 imm) s = .next t ∧ StoresBytes s t ea 1 (s.getReg rs2)) ∧
    (ea + 2 ≤ s.params.dataMemSize → ∃ t, exec (.sh rs2 rs1 imm) s = .next t ∧ StoresBytes s t ea 2 (s.getReg rs2)) ∧
    (ea + 4 ≤ s.params.dataMemSize → ∃ t, exec (.sw rs2 rs1 imm) s = .next t ∧ StoresBytes s t ea 4 (s.getReg rs2)) ∧
    (ea + 8 ≤ s.params.dataMemSize → ∃ t, exec (.sd rs2 rs1 imm) s = .next t ∧ StoresBytes s t ea 8 (s.getReg rs2))

/-- R52, R135, R136, R171 (D13, D20): every load or store out of bounds, also a load to x0 and a wrapped address, takes the access fault with
(pc, ea, n) and changes nothing else. -/
def Obligations.AccessFaults : Prop :=
  ∀ (i : Instr) (s : State) (rs1 : RegIdx) (imm : BitVec 12) (n : Nat),
    s.params.dataMemSize < (effAddr s rs1 imm).toNat + n →
    (i.access = some (.load, rs1, imm, n) →
      exec i s = .next (s.setStatus (.faulted (.loadAccessFault s.pc (effAddr s rs1 imm) n)))) ∧
    (i.access = some (.store, rs1, imm, n) →
      exec i s = .next (s.setStatus (.faulted (.storeAccessFault s.pc (effAddr s rs1 imm) n))))

/-- R50, R78, R198 (the spec derives them from R48, R53 and R73): any load after any store, both in bounds and of any widths, returns for each byte
the stored one where the store reached and the old one elsewhere. -/
def Obligations.LoadAfterStore : Prop :=
  ∀ (i j : Instr) (s : State) (rs1 rs1' rs2 rd : RegIdx) (imm imm' : BitVec 12) (n m : Nat),
    s.Inv → i.access = some (.store, rs1, imm, n) → i.rs2? = some rs2 →
    j.access = some (.load, rs1', imm', m) → j.rd? = some rd → rd ≠ 0 →
    (effAddr s rs1 imm).toNat + n ≤ s.params.dataMemSize → (effAddr s rs1' imm').toNat + m ≤ s.params.dataMemSize →
    ∃ t u, exec i s = .next t ∧ exec j t = .next u ∧
      ∀ k, k < m → byteOf (u.getReg rd) k =
        if (effAddr s rs1 imm).toNat ≤ (effAddr s rs1' imm').toNat + k ∧ (effAddr s rs1' imm').toNat + k < (effAddr s rs1 imm).toNat + n
        then byteOf (s.getReg rs2) ((effAddr s rs1' imm').toNat + k - (effAddr s rs1 imm).toNat)
        else s.view ((effAddr s rs1' imm').toNat + k)

/-! Control transfers. -/

/-- R153, R151 with the conditions of R152 (their signed and unsigned readings are standard RV64I, which the spec supplies from general knowledge,
log 8): a branch always answers a next state, goes to
`pc + imm_B` or to `pc + 4`, and writes no register and no memory; a misaligned target inside the program faults at the next fetch. -/
def Obligations.BranchTemplate : Prop :=
  (∀ (s : State) (rs1 rs2 : RegIdx) (off : BitVec 13),
    let a := s.getReg rs1
    let b := s.getReg rs2
    let target := s.pc + off.signExtend 64
    (∃ t, exec (.beq rs1 rs2 off) s = .next t ∧ JumpsTo s t (if a = b then target else s.pc + 4)) ∧
    (∃ t, exec (.bne rs1 rs2 off) s = .next t ∧ JumpsTo s t (if a ≠ b then target else s.pc + 4)) ∧
    (∃ t, exec (.blt rs1 rs2 off) s = .next t ∧ JumpsTo s t (if a.toInt < b.toInt then target else s.pc + 4)) ∧
    (∃ t, exec (.bge rs1 rs2 off) s = .next t ∧ JumpsTo s t (if b.toInt ≤ a.toInt then target else s.pc + 4)) ∧
    (∃ t, exec (.bltu rs1 rs2 off) s = .next t ∧ JumpsTo s t (if a.toNat < b.toNat then target else s.pc + 4)) ∧
    (∃ t, exec (.bgeu rs1 rs2 off) s = .next t ∧ JumpsTo s t (if b.toNat ≤ a.toNat then target else s.pc + 4))) ∧
  (∀ t : State, t.status = .ready → 0 ≤ t.pc.toInt → t.pc.toNat < 4 * t.text.length → t.pc.toNat % 4 ≠ 0 →
    step t = .next (t.setStatus (.faulted (.instructionAddressMisaligned t.pc))))

/-- R154, R151 (D17): jalr links pc + 4 in rd and jumps to the old x[rs1] plus the offset, with no bit cleared, also when rd = rs1. -/
def Obligations.JumpRegister : Prop :=
  ∀ (s : State) (rd rs1 : RegIdx) (imm : BitVec 12),
    ∃ t, exec (.jalr rd rs1 imm) s = .next t ∧ LinksTo s t rd (s.getReg rs1 + imm.signExtend 64)

/-- R161: jal links pc + 4 in rd (not when rd = 0) and adds the offset to the pc; its encoding and examples; `jal x0, 0` stays where it is for ever. -/
def Obligations.JumpAndLink : Prop :=
  (∀ (s : State) (rd : RegIdx) (off : BitVec 21),
    ∃ t, exec (.jal rd off) s = .next t ∧ LinksTo s t rd (s.pc + off.signExtend 64)) ∧
  (∀ s : State, exec (.jal 0 0) s = .next s) ∧
  (∀ off : BitVec 21, (Instr.jal 0 off).wellFormed = true → -1048576 ≤ off.toInt ∧ off.toInt ≤ 1048574) ∧
  (∀ (rd : RegIdx) (off : BitVec 21), encode (.jal rd off) =
    off.extractLsb' 20 1 ++ off.extractLsb' 1 10 ++ off.extractLsb' 11 1 ++ off.extractLsb' 12 8 ++ rd ++ 0x6f#7) ∧
  encode (.jal 1 8) = 0x008000ef ∧ encode (.jal 0 (-4)) = 0xffdff06f

/-- R162 (the spec derives it from R161 and R154): a jal and a later jalr through the unchanged link register come back to the word after the jal. -/
def Obligations.CallReturns : Prop :=
  ∀ (s t c : State) (ra : RegIdx) (off : BitVec 21), ra ≠ 0 → exec (.jal ra off) s = .next t → c.getReg ra = t.getReg ra →
    ∃ u, exec (.jalr 0 ra 0) c = .next u ∧ u.pc = s.pc + 4 ∧ SameRegs c u

/-! Registers, memory and program as a whole. -/

/-- R21: x0 reads 0; a write to it is discarded; a write to any other register is that register's new value and changes no other; and no
instruction changes the stored slot behind x0. -/
def Obligations.X0Hardwired : Prop :=
  (∀ s : State, s.getReg 0 = 0) ∧
  (∀ (s : State) (v : Word), s.setReg 0 v = s) ∧
  (∀ (s : State) (i : RegIdx) (v : Word), i ≠ 0 → (s.setReg i v).getReg i = v ∧ ∀ r, r ≠ i → (s.setReg i v).getReg r = s.getReg r) ∧
  (∀ (s : State) (i : RegIdx), i ≠ 0 → s.getReg i = s.x[i.toNat]'i.isLt) ∧
  (∀ (i : Instr) (s t : State), exec i s = .next t → t.x[0] = s.x[0])

/-- R23: an instruction writes no register but its rd, and stores and branches, which have no rd, none; a step that runs no instruction writes none;
besides load, run and step no operation of the host writes one. -/
def Obligations.RegisterWriters : Prop :=
  (∀ (i : Instr) (s t : State) (r : RegIdx), exec i s = .next t → i.rd? ≠ some r → t.getReg r = s.getReg r) ∧
  (∀ s t : State, step s = .next t → (∀ w i, fetch s = .word w → decode w ≠ .legal i) → SameRegs s t) ∧
  (∀ (c : Command) (s t : State) (r : Reply), command c s = .next (r, t) →
    (∀ src, c ≠ .load src) → (∀ ch, c ≠ .run ch) → c ≠ .step → SameRegs s t)

/-- R36, R57, R72: an instruction that is no load and no store changes no byte of MEM, no cache line and no counter. -/
def Obligations.OnlyAccessesTouchData : Prop :=
  ∀ (i : Instr) (s t : State), i.access = none → exec i s = .next t → SameData s t

/-- R27, R81 (D6), R8, R38: no step changes the program, the parameters or the breakpoints; of the host's operations only load changes the program,
only the breakpoint operations change the breakpoints, and none the parameters. -/
def Obligations.ProgramFixed : Prop :=
  (∀ s t : State, step s = .next t → t.text = s.text ∧ t.params = s.params ∧ t.breakpoints = s.breakpoints) ∧
  (∀ (c : Command) (s t : State) (r : Reply), command c s = .next (r, t) →
    t.params = s.params ∧ ((∀ src, c ≠ .load src) → t.text = s.text) ∧
    ((∀ n, c ≠ .setBreakpoint n) → (∀ n, c ≠ .clearBreakpoint n) → t.breakpoints = s.breakpoints))

/-- R9, R27, R28, R30 to R34, R73 (1), R29, R166: the invariant of Safety.lean is kept by every step, whatever the program, the cache configuration
and the RANDOM draws. -/
def Obligations.StepKeepsInvariant : Prop :=
  ∀ s t : State, s.Inv → step s = .next t → t.Inv

/-- The same for every operation of the host (R179): load, run, step, breakpoints, the cache's controls, the reads. -/
def Obligations.CommandsKeepInvariant : Prop :=
  ∀ (c : Command) (s t : State) (r : Reply), s.Inv → command c s = .next (r, t) → t.Inv

/-- R191, R39: the state after reset meets the invariant (its parameters are log 1's, its empty program log 5's). -/
def Obligations.ResetMeetsInvariant : Prop := State.reset.Inv

/-- R191, R39 (D7, D8, D31; log 1, log 5): State.reset is what a successful load of no words and no image leaves of a block just powered on: Ready,
pc 0, x2 the stack top, every other register 0, every byte 0, the cache off with its counters 0, no breakpoint. -/
def Obligations.ResetState : Prop :=
  loadWords [] [] (State.unloaded Params.test) = (none, State.reset) ∧
  State.reset.status = .ready ∧ State.reset.pc = 0 ∧ State.reset.text = [] ∧ State.reset.breakpoints = [] ∧
  (∀ r : RegIdx, State.reset.getReg r = if r = 2 then BitVec.ofNat 64 State.reset.params.stackTop else 0) ∧
  (∀ a, readByte State.reset.data.mem a = 0) ∧ State.reset.data.cfg = none ∧
  State.reset.data.accesses = 0 ∧ State.reset.data.hits = 0 ∧ State.reset.data.misses = 0

/-- R9, R193 (D3, D40): building a machine checks the six bounds; a machine is Unloaded with everything 0, and meets the invariant. -/
def Obligations.PowerOnChecks : Prop :=
  ∀ p : Params,
    let good := 1 ≤ p.textCapacity ∧ 1 ≤ p.dataMemSize ∧ p.dataBase ≤ p.dataMemSize ∧ p.stackTop ≤ p.dataMemSize ∧
      4 * p.textCapacity < 2 ^ 63 ∧ p.dataMemSize < 2 ^ 63
    (¬ good → State.powerOn p = .refused .badParameters) ∧
    (good → ∃ s, State.powerOn p = .next s ∧ s.Inv ∧ s.params = p ∧ s.status = .unloaded ∧ (∀ r, s.getReg r = 0) ∧ s.pc = 0 ∧ s.text = [] ∧
      (∀ a, readByte s.data.mem a = 0) ∧ s.data.cfg = none ∧ s.data.accesses = 0 ∧ s.data.hits = 0 ∧ s.data.misses = 0 ∧ s.breakpoints = [] ∧
      step s = .next s)

/-! Memory and the cache. -/

/-- R53: BackRead is the little-endian sum of the bytes; BackWrite changes those n bytes alone, each to its byte of v. -/
def Obligations.BackingPrimitives : Prop :=
  ∀ (m : Memory) (a n : Nat) (v : Word), Memory.wf m = true → n ≤ 8 →
    (backRead m a n).toNat = ((List.range n).map fun k => (readByte m (a + k)).toNat * 2 ^ (8 * k)).sum ∧
    (∀ x, readByte (backWrite m a n v) x = if a ≤ x ∧ x < a + n then v.extractLsb' (8 * (x - a)) 8 else readByte m x)

/-- R58, R59, R60: offset, set index, tag and block base as arithmetic, and the line's address put together again from tag and set. Tags and addresses
are natural numbers and the block base is a subtraction (log 9); that any tag and set below the number of sets split back is the model's inference
from R59 and R60. -/
def Obligations.AddressSplit : Prop :=
  ∀ (size : Nat) (c : CacheConfig) (a : Nat), configOk size c = true →
    blockOffset c a = a % c.blockSize ∧
    setIndex c a = a / c.blockSize % numSets c ∧
    tagOf c a = a / (c.blockSize * numSets c) ∧
    blockBase c a = a - a % c.blockSize ∧
    lineBase c (tagOf c a) (setIndex c a) = blockBase c a ∧
    (∀ tag set, set < numSets c → tagOf c (lineBase c tag set) = tag ∧ setIndex c (lineBase c tag set) = set ∧
      blockOffset c (lineBase c tag set) = 0)

/-- R61: the segments of an access are its bytes in ascending order, each as long as the block or the access allows, one when the access lies in one
block, and never more than the bound. -/
def Obligations.SegmentSplit : Prop :=
  ∀ (size : Nat) (c : CacheConfig) (a n : Nat), configOk size c = true →
    (segments c a n).flatMap (fun g => (List.range g.len).map (g.pos + ·)) = List.range n ∧
    (∀ g ∈ segments c a n, g.addr = a + g.pos ∧ 0 < g.len ∧ g.len = min (n - g.pos) (c.blockSize - g.addr % c.blockSize)) ∧
    (0 < n → a % c.blockSize + n ≤ c.blockSize → segments c a n = [⟨a, 0, n⟩]) ∧
    (segments c a n).length ≤ (n + c.blockSize - 1) / c.blockSize + 1

/-- R64 (D23, D24): the victim of a miss, for every policy. RANDOM takes the draw, whatever the lines are; that the way is the free draw modulo the
associativity is the model's choice (log 4), R64 and D23 give only a free way from 0 to associativity - 1. -/
def Obligations.VictimChoice : Prop :=
  ∀ (c : CacheConfig) (ways : List Line) (draw : Nat), ways.length = c.associativity → 0 < c.associativity →
    (c.replacement = .random → victimWay c ways draw = draw % c.associativity) ∧
    (c.replacement ≠ .random →
      (∀ w, (∃ l, ways[w]? = some l ∧ l.valid = false) → (∀ j, j < w → ∀ l, ways[j]? = some l → l.valid = true) →
        victimWay c ways draw = w) ∧
      ((∀ l ∈ ways, l.valid = true) → ∃ l, ways[victimWay c ways draw]? = some l ∧
        (c.replacement = .lru → (∀ m ∈ ways, l.lastAccess ≤ m.lastAccess) ∧
          ∀ j m, j < victimWay c ways draw → ways[j]? = some m → l.lastAccess < m.lastAccess) ∧
        (c.replacement = .fifo → (∀ m ∈ ways, l.loadTime ≤ m.loadTime) ∧
          ∀ j m, j < victimWay c ways draw → ways[j]? = some m → l.loadTime < m.loadTime) ∧
        (c.replacement = .lfu → (∀ m ∈ ways, l.freq < m.freq ∨ (l.freq = m.freq ∧ l.lastAccess ≤ m.lastAccess)) ∧
          ∀ j m, j < victimWay c ways draw → ways[j]? = some m → l.freq < m.freq ∨ (l.freq = m.freq ∧ l.lastAccess < m.lastAccess))))

/-- R62, R63, R66 (D25, D26): one lookup, on a hit and on a miss: the counters, the line it returns with its stamps, and no other line changed. -/
def Obligations.LookupRule : Prop :=
  ∀ (size : Nat) (c : CacheConfig) (d : DataSide) (sa : Nat), DataOk size d → d.cfg = some c → sa < size →
    let set := setIndex c sa
    let w := (lookup c d sa).1
    let e := (lookup c d sa).2
    let l := getLine c e set w
    let hit := ∃ l ∈ getSet d set, l.valid = true ∧ l.tag = tagOf c sa
    w < c.associativity ∧ e.accesses = d.accesses + 1 ∧ l.valid = true ∧ l.tag = tagOf c sa ∧
    (∀ set' w', set' < numSets c → w' < c.associativity → ¬ (set' = set ∧ w' = w) → getLine c e set' w' = getLine c d set' w') ∧
    (hit → e.hits = d.hits + 1 ∧ e.misses = d.misses ∧ e.mem = d.mem ∧
      l = { getLine c d set w with lastAccess := d.accesses + 1, freq := (getLine c d set w).freq + 1 }) ∧
    (¬ hit → e.hits = d.hits ∧ e.misses = d.misses + 1 ∧ w = victimWay c (getSet d set) (Config.randWay d.draws) ∧
      l.dirty = false ∧ l.lastAccess = d.accesses + 1 ∧ l.loadTime = d.accesses + 1 ∧ l.freq = 1 ∧ l.data.length = c.blockSize ∧
      ∀ k, k < c.blockSize → l.data.getD k 0 = readByte e.mem (blockBase c sa + k))

/-- R65, R75 (the spec derives it from R60, R62 and R65): on a miss a valid dirty victim's whole block goes to its own address, which is not the new
block's, and nothing else of MEM changes; any other victim changes nothing of MEM. -/
def Obligations.EvictionWritesBack : Prop :=
  ∀ (size : Nat) (c : CacheConfig) (d : DataSide) (sa : Nat), DataOk size d → d.cfg = some c → sa < size →
    (∀ l ∈ getSet d (setIndex c sa), l.valid = true → l.tag ≠ tagOf c sa) →
    let old := getLine c d (setIndex c sa) (victimWay c (getSet d (setIndex c sa)) (Config.randWay d.draws))
    let base := lineBase c old.tag (setIndex c sa)
    (old.valid = true → old.dirty = true →
      base ≠ blockBase c sa ∧ base + c.blockSize ≤ size ∧
      ∀ a, readByte (lookup c d sa).2.mem a =
        if base ≤ a ∧ a < base + c.blockSize then old.data.getD (a - base) 0 else readByte d.mem a) ∧
    (¬ (old.valid = true ∧ old.dirty = true) → (lookup c d sa).2.mem = d.mem)

/-- R62, R33 (D26): an access counts once per segment, as a hit or a miss, while the cache is on; with it off nothing is counted. -/
def Obligations.AccessCounts : Prop :=
  ∀ (size : Nat) (d : DataSide) (a n : Nat) (v : Word), DataOk size d → a + n ≤ size →
    (∀ c, d.cfg = some c →
      (∃ h m, h + m = (segments c a n).length ∧ (memRead d a n).2.accesses = d.accesses + BitVec.ofNat 64 (segments c a n).length ∧
        (memRead d a n).2.hits = d.hits + BitVec.ofNat 64 h ∧ (memRead d a n).2.misses = d.misses + BitVec.ofNat 64 m) ∧
      (∃ h m, h + m = (segments c a n).length ∧ (memWrite d a n v).accesses = d.accesses + BitVec.ofNat 64 (segments c a n).length ∧
        (memWrite d a n v).hits = d.hits + BitVec.ofNat 64 h ∧ (memWrite d a n v).misses = d.misses + BitVec.ofNat 64 m)) ∧
    (d.cfg = none → (memRead d a n).2 = d ∧ memWrite d a n v = { d with mem := backWrite d.mem a n v })

/-- R74 (the spec derives it from R73, R68 and R69): MEM differs from the view only in bytes of valid dirty lines; under WT or with the cache off
nowhere. -/
def Obligations.BackingMemoryView : Prop :=
  ∀ (size : Nat) (d : DataSide), DataOk size d →
    (d.cfg = none → ∀ a, readByte d.mem a = view d a) ∧
    (∀ c, d.cfg = some c →
      (c.write = .writeThrough → ∀ a, readByte d.mem a = view d a) ∧
      (∀ a, readByte d.mem a ≠ view d a → ∃ l ∈ getSet d (setIndex c a), l.valid = true ∧ l.dirty = true ∧ l.tag = tagOf c a))

/-- R73, R189 (the spec derives it from R62 to R71): the cache is transparent. A step of the block and the step of the same block with the cache
switched off (every dirty line written back) agree in registers, pc, status, program and coherent memory, for every configuration, policy
and draw. -/
def Obligations.CacheIsTransparent : Prop :=
  ∀ s t : State, s.Inv → step s = .next t → step s.uncached = .next t.uncached

/-- R73, R181, R187: the same for a whole run with any breakpoint stops; so two blocks that differ only in their caches end alike. -/
def Obligations.RunsAreTransparent : Prop :=
  ∀ (choices : List Bool) (s s' t t' : State), s.Inv → s'.Inv → s.uncached = s'.uncached →
    runChoices choices s = .next t → runChoices choices s' = .next t' → t.uncached = t'.uncached

/-! The host's operations. -/

/-- R58, R185 (D27, D28): a request is accepted exactly when the six conditions hold. Refused, nothing changes; accepted, the configuration is
stored, every line is invalid with its fields 0, the counters are 0, MEM is what disabling left, and no register, pc or status changes. -/
def Obligations.EnableCacheRule : Prop :=
  ∀ (r : CacheRequest) (s : State),
    (¬ r.Accepted s.params.dataMemSize → command (.enableCache r) s = .next (.cacheConfigError, s)) ∧
    (r.Accepted s.params.dataMemSize → ∃ t c, command (.enableCache r) s = .next (.done, t) ∧ t.data.cfg = some c ∧
      (c.cacheSize : Int) = r.cacheSize ∧ (c.blockSize : Int) = r.blockSize ∧ (c.associativity : Int) = r.associativity ∧
      replacementToken r.replacement = some c.replacement ∧ writeToken r.write = some c.write ∧
      t.data.lines.length = numSets c ∧
      (∀ ways ∈ t.data.lines, ways.length = c.associativity ∧ ∀ l ∈ ways, l.valid = false ∧ l.dirty = false ∧ l.tag = 0 ∧
        l.data = List.replicate c.blockSize 0 ∧ l.lastAccess = 0 ∧ l.loadTime = 0 ∧ l.freq = 0) ∧
      t.data.accesses = 0 ∧ t.data.hits = 0 ∧ t.data.misses = 0 ∧
      t.data.mem = (disableCache s.params.disableFlush s.data).mem ∧ t.x = s.x ∧ t.pc = s.pc ∧ SameControl s t)

/-- R76, R185 (D29): disabling leaves no configuration and the counters as they are; MEM becomes the view with `flush` and stays with `discard`. -/
def Obligations.DisableCacheRule : Prop :=
  ∀ s : State, s.Inv → ∃ t, command .disableCache s = .next (.done, t) ∧ t.data.cfg = none ∧
    t.data.accesses = s.data.accesses ∧ t.data.hits = s.data.hits ∧ t.data.misses = s.data.misses ∧
    (s.params.disableFlush = .flush → (∀ a, readByte t.data.mem a = s.view a) ∧ SameView s t) ∧
    (s.params.disableFlush = .discard → t.data.mem = s.data.mem) ∧ t.x = s.x ∧ t.pc = s.pc ∧ SameControl s t

/-- R191, R180, R39, R77, R195 (D7, D8, D31): what a successful load installs and resets, and what it keeps; and a source whose assembly fits is so
loaded and answers its number of instructions (the assembler is log 12's). -/
def Obligations.LoadResets : Prop :=
  ∀ (words : List InsnWord) (image : List Byte) (s : State),
    words.length ≤ s.params.textCapacity → s.params.dataBase + image.length ≤ s.params.dataMemSize →
    ∃ t, loadWords words image s = (none, t) ∧
      (∀ src : String, assemble src.toList = .ok (words, image) → command (.load src) s = .next (.loaded words.length, t)) ∧ t.text = words ∧ t.instrCount = words.length ∧ t.pc = 0 ∧ t.status = .ready ∧
      (∀ r : RegIdx, t.getReg r = if r = 2 then BitVec.ofNat 64 s.params.stackTop else 0) ∧
      (∀ a, readByte t.data.mem a =
        if s.params.dataBase ≤ a ∧ a < s.params.dataBase + image.length then image.getD (a - s.params.dataBase) 0 else 0) ∧
      (∀ a, t.view a = readByte t.data.mem a) ∧
      (∀ ways ∈ t.data.lines, ∀ l ∈ ways, l.valid = false ∧ l.dirty = false) ∧
      t.data.accesses = 0 ∧ t.data.hits = 0 ∧ t.data.misses = 0 ∧
      t.data.cfg = s.data.cfg ∧ t.breakpoints = s.breakpoints ∧ t.params = s.params

/-- R180, R191, R192 (D40; the assembler is log 12's; that a Faulted or Ended block becomes Unloaded too is log 15's choice between R192 and R29):
every failing load, by its error, leaves the unloaded block: nothing of a program, every register, the pc and every byte 0,
lines invalid, counters 0; the cache's configuration and the breakpoints stay; step and run then do nothing. -/
def Obligations.FailedLoadUnloads : Prop :=
  (∀ (words : List InsnWord) (image : List Byte) (s : State),
    (s.params.textCapacity < words.length → loadWords words image s = (some .capacityError, loadFailed s)) ∧
    (words.length ≤ s.params.textCapacity → s.params.dataMemSize < s.params.dataBase + image.length →
      loadWords words image s = (some .memoryBoundsError, loadFailed s))) ∧
  (∀ (src : String) (words : List InsnWord) (image : List Byte) (s : State), assemble src.toList = .ok (words, image) →
    (s.params.textCapacity < words.length → command (.load src) s = .next (.loadFailed .capacityError, loadFailed s)) ∧
    (words.length ≤ s.params.textCapacity → s.params.dataMemSize < s.params.dataBase + image.length →
      command (.load src) s = .next (.loadFailed .memoryBoundsError, loadFailed s))) ∧
  (∀ (src : String) (s : State) (e : AssembleError) (n : Nat), assemble src.toList = .error (e, n) →
    command (.load src) s = .next (.loadFailed (.assemble e n), loadFailed s)) ∧
  (∀ s : State, let t := loadFailed s
    t.status = .unloaded ∧ t.instrCount = 0 ∧ t.pc = 0 ∧ (∀ r, t.getReg r = 0) ∧ (∀ a, readByte t.data.mem a = 0) ∧
    (∀ ways ∈ t.data.lines, ∀ l ∈ ways, l.valid = false ∧ l.dirty = false) ∧
    t.data.accesses = 0 ∧ t.data.hits = 0 ∧ t.data.misses = 0 ∧ t.data.cfg = s.data.cfg ∧ t.breakpoints = s.breakpoints ∧ t.params = s.params ∧
    step t = .next t ∧ ∀ choices, runChoices choices t = .next t)

/-- R183: read_registers gives the 32 registers as signed integers, x0 as 0, and changes nothing. -/
def Obligations.ReadRegistersRule : Prop :=
  ∀ s : State, ∃ vs, command .readRegisters s = .next (.registers vs, s) ∧ vs.length = 32 ∧
    (∀ r : RegIdx, vs[r.toNat]? = some (s.getReg r).toInt) ∧ vs[0]? = some 0

/-- R184 (D30): read_memory gives backing bytes, or MemoryBoundsError past the end, and changes nothing. -/
def Obligations.ReadMemoryRule : Prop :=
  ∀ (s : State) (address count : Nat),
    (s.params.dataMemSize < address + count → command (.readMemory address count) s = .next (.memoryBoundsError, s)) ∧
    (address + count ≤ s.params.dataMemSize → ∃ bs, command (.readMemory address count) s = .next (.bytes bs, s) ∧ bs.length = count ∧
      ∀ k, k < count → bs[k]? = some (readByte s.data.mem (address + k)))

/-- R186: cache_stats gives the counters and changes nothing; and while no enable_cache is given to a block whose cache is off and whose counters are
0, as after power-on, they stay 0. -/
def Obligations.CacheStatsRule : Prop :=
  (∀ s : State, command .cacheStats s = .next (.stats s.data.accesses s.data.hits s.data.misses, s)) ∧
  (∀ (c : Command) (s t : State) (r : Reply), (∀ q, c ≠ .enableCache q) → s.data.cfg = none →
    s.data.accesses = 0 → s.data.hits = 0 → s.data.misses = 0 → command c s = .next (r, t) →
    t.data.cfg = none ∧ t.data.accesses = 0 ∧ t.data.hits = 0 ∧ t.data.misses = 0) ∧
  (∀ p s, State.powerOn p = .next s → s.data.cfg = none ∧ s.data.accesses = 0 ∧ s.data.hits = 0 ∧ s.data.misses = 0)

/-- R181, R187 (D35; log 10): a run is steps while Ready; a stop at a breakpoint is only a shorter run, and resuming goes on as if it had not stopped. -/
def Obligations.RunsAreSteps : Prop :=
  (∀ (choices : List Bool) (s t : State), runChoices choices s = .next t →
    ∃ n, n ≤ choices.length ∧ runChoices (List.replicate n false) s = .next t) ∧
  (∀ (m n : Nat) (s t : State), runChoices (List.replicate m false) s = .next t →
    runChoices (List.replicate (m + n) false) s = runChoices (List.replicate n false) t) ∧
  (∀ s : State, s.status = .ready → runChoices [false] s = step s) ∧
  (∀ (s : State) (choices : List Bool), s.breakpoints ≠ [] → runChoices (true :: choices) s = .next s) ∧
  (∀ (s : State) (choices : List Bool), s.status ≠ .ready → runChoices choices s = .next s)

/-- R179 to R187, R199: every operation the host can give, in every state, answers a reply and a next state: none is refused and none faults, whatever
the source of a load (what the spec leaves to the assembler is free, log 12) and whatever cuts a run (log 10). -/
def Obligations.OperationsComplete : Prop :=
  ∀ (c : Command) (s : State), ∃ (r : Reply) (t : State), command c s = .next (r, t)

/-- R101, R102, R107 (log 12): an assembly that succeeds gives one word for each line with a mnemonic, whatever section the line stands in; and a line
that breaks a rule of its own (a label text R101 forbids, a mnemonic R102 does not list, a label defined on an earlier line, D42) aborts the whole,
whatever stands on the other lines, those left to the assembler among them. -/
def Obligations.EveryLineCounts : Prop :=
  (∀ (source : Text) (words : List InsnWord) (image : List Byte), assemble source = .ok (words, image) →
    words.length = ((sourceLines source).filter fun l => match readLine l with
      | .ok (.instr _ (_ :: _)) => true
      | _ => false).length) ∧
  (∀ (source line : Text) (e : AssembleError), line ∈ sourceLines source → readLine line = .error e →
    ∃ e' n, assemble source = .error (e', n)) ∧
  (∀ (source line m : Text) (label : Option Text) (ops : List Text), line ∈ sourceLines source → readLine line = .ok (.instr label (m :: ops)) →
    (∀ e ∈ mnemonics, e.1.toList ≠ m) → ∃ e' n, assemble source = .error (e', n)) ∧
  (∀ (source label : Text) (ts ts' : List Text) (j k : Nat) (line line' : Text), label ≠ [] → j < k →
    (sourceLines source)[j]? = some line → (sourceLines source)[k]? = some line' →
    readLine line = .ok (.instr (some label) ts) → readLine line' = .ok (.instr (some label) ts') →
    ∃ e' n, assemble source = .error (e', n))

end
end

