-- ==== Sys2Proof/Laws/Assembler.lean ====
section
/-! SUPPORT. What the assembler and the load in front of the block can answer (R101, R102, R180). -/

namespace Sys2Proof.Machine

/-- A source is accepted exactly when both passes accept it (R101, R102). -/
theorem assemble_ok {source : Text} {words : List InsnWord} {image : List Byte} :
    assemble source = .ok (words, image) ↔
    ∃ p, pass1 source 1 (sourceLines source) ⟨.start, 0, [], [], []⟩ = .ok p ∧ pass2 source p.labels 0 p.instrs = .ok words ∧ p.image = image := by
  unfold assemble
  cases h1 : pass1 source 1 (sourceLines source) ⟨.start, 0, [], [], []⟩ with
  | error e => simp
  | ok p =>
    cases h2 : pass2 source p.labels 0 p.instrs with
    | error e => simp [h2, Except.map]
    | ok ws => simp [h2, Except.map]

/-- What an accepted line adds to the program's lines: an instruction line its tokens, any other line nothing (R99, R101). -/
theorem pass1Line_instrs {source : Text} {n : Nat} {line : Text} {p q : Pass1} (h : pass1Line source n line p = .ok q) :
    (∃ label ts, readLine line = .ok (.instr label ts) ∧ q.instrs = p.instrs ++ [(n, ts)]) ∨
    ((∀ label ts, readLine line ≠ .ok (.instr label ts)) ∧ (∃ l, readLine line = .ok l) ∧ q.instrs = p.instrs) := by
  unfold pass1Line at h
  split at h
  · cases h
  · next hr => cases h; exact .inr ⟨by simp [hr], ⟨_, hr⟩, rfl⟩
  · next name args hr =>
    refine .inr ⟨by simp [hr], ⟨_, hr⟩, ?_⟩
    have opened : pass1Open source n p = .ok q → q.instrs = p.instrs := by
      unfold pass1Open
      cases Config.openDirective source n with
      | error e => nofun
      | ok r => rintro ⟨⟩; rfl
    unfold pass1Directive at h
    split at h
    · split at h
      · exact opened h
      · cases h; rfl
    · split at h
      · cases h; rfl
      · split at h
        · exact opened h
        · next w _ =>
          split at h
          · cases hb : dataBytes source n w args with
            | error e => rw [hb] at h; cases h
            | ok bs => rw [hb] at h; cases h; rfl
          · exact opened h
  · next label ts hr =>
    unfold pass1Instr at h
    cases hl : recordLabel source n label p with
    | error e => rw [hl] at h; cases h
    | ok ls =>
      cases ha : advance source n ts with
      | error e => rw [hl, ha] at h; cases h
      | ok k => rw [hl, ha] at h; cases h; exact .inl ⟨label, ts, hr, rfl⟩

/-- An accepted instruction line: its mnemonic is in the table, and the table's form accepted its operands (R102). -/
theorem asmLine_ok {h : Here} {m : Text} {ops : List Text} {i : Instr} (hi : asmLine h m ops = .ok i) :
    ∃ e ∈ mnemonics, e.1.toList = m ∧ e.2 h ops = .ok i := by
  unfold asmLine at hi
  split at hi
  · next e he => exact ⟨e, List.mem_of_find?_eq_some he, by simpa using List.find?_some he, hi⟩
  · cases hi

/-- The tokens of an instruction line (R101), those of one without a mnemonic among them. -/
def lineTokens (line : Text) : Option (List Text) :=
  match readLine line with
  | .ok (.instr _ ts) => some ts
  | _ => none

/-- Pass 1 over accepted lines: each line was read without error, and the program's lines are the instruction lines in order (R101, R107). -/
theorem pass1_ok {source : Text} {n : Nat} {lines : List Text} {p q : Pass1} (h : pass1 source n lines p = .ok q) :
    (∀ l ∈ lines, ∃ r, readLine l = .ok r) ∧ q.instrs.map Prod.snd = p.instrs.map Prod.snd ++ lines.filterMap lineTokens := by
  induction lines generalizing n p with
  | nil => cases h; simp
  | cons l ls ih =>
    unfold pass1 at h
    split at h
    · cases h
    · next r hr =>
      obtain ⟨h1, h2⟩ := ih h
      rcases pass1Line_instrs hr with ⟨lab, ts, hl, hi⟩ | ⟨hn, hok, hi⟩
      · refine ⟨by simpa [hl] using h1, ?_⟩
        simp [h2, hi, lineTokens, hl]
      · refine ⟨by simpa using ⟨hok, h1⟩, ?_⟩
        have : lineTokens l = none := by
          unfold lineTokens
          split
          · next hl => exact absurd hl (hn _ _)
          · rfl
        simp [h2, hi, this]

/-- Pass 2 over accepted lines: one word for each line with a mnemonic, and every mnemonic is in the table (R102). -/
theorem pass2_ok {source : Text} {labels : Labels} {here : Nat} {items : List (Nat × List Text)} {ws : List InsnWord}
    (h : pass2 source labels here items = .ok ws) :
    ws.length = ((items.map Prod.snd).filter fun ts => !ts.isEmpty).length ∧
    (∀ m ops, m :: ops ∈ items.map Prod.snd → ∃ e ∈ mnemonics, e.1.toList = m) ∧
    ∀ w ∈ ws, ∃ e ∈ mnemonics, ∃ a ops i, e.2 a ops = .ok i ∧ w = encode i := by
  induction items generalizing here ws with
  | nil => cases h; simp
  | cons x more ih =>
    obtain ⟨n, ts⟩ := x
    cases ts with
    | nil =>
      unfold pass2 at h
      split at h
      · cases h
      · simpa using ih h
    | cons m ops =>
      unfold pass2 at h
      split at h
      · cases h
      · next i hi =>
        cases hp : pass2 source labels (here + 4) more with
        | error e => rw [hp] at h; cases h
        | ok vs =>
          rw [hp] at h
          cases h
          obtain ⟨h1, h2, h3⟩ := ih hp
          obtain ⟨e, he, hm, hx⟩ := asmLine_ok hi
          refine ⟨by simp [h1], fun m' ops' hmem => ?_, fun w hw => ?_⟩
          · rcases List.mem_cons.mp hmem with h | h
            · cases h; exact ⟨e, he, hm⟩
            · exact h2 _ _ h
          · rcases List.mem_cons.mp hw with rfl | h
            · exact ⟨e, he, _, _, i, hx, rfl⟩
            · exact h3 w h

/-- The three ways a load ends (R180, R191, R192): the assembler's error, a failed check, or the program installed. -/
theorem loadSource_cases (source : String) (s : State) :
    (∃ e n, assemble source.toList = .error (e, n) ∧ loadSource source s = .next (.loadFailed (.assemble e n), loadFailed s)) ∨
    (∃ words image e, assemble source.toList = .ok (words, image) ∧ loadCheck s.params words image = some e ∧
      loadSource source s = .next (.loadFailed e, loadFailed s)) ∨
    (∃ words image, assemble source.toList = .ok (words, image) ∧ loadCheck s.params words image = none ∧
      loadSource source s = .next (.loaded words.length, loadDone words image s)) := by
  unfold loadSource loadWords
  cases ha : assemble source.toList with
  | error e => exact .inl ⟨e.1, e.2, rfl, rfl⟩
  | ok r =>
    cases hc : loadCheck s.params r.1 r.2 with
    | some e => exact .inr (.inl ⟨r.1, r.2, e, rfl, hc, by simp [hc]⟩)
    | none => exact .inr (.inr ⟨r.1, r.2, rfl, hc, by simp [hc, loadDone, State.instrCount]⟩)

end Sys2Proof.Machine
end

