-- ==== Sys2Proof/Laws/Geometry.lean ====
section
/-! SUPPORT. The address split of a sound configuration (R59, R60) as arithmetic: an address is its line's base plus its offset. -/

namespace Sys2Proof.Machine

theorem isPow2_eq {n : Nat} (h : isPow2 n = true) : n = 2 ^ n.log2 := by simpa [isPow2] using h

section
variable {size : Nat} {c : CacheConfig} (h : configOk size c = true)
include h

/-- The conditions of R58, taken apart. -/
theorem configOk_parts : 0 < c.blockSize ∧ 0 < c.associativity ∧ c.blockSize = 2 ^ offsetBits c ∧ numSets c = 2 ^ indexBits c ∧
    size % c.blockSize = 0 := by
  simp only [configOk, Bool.and_eq_true, decide_eq_true_eq, beq_iff_eq] at h
  exact ⟨h.1.1.1.1.1.1.2, h.1.1.1.1.1.2, isPow2_eq h.1.1.1.2, isPow2_eq h.1.2, h.2⟩

theorem blockSize_pos : 0 < c.blockSize := (configOk_parts h).1
theorem associativity_pos : 0 < c.associativity := (configOk_parts h).2.1
theorem numSets_pos : 0 < numSets c := by rw [(configOk_parts h).2.2.2.1]; exact Nat.two_pow_pos _

theorem blockOffset_eq (a : Nat) : blockOffset c a = a % c.blockSize := by
  have hb := (configOk_parts h).2.2.1
  rw [blockOffset, hb, Nat.and_two_pow_sub_one_eq_mod]

theorem blockOffset_lt (a : Nat) : blockOffset c a < c.blockSize := by
  rw [blockOffset_eq h]; exact Nat.mod_lt _ (blockSize_pos h)

theorem setIndex_eq (a : Nat) : setIndex c a = a / c.blockSize % numSets c := by
  obtain ⟨-, -, hb, hs, -⟩ := configOk_parts h
  rw [setIndex, Nat.shiftRight_eq_div_pow, ← hb, hs, Nat.and_two_pow_sub_one_eq_mod]

theorem setIndex_lt (a : Nat) : setIndex c a < numSets c := by
  rw [setIndex_eq h]; exact Nat.mod_lt _ (numSets_pos h)

theorem tagOf_eq (a : Nat) : tagOf c a = a / c.blockSize / numSets c := by
  obtain ⟨-, -, hb, hs, -⟩ := configOk_parts h
  rw [tagOf, Nat.shiftRight_eq_div_pow, Nat.pow_add, ← hb, ← hs, Nat.mul_comm, Nat.div_div_eq_div_mul]

theorem lineBase_eq {set : Nat} (hset : set < numSets c) (tag : Nat) : lineBase c tag set = (tag * numSets c + set) * c.blockSize := by
  obtain ⟨-, -, hb, hs, -⟩ := configOk_parts h
  have hlt : set <<< offsetBits c < 2 ^ (indexBits c + offsetBits c) := by
    rw [Nat.shiftLeft_eq, Nat.pow_add]
    exact Nat.mul_lt_mul_of_pos_right (hs ▸ hset) (Nat.two_pow_pos _)
  rw [lineBase, Nat.shiftLeft_eq, Nat.mul_comm tag, ← Nat.two_pow_add_eq_or_of_lt hlt, Nat.shiftLeft_eq, Nat.pow_add, ← hb, ← hs]
  ring

/-- An address is the base of its line plus its offset (R60). -/
theorem lineBase_add_offset (a : Nat) : lineBase c (tagOf c a) (setIndex c a) + blockOffset c a = a := by
  rw [lineBase_eq h (setIndex_lt h a), tagOf_eq h, setIndex_eq h, blockOffset_eq h, Nat.mul_comm (_ / _ / _), Nat.div_add_mod,
    Nat.mul_comm, Nat.div_add_mod]

theorem blockBase_eq (a : Nat) : blockBase c a = lineBase c (tagOf c a) (setIndex c a) := by
  have := lineBase_add_offset h a
  unfold blockBase
  omega

section
variable {set k : Nat} (hset : set < numSets c) (hk : k < c.blockSize) (tag : Nat)
include hset hk

theorem block_div : (lineBase c tag set + k) / c.blockSize = tag * numSets c + set := by
  rw [lineBase_eq h hset, Nat.add_comm, Nat.add_mul_div_right _ _ (blockSize_pos h), Nat.div_eq_of_lt hk, Nat.zero_add]

/-- The split of an address inside a line. -/
theorem blockOffset_line : blockOffset c (lineBase c tag set + k) = k := by
  rw [blockOffset_eq h, lineBase_eq h hset, Nat.mul_comm, Nat.mul_add_mod, Nat.mod_eq_of_lt hk]

theorem setIndex_line : setIndex c (lineBase c tag set + k) = set := by
  rw [setIndex_eq h, block_div h hset hk, Nat.mul_comm, Nat.mul_add_mod, Nat.mod_eq_of_lt hset]

theorem tagOf_line : tagOf c (lineBase c tag set + k) = tag := by
  rw [tagOf_eq h, block_div h hset hk, Nat.add_comm, Nat.add_mul_div_right _ _ (numSets_pos h), Nat.div_eq_of_lt hset, Nat.zero_add]

end

/-- An address lies in a line's block exactly when it has the line's tag and set. -/
theorem mem_block_iff {set : Nat} (hset : set < numSets c) (tag a : Nat) :
    (lineBase c tag set ≤ a ∧ a < lineBase c tag set + c.blockSize) ↔ tagOf c a = tag ∧ setIndex c a = set := by
  constructor
  · rintro ⟨h1, h2⟩
    obtain ⟨k, rfl⟩ := Nat.exists_eq_add_of_le h1
    have hk : k < c.blockSize := by omega
    exact ⟨tagOf_line h hset hk tag, setIndex_line h hset hk tag⟩
  · rintro ⟨rfl, rfl⟩
    have := lineBase_add_offset h a
    have := blockOffset_lt h a
    omega

/-- The block of an in-bounds address is in bounds (R66). -/
theorem lineBase_in {a : Nat} (ha : a < size) : lineBase c (tagOf c a) (setIndex c a) + c.blockSize ≤ size := by
  have hd := (configOk_parts h).2.2.2.2
  have he := lineBase_add_offset h a
  obtain ⟨q, hq⟩ := Nat.dvd_of_mod_eq_zero hd
  rw [lineBase_eq h (setIndex_lt h a)] at he ⊢
  set m := tagOf c a * numSets c + setIndex c a
  have h1 : m * c.blockSize < q * c.blockSize := by rw [Nat.mul_comm q, ← hq]; omega
  have h2 : m < q := Nat.lt_of_mul_lt_mul_right h1
  have h3 : (m + 1) * c.blockSize ≤ q * c.blockSize := Nat.mul_le_mul_right _ h2
  rw [hq, Nat.mul_comm c.blockSize]
  rw [Nat.add_mul, Nat.one_mul] at h3
  exact h3

/-- Addresses with one tag and set differ only in the offset. -/
theorem same_line_of_offset {a k : Nat} (hk : blockOffset c a + k < c.blockSize) :
    tagOf c (a + k) = tagOf c a ∧ setIndex c (a + k) = setIndex c a ∧ blockOffset c (a + k) = blockOffset c a + k := by
  have he := lineBase_add_offset h a
  have hs := setIndex_lt h a
  have : a + k = lineBase c (tagOf c a) (setIndex c a) + (blockOffset c a + k) := by omega
  rw [this]
  exact ⟨tagOf_line h hs hk _, setIndex_line h hs hk _, blockOffset_line h hs hk _⟩

end

end Sys2Proof.Machine
end

