-- ==== Sys2Proof/Laws/Memory.lean ====
section
/-! SUPPORT. Memory: a read after a write, the canonical form and the bounds kept by every operation, runs of bytes, little-endian values. -/

namespace Sys2Proof.Machine

/-! One byte. -/

/-- Every address listed after the head of a canonical memory lies above it. -/
theorem Memory.wf_cons_lt {c : Host.Cell} {m : Memory} (h : Memory.wf (c :: m) = true) : ∀ e ∈ m, c.1 < e.1 := by
  induction m generalizing c with
  | nil => simp
  | cons e m ih =>
    simp only [Memory.wf, Bool.and_eq_true, decide_eq_true_eq] at h
    intro f hf
    rcases List.mem_cons.mp hf with rfl | hf
    · exact h.1.2
    · exact lt_trans h.1.2 (ih h.2 f hf)

theorem Memory.wf_tail {c : Host.Cell} {m : Memory} (h : Memory.wf (c :: m) = true) : Memory.wf m = true := by
  cases m with
  | nil => rfl
  | cons e m => simp only [Memory.wf, Bool.and_eq_true] at h; exact h.2

theorem Memory.wf_head {c : Host.Cell} {m : Memory} (h : Memory.wf (c :: m) = true) : c.2 ≠ 0#8 := by
  cases m <;> simp_all [Memory.wf]

theorem Memory.wf_cons_iff {c : Host.Cell} {m : Memory} :
    Memory.wf (c :: m) = true ↔ c.2 ≠ 0#8 ∧ (∀ e ∈ m, c.1 < e.1) ∧ Memory.wf m = true := by
  refine ⟨fun h => ⟨Memory.wf_head h, Memory.wf_cons_lt h, Memory.wf_tail h⟩, fun ⟨h0, hlt, hm⟩ => ?_⟩
  cases m with
  | nil => simp [Memory.wf, h0]
  | cons e m => simp [Memory.wf, h0, hlt e (by simp), hm]

/-- Below every listed address, memory reads 0. -/
theorem readByte_below {m : Memory} {a : Nat} (h : ∀ e ∈ m, a < e.1) : readByte m a = 0#8 := by
  induction m with
  | nil => rfl
  | cons c m ih =>
    have : c.1 ≠ a := by have := h c (by simp); omega
    simp [readByte, this, ih fun e he => h e (by simp [he])]

/-- A read after a write of one byte, in a canonical memory. -/
theorem readByte_writeByte {m : Memory} (hm : Memory.wf m = true) (a a' : Nat) (b : Byte) :
    readByte (writeByte m a b) a' = if a' = a then b else readByte m a' := by
  induction m with
  | nil => by_cases hb : b = 0#8 <;> by_cases h : a' = a <;> simp [writeByte, readByte, hb, h] <;> omega
  | cons c m ih =>
    obtain ⟨hc, hlt, hw⟩ := Memory.wf_cons_iff.mp hm
    by_cases h1 : a < c.1
    · have hz : readByte (c :: m) a = 0#8 := readByte_below (by
        intro e he
        rcases List.mem_cons.mp he with rfl | he
        · exact h1
        · exact lt_trans h1 (hlt e he))
      by_cases hb : b = 0#8 <;> by_cases h : a' = a
      · subst h; simp [writeByte, h1, hb, hz]
      · simp [writeByte, h1, hb, h]
      · subst h; simp [writeByte, readByte, h1, hb]
      · have h' : a ≠ a' := fun e => h e.symm
        simp [writeByte, readByte, h1, hb, h, h']
    · by_cases h2 : a = c.1
      · subst h2
        by_cases hb : b = 0#8 <;> by_cases h : a' = c.1
        · subst h; simp [writeByte, hb, readByte_below hlt]
        · have h' : c.1 ≠ a' := fun e => h e.symm
          simp [writeByte, readByte, hb, h, h']
        · simp [writeByte, readByte, hb, h]
        · have h' : c.1 ≠ a' := fun e => h e.symm
          simp [writeByte, readByte, hb, h, h']
      · by_cases h : c.1 = a'
        · have h' : a' ≠ a := fun e => h2 (by omega)
          rw [writeByte, if_neg h1, if_neg h2]
          simp [readByte, h, h']
        · simp [writeByte, readByte, h1, h2, h, ih hw]

/-- What a written memory lists. -/
theorem mem_writeByte {m : Memory} {a : Nat} {b : Byte} {e : Host.Cell} (h : e ∈ writeByte m a b) : e ∈ m ∨ (e = (a, b) ∧ b ≠ 0#8) := by
  induction m with
  | nil => by_cases hb : b = 0#8 <;> simp_all [writeByte]
  | cons c m ih =>
    unfold writeByte at h
    split_ifs at h with h1 h2 h3 h4 <;> simp only [List.mem_cons] at h ⊢ <;> tauto

/-- A write of one byte keeps the canonical form. -/
theorem writeByte_wf {m : Memory} (hm : Memory.wf m = true) (a : Nat) (b : Byte) : Memory.wf (writeByte m a b) = true := by
  induction m with
  | nil => by_cases hb : b = 0#8 <;> simp [writeByte, hb, Memory.wf]
  | cons c m ih =>
    obtain ⟨hc, hlt, hw⟩ := Memory.wf_cons_iff.mp hm
    unfold writeByte
    split_ifs with h1 h2 h3 h4
    · exact hm
    · refine Memory.wf_cons_iff.mpr ⟨h2, fun e he => ?_, hm⟩
      rcases List.mem_cons.mp he with rfl | he
      · exact h1
      · exact lt_trans h1 (hlt e he)
    · exact hw
    · exact Memory.wf_cons_iff.mpr ⟨h4, fun e he => by have := hlt e he; simp_all, hw⟩
    · refine Memory.wf_cons_iff.mpr ⟨hc, fun e he => ?_, ih hw⟩
      rcases mem_writeByte he with he | ⟨rfl, -⟩
      · exact hlt e he
      · show c.1 < a
        omega

/-- A write below `size` keeps a memory below `size`. -/
theorem writeByte_below {m : Memory} {size a : Nat} {b : Byte} (hm : ∀ e ∈ m, e.1 < size) (ha : a < size) :
    ∀ e ∈ writeByte m a b, e.1 < size := by
  intro e he
  rcases mem_writeByte he with he | ⟨rfl, -⟩
  · exact hm e he
  · exact ha

/-- Two canonical memories that read alike are the same data. -/
theorem Memory.ext_read {m n : Memory} (hm : Memory.wf m = true) (hn : Memory.wf n = true)
    (h : ∀ a, readByte m a = readByte n a) : m = n := by
  induction m generalizing n with
  | nil =>
    cases n with
    | nil => rfl
    | cons c n =>
      have := h c.1
      simp [readByte] at this
      exact absurd this.symm (Memory.wf_head hn)
  | cons c m ih =>
    obtain ⟨hc, hlt, hw⟩ := Memory.wf_cons_iff.mp hm
    cases n with
    | nil =>
      have := h c.1
      simp [readByte] at this
      exact absurd this hc
    | cons e n =>
      obtain ⟨he, hlt', hw'⟩ := Memory.wf_cons_iff.mp hn
      have h1 : c.1 = e.1 := by
        rcases Nat.lt_trichotomy c.1 e.1 with hl | hl | hl
        · have := h c.1
          have hz : readByte (e :: n) c.1 = 0#8 := readByte_below (by
            intro f hf
            rcases List.mem_cons.mp hf with rfl | hf
            · exact hl
            · exact lt_trans hl (hlt' f hf))
          rw [hz] at this
          simp [readByte] at this
          exact absurd this hc
        · exact hl
        · have := h e.1
          have hz : readByte (c :: m) e.1 = 0#8 := readByte_below (by
            intro f hf
            rcases List.mem_cons.mp hf with rfl | hf
            · exact hl
            · exact lt_trans hl (hlt f hf))
          rw [hz] at this
          simp [readByte] at this
          exact absurd this.symm he
      have h2 : c.2 = e.2 := by have := h c.1; simpa [readByte, h1] using this
      have h3 : m = n := by
        refine ih hw hw' fun a => ?_
        have := h a
        by_cases ha : c.1 = a
        · subst ha
          rw [readByte_below hlt, readByte_below (h1 ▸ hlt')]
        · have ha' : e.1 ≠ a := h1 ▸ ha
          simpa [readByte, ha, ha'] using this
      rw [h3, Prod.ext h1 h2]

/-! Runs of bytes. -/

@[simp] theorem readBytes_length (m : Memory) (a n : Nat) : (readBytes m a n).length = n := by
  induction n generalizing a with
  | zero => rfl
  | succ n ih => simp [readBytes, ih]

theorem readBytes_eq_map (m : Memory) (a n : Nat) : readBytes m a n = (List.range n).map fun k => readByte m (a + k) := by
  induction n generalizing a with
  | zero => rfl
  | succ n ih =>
    simp only [readBytes, ih, List.range_succ_eq_map, List.map_cons, List.map_map, Nat.add_zero]
    congr 1
    refine List.map_congr_left fun k _ => ?_
    simp [Nat.add_comm, Nat.add_left_comm]

theorem readBytes_getD (m : Memory) (a n k : Nat) (h : k < n) : (readBytes m a n).getD k 0#8 = readByte m (a + k) := by
  simp [readBytes_eq_map, h]

theorem writeBytes_wf {m : Memory} (hm : Memory.wf m = true) (a : Nat) (bs : List Byte) : Memory.wf (writeBytes m a bs) = true := by
  induction bs generalizing m a with
  | nil => exact hm
  | cons b bs ih => exact ih (writeByte_wf hm a b) (a + 1)

theorem writeBytes_below {m : Memory} {size a : Nat} {bs : List Byte} (hm : ∀ e ∈ m, e.1 < size) (ha : a + bs.length ≤ size) :
    ∀ e ∈ writeBytes m a bs, e.1 < size := by
  induction bs generalizing m a with
  | nil => exact hm
  | cons b bs ih =>
    simp only [List.length_cons] at ha
    exact ih (writeByte_below hm (by omega)) (by omega)

/-- A read after a write of a run of bytes. -/
theorem readByte_writeBytes {m : Memory} (hm : Memory.wf m = true) (a : Nat) (bs : List Byte) (a' : Nat) :
    readByte (writeBytes m a bs) a' = if a ≤ a' ∧ a' < a + bs.length then bs.getD (a' - a) 0#8 else readByte m a' := by
  induction bs generalizing m a with
  | nil =>
    have : ¬ (a ≤ a' ∧ a' < a + ([] : List Byte).length) := by simp only [List.length_nil]; omega
    rw [if_neg this]; rfl
  | cons b bs ih =>
    rw [writeBytes, ih (writeByte_wf hm a b), readByte_writeByte hm]
    simp only [List.length_cons]
    by_cases h1 : a' = a
    · subst h1
      have h2 : ¬ (a' + 1 ≤ a' ∧ a' < a' + 1 + bs.length) := by omega
      have h3 : a' ≤ a' ∧ a' < a' + (bs.length + 1) := by omega
      simp [h3]
    · by_cases h2 : a + 1 ≤ a' ∧ a' < a + 1 + bs.length
      · have h3 : a ≤ a' ∧ a' < a + (bs.length + 1) := by omega
        have h4 : a' - a = (a' - (a + 1)) + 1 := by omega
        rw [if_pos h2, if_pos h3, h4]
        simp
      · have h3 : ¬ (a ≤ a' ∧ a' < a + (bs.length + 1)) := by omega
        rw [if_neg h2, if_neg h3, if_neg h1]

/-! Little-endian values (R48). -/

@[simp] theorem leBytes_length (v : Word) (n : Nat) : (leBytes v n).length = n := by simp [leBytes]

theorem leBytes_getD (v : Word) (n k : Nat) (h : k < n) : (leBytes v n).getD k 0#8 = byteOf v k := by
  simp [leBytes, h]

/-- Byte k of a little-endian value is byte k of the list (R48). -/
theorem byteOf_leValue (bs : List Byte) (k : Nat) (hk : k < 8) : byteOf (leValue bs) k = bs.getD k 0#8 := by
  induction bs generalizing k with
  | nil => simp [leValue, byteOf]
  | cons b bs ih =>
    cases k with
    | zero =>
      unfold byteOf leValue
      apply BitVec.eq_of_getLsbD_eq
      intro i hi
      have h2 : i < 64 := by omega
      simp [hi, h2]
    | succ k =>
      have h := ih k (by omega)
      rw [List.getD_cons_succ, ← h]
      rw [leValue]
      unfold byteOf
      apply BitVec.eq_of_getLsbD_eq
      intro i hi
      have h1 : 8 * (k + 1) + i < 64 := by omega
      have h2 : ¬ 8 * (k + 1) + i < 8 := by omega
      have h3 : 8 * (k + 1) + i - 8 = 8 * k + i := by omega
      have h4 : b.getLsbD (8 * (k + 1) + i) = false := BitVec.getLsbD_of_ge _ _ (by omega)
      simp only [BitVec.getLsbD_extractLsb', hi, BitVec.getLsbD_or, BitVec.getLsbD_setWidth, BitVec.getLsbD_shiftLeft,
        h1, h2, h3, h4, decide_true, decide_false, Bool.and_false, Bool.false_or, Bool.not_false, Bool.true_and]

end Sys2Proof.Machine
end

