-- ==== Sys2Proof/Laws/Cache.lean ====
section
/-! SUPPORT. The cache controller: what each of its operations does to the soundness of the data side and to the coherent view (R62 to R76). -/

namespace Sys2Proof.Machine

/-! The line array. -/

@[simp] theorem setLine_mem (d : DataSide) (set w : Nat) (l : Line) : (setLine d set w l).mem = d.mem := rfl
@[simp] theorem setLine_cfg (d : DataSide) (set w : Nat) (l : Line) : (setLine d set w l).cfg = d.cfg := rfl
@[simp] theorem setLine_accesses (d : DataSide) (set w : Nat) (l : Line) : (setLine d set w l).accesses = d.accesses := rfl
@[simp] theorem setLine_hits (d : DataSide) (set w : Nat) (l : Line) : (setLine d set w l).hits = d.hits := rfl
@[simp] theorem setLine_misses (d : DataSide) (set w : Nat) (l : Line) : (setLine d set w l).misses = d.misses := rfl
@[simp] theorem setLine_draws (d : DataSide) (set w : Nat) (l : Line) : (setLine d set w l).draws = d.draws := rfl
@[simp] theorem setLine_lines_length (d : DataSide) (set w : Nat) (l : Line) : (setLine d set w l).lines.length = d.lines.length := by
  simp [setLine]

theorem getSet_setLine {d : DataSide} {set : Nat} (hs : set < d.lines.length) (w : Nat) (l : Line) (set' : Nat) :
    getSet (setLine d set w l) set' = if set' = set then (getSet d set).set w l else getSet d set' := by
  unfold getSet setLine
  simp only [List.getD_eq_getElem?_getD, List.getElem?_set]
  by_cases h : set = set'
  · subst h; simp [hs, getSet]
  · have h' : ¬ set' = set := fun e => h e.symm
    simp [h, h']

/-- A line that a soundness fact speaks of, read by index. -/
theorem getLine_eq {c : CacheConfig} {d : DataSide} {set w : Nat} (h : w < (getSet d set).length) :
    getLine c d set w = (getSet d set)[w] := by simp [getLine, h]

theorem getLine_mem {c : CacheConfig} {d : DataSide} {set w : Nat} (h : w < (getSet d set).length) :
    getLine c d set w ∈ getSet d set := by rw [getLine_eq h]; exact List.getElem_mem h

theorem getLine_setLine {c : CacheConfig} {d : DataSide} {set w : Nat} (hs : set < d.lines.length) (hw : w < (getSet d set).length)
    (l : Line) : getLine c (setLine d set w l) set w = l := by
  simp [getLine, getSet_setLine hs, hw]

/-! Looking for a tag (R62). -/

theorem findWay_some {tag w : Nat} {ways : List Line} (h : findWay tag ways = some w) :
    ∃ hw : w < ways.length, ways[w].valid = true ∧ ways[w].tag = tag := by
  obtain ⟨hw, hp, -⟩ := List.findIdx?_eq_some_iff_getElem.mp h
  simp only [Bool.and_eq_true, beq_iff_eq] at hp
  exact ⟨hw, hp⟩

theorem findWay_none {tag : Nat} {ways : List Line} (h : findWay tag ways = none) : ∀ l ∈ ways, l.valid = true → l.tag ≠ tag := by
  intro l hl hv he
  have := List.findIdx?_eq_none_iff.mp h l hl
  simp [hv, he] at this

theorem findWay_unique {tag w : Nat} {ways : List Line} (hu : UniqueTags ways) (hw : w < ways.length) (hv : ways[w].valid = true)
    (ht : ways[w].tag = tag) : findWay tag ways = some w := by
  cases hf : findWay tag ways with
  | none => exact absurd ht (findWay_none hf _ (List.getElem_mem hw) hv)
  | some w' =>
    obtain ⟨hw', hv', ht'⟩ := findWay_some hf
    rw [hu w' w hw' hw hv' hv (ht'.trans ht.symm)]

theorem findWay_eq_none {tag : Nat} {ways : List Line} (h : ∀ l ∈ ways, l.valid = true → l.tag ≠ tag) : findWay tag ways = none := by
  rw [findWay, List.findIdx?_eq_none_iff]
  intro l hl
  have := h l hl
  simp
  exact this

/-! Soundness of the data side while the cache is enabled. -/

/-- A sound cache over a canonical memory inside data memory. -/
structure Good (size : Nat) (c : CacheConfig) (d : DataSide) : Prop where
  memWf : Memory.wf d.mem = true
  memIn : ∀ e ∈ d.mem, e.1 < size
  cache : CacheOk size c d

/-- Lines and memory are all that soundness and the view look at. -/
theorem Good.congr {size : Nat} {c : CacheConfig} {d e : DataSide} (h : Good size c d) (hm : e.mem = d.mem) (hl : e.lines = d.lines) :
    Good size c e := by
  have hg : ∀ set, getSet e set = getSet d set := fun set => by simp [getSet, hl]
  refine ⟨hm ▸ h.memWf, hm ▸ h.memIn, ⟨h.cache.config, hl ▸ h.cache.sets, fun s hs => hg s ▸ h.cache.ways s hs, fun s hs => ?_,
    fun s hs => hg s ▸ h.cache.unique s hs⟩⟩
  rw [hg s, hm]
  exact h.cache.lines s hs

theorem viewIn_congr {c : CacheConfig} {d e : DataSide} (hm : e.mem = d.mem) (hl : e.lines = d.lines) (a : Nat) :
    viewIn c e a = viewIn c d a := by
  simp [viewIn, getLine, getSet, hm, hl]

section
variable {size : Nat} {c : CacheConfig} {d : DataSide} (h : Good size c d)
include h

theorem Good.set_lt {set : Nat} (hs : set < numSets c) : set < d.lines.length := h.cache.sets ▸ hs

theorem Good.way_lt {set w : Nat} (hs : set < numSets c) (hw : w < c.associativity) : w < (getSet d set).length :=
  (h.cache.ways set hs) ▸ hw

theorem Good.lineOk {set w : Nat} (hs : set < numSets c) (hw : w < c.associativity) : LineOk size c d.mem set (getLine c d set w) :=
  h.cache.lines set hs _ (getLine_mem (h.way_lt hs hw))

/-- The view of an address whose line is resident (R73). -/
theorem Good.view_line {w a : Nat} (hw : w < c.associativity) (hv : (getLine c d (setIndex c a) w).valid = true)
    (ht : (getLine c d (setIndex c a) w).tag = tagOf c a) :
    viewIn c d a = (getLine c d (setIndex c a) w).data.getD (blockOffset c a) 0#8 := by
  have hs := setIndex_lt h.cache.config a
  have hl := h.way_lt hs hw
  rw [getLine_eq hl] at hv ht
  rw [viewIn, findWay_unique (h.cache.unique _ hs) hl hv ht]

omit h in
/-- The view of an address no line holds (R73). -/
theorem Good.view_miss {a : Nat} (hm : ∀ l ∈ getSet d (setIndex c a), l.valid = true → l.tag ≠ tagOf c a) :
    viewIn c d a = readByte d.mem a := by
  rw [viewIn, findWay_eq_none hm]

/-- Either a line of its set holds an address, or none does. -/
theorem Good.resident_or_miss (a : Nat) :
    (∃ w, w < c.associativity ∧ (getLine c d (setIndex c a) w).valid = true ∧ (getLine c d (setIndex c a) w).tag = tagOf c a) ∨
    (∀ l ∈ getSet d (setIndex c a), l.valid = true → l.tag ≠ tagOf c a) := by
  by_cases hm : ∀ l ∈ getSet d (setIndex c a), l.valid = true → l.tag ≠ tagOf c a
  · exact .inr hm
  · push Not at hm
    obtain ⟨l, hl, hv, ht⟩ := hm
    obtain ⟨w, hw, rfl⟩ := List.mem_iff_getElem.mp hl
    have hw' : w < c.associativity := (h.cache.ways _ (setIndex_lt h.cache.config a)) ▸ hw
    exact .inl ⟨w, hw', by rw [getLine_eq hw]; exact hv, by rw [getLine_eq hw]; exact ht⟩

/-- Two resident lines with the tag and set of one address are one line. -/
theorem Good.resident_unique {set w w' : Nat} (hs : set < numSets c) (hw : w < c.associativity) (hw' : w' < c.associativity)
    (hv : (getLine c d set w).valid = true) (hv' : (getLine c d set w').valid = true)
    (ht : (getLine c d set w).tag = (getLine c d set w').tag) : w = w' := by
  have hl := h.way_lt hs hw
  have hl' := h.way_lt hs hw'
  rw [getLine_eq hl] at hv ht
  rw [getLine_eq hl'] at hv' ht
  exact h.cache.unique set hs w w' hl hl' hv hv' ht

/-- Soundness after one line and the memory have changed: the line is sound over the new memory, its tag is no other line's, and the memory of
every other valid line's block is as before. -/
theorem Good.setLine {set w : Nat} (hs : set < numSets c) {m : Memory} {l : Line}
    (hwf : Memory.wf m = true) (hin : ∀ e ∈ m, e.1 < size) (hl : LineOk size c m set l)
    (hother : ∀ w', w' < c.associativity → w' ≠ w → l.valid = true → (getLine c d set w').valid = true → (getLine c d set w').tag ≠ l.tag)
    (hmem : ∀ set', set' < numSets c → ∀ w', w' < c.associativity → (set', w') ≠ (set, w) → (getLine c d set' w').valid = true →
      ∀ a, tagOf c a = (getLine c d set' w').tag → setIndex c a = set' → readByte m a = readByte d.mem a) :
    Good size c (Sys2Proof.Machine.setLine { d with mem := m } set w l) := by
  have hsl : set < ({ d with mem := m } : DataSide).lines.length := h.set_lt hs
  have hgs := getSet_setLine (d := { d with mem := m }) hsl w l
  refine ⟨hwf, hin, ⟨h.cache.config, by simpa using h.cache.sets, ?_, ?_, ?_⟩⟩
  · intro s hs'
    rw [hgs]
    split
    · simpa [getSet] using h.cache.ways set hs
    · exact h.cache.ways s hs'
  · intro s hs' k hk
    rw [hgs] at hk
    -- every line is the new one or an old one at another place
    have key : ∀ w', w' < c.associativity → (s, w') ≠ (set, w) → LineOk size c m s (getLine c d s w') := by
      intro w' hw' hne
      obtain ⟨h1, h2, h3, h4⟩ := h.lineOk hs' hw'
      refine ⟨h1, h2, h3, fun hv hd k hk => ?_⟩
      rw [h4 hv hd k hk]
      exact (hmem s hs' w' hw' hne hv _ (tagOf_line h.cache.config hs' hk _) (setIndex_line h.cache.config hs' hk _)).symm
    split at hk
    · next e =>
      subst e
      obtain ⟨w', hw', rfl⟩ := List.mem_iff_getElem.mp hk
      rw [List.length_set] at hw'
      have hwl : w' < (getSet d s).length := hw'
      have hwa : w' < c.associativity := h.cache.ways s hs' ▸ hwl
      rw [List.getElem_set]
      split
      · exact hl
      · next hne =>
        have := key w' hwa (by intro e; exact hne (by simpa using (Prod.mk.inj e).2.symm))
        rw [getLine_eq hwl] at this
        exact this
    · next hne =>
      obtain ⟨w', hw', rfl⟩ := List.mem_iff_getElem.mp hk
      have hwl : w' < (getSet d s).length := hw'
      have hwa : w' < c.associativity := h.cache.ways s hs' ▸ hwl
      have := key w' hwa (by intro e; exact hne (Prod.mk.inj e).1)
      rw [getLine_eq hwl] at this
      exact this
  · intro s hs'
    rw [hgs]
    split
    · next e =>
      subst e
      intro i j hi hj hvi hvj ht
      rw [List.length_set] at hi hj
      have hil : i < (getSet d s).length := hi
      have hjl : j < (getSet d s).length := hj
      have hia : i < c.associativity := h.cache.ways s hs' ▸ hil
      have hja : j < c.associativity := h.cache.ways s hs' ▸ hjl
      rw [List.getElem_set] at hvi ht
      rw [List.getElem_set] at hvj ht
      by_cases h1 : w = i <;> by_cases h2 : w = j
      · omega
      · simp only [h1, if_true] at hvi hvj ht
        have h2' : ¬ i = j := by omega
        simp only [h2', if_false] at hvj ht
        have := hother j hja (by omega) hvi (by rw [getLine_eq hjl]; exact hvj)
        rw [getLine_eq hjl] at this
        exact absurd ht.symm this
      · simp only [h2, if_true] at hvi hvj ht
        have h1' : ¬ j = i := by omega
        simp only [h1', if_false] at hvi ht
        have := hother i hia (by omega) hvj (by rw [getLine_eq hil]; exact hvi)
        rw [getLine_eq hil] at this
        exact absurd ht this
      · simp only [h1, h2, if_false] at hvi hvj ht
        exact h.cache.unique s hs' i j hil hjl hvi hvj ht
    · exact h.cache.unique s hs'

/-! The view after one line and the memory have changed. `d'` is that data side, and it is sound. -/

section
variable {set w : Nat} (hs : set < numSets c) {m : Memory} {l : Line}
  (h' : Good size c (Sys2Proof.Machine.setLine { d with mem := m } set w l))
include hs h'

/-- Reading a line of the changed array. -/
theorem Good.getLine_changed (hw : w < c.associativity) {set' w' : Nat} :
    getLine c (Sys2Proof.Machine.setLine { d with mem := m } set w l) set' w' = if set' = set ∧ w' = w then l else getLine c d set' w' := by
  have hsl : set < ({ d with mem := m } : DataSide).lines.length := h.set_lt hs
  have hwl : w < (getSet d set).length := h.way_lt hs hw
  unfold getLine
  rw [getSet_setLine hsl]
  by_cases h1 : set' = set
  · subst h1
    by_cases h2 : w' = w
    · subst h2
      have hwl' : w' < (getSet { d with mem := m } set').length := hwl
      simp [hwl']
    · have h2' : ¬ w = w' := fun e => h2 e.symm
      simp [h2, h2', getSet]
  · simp [h1, getSet]

/-- An address of the changed line reads from it. -/
theorem Good.view_changed_here (hw : w < c.associativity) {a : Nat} (ha : setIndex c a = set) (hv : l.valid = true) (ht : l.tag = tagOf c a) :
    viewIn c (Sys2Proof.Machine.setLine { d with mem := m } set w l) a = l.data.getD (blockOffset c a) 0#8 := by
  have hg := h.getLine_changed hs h' hw (set' := setIndex c a) (w' := w)
  rw [if_pos ⟨ha, rfl⟩] at hg
  rw [h'.view_line hw (by rw [hg]; exact hv) (by rw [hg]; exact ht), hg]

/-- An address another line holds reads as before. -/
theorem Good.view_changed_other (hw : w < c.associativity) {a w' : Nat} (hw' : w' < c.associativity) (hne : ¬ (setIndex c a = set ∧ w' = w))
    (hv : (getLine c d (setIndex c a) w').valid = true) (ht : (getLine c d (setIndex c a) w').tag = tagOf c a) :
    viewIn c (Sys2Proof.Machine.setLine { d with mem := m } set w l) a = viewIn c d a := by
  have hg := h.getLine_changed hs h' hw (set' := setIndex c a) (w' := w')
  rw [if_neg hne] at hg
  rw [h'.view_line hw' (by rw [hg]; exact hv) (by rw [hg]; exact ht), hg, h.view_line hw' hv ht]

/-- An address that neither the changed line nor another one holds reads from the new memory. -/
theorem Good.view_changed_miss (hw : w < c.associativity) {a : Nat} (hnot : setIndex c a = set → l.valid = true → l.tag ≠ tagOf c a)
    (hno : ∀ w', w' < c.associativity → ¬ (setIndex c a = set ∧ w' = w) → (getLine c d (setIndex c a) w').valid = true →
      (getLine c d (setIndex c a) w').tag ≠ tagOf c a) :
    viewIn c (Sys2Proof.Machine.setLine { d with mem := m } set w l) a = readByte m a := by
  have hsa := setIndex_lt h.cache.config a
  rw [Good.view_miss]
  · rfl
  · intro k hk hv
    obtain ⟨w', hw', rfl⟩ := List.mem_iff_getElem.mp hk
    have hwa : w' < c.associativity := h'.cache.ways _ hsa ▸ hw'
    have hg := h.getLine_changed hs h' hw (set' := setIndex c a) (w' := w')
    rw [← getLine_eq hw' (c := c)] at hv ⊢
    rw [hg] at hv ⊢
    split at hv
    · next e => rw [if_pos e]; exact hnot e.1 hv
    · next e => rw [if_neg e]; exact hno w' hwa e hv

end

/-! Touch, eviction, fill (R63, R65, R66). -/

section
variable {set w : Nat} (hs : set < numSets c) (hw : w < c.associativity)
include hs hw

/-- A line that changes only in its stamps, or from dirty to clean with memory holding its bytes, keeps tag, valid bit and data. Such a change
keeps soundness and the view. -/
theorem Good.restamp {m : Memory} {l : Line} (hwf : Memory.wf m = true) (hin : ∀ e ∈ m, e.1 < size)
    (hv : l.valid = (getLine c d set w).valid) (ht : l.tag = (getLine c d set w).tag) (hd : l.data = (getLine c d set w).data)
    (hl : LineOk size c m set l)
    (hmem : ∀ a, ¬ (l.valid = true ∧ tagOf c a = l.tag ∧ setIndex c a = set) → readByte m a = readByte d.mem a) :
    Good size c (Sys2Proof.Machine.setLine { d with mem := m } set w l) ∧
    ∀ a, viewIn c (Sys2Proof.Machine.setLine { d with mem := m } set w l) a = viewIn c d a := by
  have good : Good size c (Sys2Proof.Machine.setLine { d with mem := m } set w l) := by
    refine h.setLine hs hwf hin hl (fun w' hw' hne hlv hv' he => hne ?_) (fun s hs' w' hw' hne hv' a hta hsa => ?_)
    · exact h.resident_unique hs hw' hw hv' (hv ▸ hlv) (he.trans ht)
    · refine hmem a fun ⟨hlv, hta', hsa'⟩ => hne ?_
      have e : s = set := hsa.symm.trans hsa'
      subst e
      rw [h.resident_unique hs' hw' hw hv' (hv ▸ hlv) (hta.symm.trans (hta'.trans ht))]
  refine ⟨good, fun a => ?_⟩
  rcases h.resident_or_miss a with ⟨w', hw', hv', ht'⟩ | hm
  · by_cases e : setIndex c a = set ∧ w' = w
    · obtain ⟨e1, e2⟩ := e
      subst e2
      rw [h.view_changed_here hs good hw e1 (by rw [hv, ← e1]; exact hv') (by rw [ht, ← e1]; exact ht'), h.view_line hw' hv' ht', hd, e1]
    · exact h.view_changed_other hs good hw hw' e hv' ht'
  · have hno : ∀ w', w' < c.associativity → (getLine c d (setIndex c a) w').valid = true →
        (getLine c d (setIndex c a) w').tag ≠ tagOf c a := fun w' hw' =>
      hm _ (getLine_mem (h.way_lt (setIndex_lt h.cache.config a) hw'))
    have hnot : setIndex c a = set → l.valid = true → l.tag ≠ tagOf c a := by
      intro e hlv
      have := hno w hw
      rw [e, ← hv, ← ht] at this
      exact this hlv
    rw [h.view_changed_miss hs good hw hnot (fun w' hw' _ => hno w' hw'), Good.view_miss hm]
    exact hmem a fun ⟨hlv, hta, hsa⟩ => hnot hsa hlv hta.symm

/-- Touch (R63) keeps soundness and the view. -/
theorem Good.touch (t : BitVec 64) :
    Good size c (touch c d set w t) ∧ ∀ a, viewIn c (Sys2Proof.Machine.touch c d set w t) a = viewIn c d a :=
  h.restamp hs hw h.memWf h.memIn rfl rfl rfl (h.lineOk hs hw) fun _ _ => rfl

omit h hs hw in
theorem evict_eq : Sys2Proof.Machine.evict c d set w =
    if ((getLine c d set w).valid && (getLine c d set w).dirty) = true then writeBackLine c d set w else d := rfl

/-- Evicting a way (R65) keeps soundness and the view, leaves the way not both valid and dirty, and changes no valid bit and no tag. -/
theorem Good.evict :
    Good size c (evict c d set w) ∧ (∀ a, viewIn c (Sys2Proof.Machine.evict c d set w) a = viewIn c d a) ∧
    ((getLine c (Sys2Proof.Machine.evict c d set w) set w).valid = true → (getLine c (Sys2Proof.Machine.evict c d set w) set w).dirty = false) ∧
    (∀ w', w' < c.associativity → (getLine c (Sys2Proof.Machine.evict c d set w) set w').valid = (getLine c d set w').valid ∧
      (getLine c (Sys2Proof.Machine.evict c d set w) set w').tag = (getLine c d set w').tag) := by
  obtain ⟨h1, h2, h3, h4⟩ := h.lineOk hs hw
  rw [evict_eq]
  split
  · next hd =>
    simp only [Bool.and_eq_true] at hd
    have hbase := h3 hd.1
    have hblock : ∀ a, readByte (writeBytes d.mem (lineBase c (getLine c d set w).tag set) (getLine c d set w).data) a =
        if tagOf c a = (getLine c d set w).tag ∧ setIndex c a = set then (getLine c d set w).data.getD (blockOffset c a) 0#8
        else readByte d.mem a := by
      intro a
      rw [readByte_writeBytes h.memWf, h1]
      by_cases e : tagOf c a = (getLine c d set w).tag ∧ setIndex c a = set
      · rw [if_pos ((mem_block_iff h.cache.config hs _ a).mpr e), if_pos e]
        have := lineBase_add_offset h.cache.config a
        rw [e.1, e.2] at this
        congr 1
        omega
      · rw [if_neg fun e' => e ((mem_block_iff h.cache.config hs _ a).mp e'), if_neg e]
    have hr := h.restamp hs hw (m := writeBytes d.mem (lineBase c (getLine c d set w).tag set) (getLine c d set w).data)
      (l := { getLine c d set w with dirty := false }) (writeBytes_wf h.memWf _ _) (writeBytes_below h.memIn (by rw [h1]; exact hbase))
      rfl rfl rfl
      ⟨h1, by simp, h3, fun _ _ k hk => by
        rw [hblock, if_pos ⟨tagOf_line h.cache.config hs hk _, setIndex_line h.cache.config hs hk _⟩, blockOffset_line h.cache.config hs hk]⟩
      (fun a ha => by rw [hblock, if_neg fun e => ha ⟨hd.1, e.1, e.2⟩])
    have hg := fun (w' : Nat) => h.getLine_changed hs hr.1 hw (set' := set) (w' := w')
    refine ⟨hr.1, hr.2, fun _ => ?_, fun w' hw' => ?_⟩
    · show (getLine c (Sys2Proof.Machine.setLine _ set w _) set w).dirty = false
      rw [hg, if_pos ⟨rfl, rfl⟩]
    · show (getLine c (Sys2Proof.Machine.setLine _ set w _) set w').valid = _ ∧ (getLine c (Sys2Proof.Machine.setLine _ set w _) set w').tag = _
      rw [hg]
      by_cases e : w' = w
      · subst e; simp
      · simp [e]
  · next hd =>
    refine ⟨h, fun _ => rfl, fun hv => ?_, fun _ _ => ⟨rfl, rfl⟩⟩
    simp only [Bool.and_eq_true, not_and, Bool.not_eq_true] at hd
    exact hd hv

/-- Filling a way that holds nothing dirty with a block no line of the set holds (R66) keeps soundness and the view. -/
theorem Good.fill {sa : Nat} (t : BitVec 64) (hsa : sa < size) (hset : setIndex c sa = set)
    (hclean : (getLine c d set w).valid = true → (getLine c d set w).dirty = false)
    (hmiss : ∀ w', w' < c.associativity → (getLine c d set w').valid = true → (getLine c d set w').tag ≠ tagOf c sa) :
    Good size c (fill c d set w sa t) ∧ (∀ a, viewIn c (Sys2Proof.Machine.fill c d set w sa t) a = viewIn c d a) ∧
    (getLine c (Sys2Proof.Machine.fill c d set w sa t) set w).valid = true ∧
    (getLine c (Sys2Proof.Machine.fill c d set w sa t) set w).tag = tagOf c sa := by
  obtain ⟨h1, h2, h3, h4⟩ := h.lineOk hs hw
  have hb := blockBase_eq h.cache.config sa
  rw [hset] at hb
  have hin := lineBase_in h.cache.config hsa
  rw [hset] at hin
  have good : Good size c (Sys2Proof.Machine.fill c d set w sa t) := by
    refine h.setLine hs (m := d.mem) h.memWf h.memIn ⟨by simp, by simp, fun _ => hin, fun _ _ k hk => ?_⟩
      (fun w' hw' _ _ hv => hmiss w' hw' hv) fun _ _ _ _ _ _ _ _ _ => rfl
    show (readBytes d.mem (blockBase c sa) c.blockSize).getD k 0#8 = readByte d.mem (lineBase c (tagOf c sa) set + k)
    rw [hb, readBytes_getD _ _ _ _ hk]
  have hg := h.getLine_changed hs (m := d.mem) good hw (set' := set) (w' := w)
  rw [if_pos ⟨rfl, rfl⟩] at hg
  refine ⟨good, fun a => ?_, ?_, ?_⟩
  · show viewIn c (Sys2Proof.Machine.setLine { d with mem := d.mem } set w _) a = viewIn c d a
    by_cases e : setIndex c a = set ∧ tagOf c sa = tagOf c a
    · -- in the new block: the line holds what memory held, and no line held it before
      have hoff := lineBase_add_offset h.cache.config a
      rw [← e.2, e.1] at hoff
      have hno : ∀ l ∈ getSet d (setIndex c a), l.valid = true → l.tag ≠ tagOf c a := by
        intro l hl hv
        rw [e.1] at hl
        obtain ⟨w', hw', rfl⟩ := List.mem_iff_getElem.mp hl
        have hwa : w' < c.associativity := h.cache.ways _ hs ▸ hw'
        have := hmiss w' hwa (by rw [getLine_eq hw']; exact hv)
        rwa [getLine_eq hw', e.2] at this
      rw [h.view_changed_here hs (m := d.mem) good hw e.1 rfl e.2, Good.view_miss hno]
      show (readBytes d.mem (blockBase c sa) c.blockSize).getD (blockOffset c a) 0#8 = readByte d.mem a
      rw [hb, readBytes_getD _ _ _ _ (blockOffset_lt h.cache.config a), hoff]
    · rcases h.resident_or_miss a with ⟨w', hw', hv', ht'⟩ | hm
      · by_cases e' : setIndex c a = set ∧ w' = w
        · -- the line that is replaced was clean, so memory holds its bytes
          obtain ⟨e1, rfl⟩ := e'
          have hnot : setIndex c a = set → true = true → tagOf c sa ≠ tagOf c a := fun _ _ e2 => e ⟨e1, e2⟩
          have hno : ∀ k, k < c.associativity → ¬ (setIndex c a = set ∧ k = w') → (getLine c d (setIndex c a) k).valid = true →
              (getLine c d (setIndex c a) k).tag ≠ tagOf c a := by
            intro k hk hne hvk htk
            have := h.resident_unique (setIndex_lt h.cache.config a) hk hw' hvk hv' (htk.trans ht'.symm)
            exact hne ⟨e1, this⟩
          rw [h.view_changed_miss hs (m := d.mem) good hw hnot hno, h.view_line hw' hv' ht', e1]
          rw [e1] at hv' ht'
          have := lineBase_add_offset h.cache.config a
          rw [e1, ← ht'] at this
          rw [h4 hv' (hclean hv') _ (blockOffset_lt h.cache.config a), this]
        · exact h.view_changed_other hs (m := d.mem) good hw hw' e' hv' ht'
      · rw [h.view_changed_miss hs (m := d.mem) good hw (fun e1 _ e2 => e ⟨e1, e2⟩)
          (fun w' hw' _ => hm _ (getLine_mem (h.way_lt (setIndex_lt h.cache.config a) hw'))), Good.view_miss hm]
  · show (getLine c (Sys2Proof.Machine.setLine { d with mem := d.mem } set w _) set w).valid = true
    rw [hg]
  · show (getLine c (Sys2Proof.Machine.setLine { d with mem := d.mem } set w _) set w).tag = tagOf c sa
    rw [hg]

end

end

end Sys2Proof.Machine
end

