-- ==== Sys2Proof/Laws/CacheAccess.lean ====
section
/-! SUPPORT. Lookup, CacheRead and CacheWrite: one lemma each that says what it does to soundness, the view and the counters (R62, R70, R71, R73),
and from them MemRead, MemWrite and the switching of the cache. -/

namespace Sys2Proof.Machine

/-! The victim is a way of the set (R64). -/

theorem leastFrom_lt (less : Line → Line → Bool) (best : Line) (bestAt pos : Nat) (ls : List Line) (h : bestAt < pos) :
    leastFrom less best bestAt pos ls < pos + ls.length := by
  induction ls generalizing best bestAt pos with
  | nil => simpa [leastFrom] using h
  | cons l ls ih =>
    unfold leastFrom
    simp only [List.length_cons]
    split
    · have := ih l pos (pos + 1) (by omega); omega
    · have := ih best bestAt (pos + 1) (by omega); omega

theorem leastWay_lt (less : Line → Line → Bool) (ls : List Line) (h : 0 < ls.length) : leastWay less ls < ls.length := by
  cases ls with
  | nil => simp at h
  | cons l ls =>
    have := leastFrom_lt less l 0 1 ls (by omega)
    simp only [leastWay, List.length_cons]
    omega

theorem victimWay_lt {c : CacheConfig} {ways : List Line} (hl : ways.length = c.associativity) (hp : 0 < c.associativity) (draw : Nat) :
    victimWay c ways draw < c.associativity := by
  have key : ∀ r, (match ways.findIdx? fun l => !l.valid with
      | some w => w
      | none => leastWay (victimLess r) ways) < c.associativity := by
    intro r
    cases hf : ways.findIdx? fun l => !l.valid with
    | some w => exact hl ▸ (List.findIdx?_eq_some_iff_getElem.mp hf).1
    | none => exact hl ▸ leastWay_lt _ _ (by omega)
  unfold victimWay
  cases c.replacement with
  | random => exact Nat.mod_lt _ hp
  | lru => exact key .lru
  | fifo => exact key .fifo
  | lfu => exact key .lfu

/-! Lookup (R62). -/

/-- What a lookup of address `sa` in `d` that answers `r` does. -/
structure LookupOk (size : Nat) (c : CacheConfig) (sa : Nat) (d : DataSide) (r : Nat × DataSide) : Prop where
  way : r.1 < c.associativity
  good : Good size c r.2
  view : ∀ a, viewIn c r.2 a = viewIn c d a
  valid : (getLine c r.2 (setIndex c sa) r.1).valid = true
  tag : (getLine c r.2 (setIndex c sa) r.1).tag = tagOf c sa
  cfg : r.2.cfg = d.cfg
  accesses : r.2.accesses = d.accesses + 1
  counters : r.2.hits + r.2.misses = d.hits + d.misses + 1

section
variable {c : CacheConfig} {d : DataSide} {set w : Nat}

@[simp] theorem touch_cfg (t : BitVec 64) : (touch c d set w t).cfg = d.cfg := rfl
@[simp] theorem touch_accesses (t : BitVec 64) : (touch c d set w t).accesses = d.accesses := rfl
@[simp] theorem touch_hits (t : BitVec 64) : (touch c d set w t).hits = d.hits := rfl
@[simp] theorem touch_misses (t : BitVec 64) : (touch c d set w t).misses = d.misses := rfl
@[simp] theorem fill_cfg (sa : Nat) (t : BitVec 64) : (fill c d set w sa t).cfg = d.cfg := rfl
@[simp] theorem fill_accesses (sa : Nat) (t : BitVec 64) : (fill c d set w sa t).accesses = d.accesses := rfl
@[simp] theorem fill_hits (sa : Nat) (t : BitVec 64) : (fill c d set w sa t).hits = d.hits := rfl
@[simp] theorem fill_misses (sa : Nat) (t : BitVec 64) : (fill c d set w sa t).misses = d.misses := rfl
@[simp] theorem evict_cfg : (evict c d set w).cfg = d.cfg := by rw [evict_eq]; split <;> rfl
@[simp] theorem evict_accesses : (evict c d set w).accesses = d.accesses := by rw [evict_eq]; split <;> rfl
@[simp] theorem evict_hits : (evict c d set w).hits = d.hits := by rw [evict_eq]; split <;> rfl
@[simp] theorem evict_misses : (evict c d set w).misses = d.misses := by rw [evict_eq]; split <;> rfl
@[simp] theorem evict_draws : (evict c d set w).draws = d.draws := by rw [evict_eq]; split <;> rfl

/-- Touch changes no valid bit and no tag. -/
theorem touch_getLine (hs : set < d.lines.length) (hw : w < (getSet d set).length) (t : BitVec 64) :
    (getLine c (touch c d set w t) set w).valid = (getLine c d set w).valid ∧
    (getLine c (touch c d set w t) set w).tag = (getLine c d set w).tag := by
  unfold touch
  simp [getLine_setLine hs hw]

end

/-- A lookup of an in-bounds address in a sound cache (R62 to R66, R75). -/
theorem lookup_ok {size : Nat} {c : CacheConfig} {d : DataSide} (h : Good size c d) {sa : Nat} (hsa : sa < size) :
    LookupOk size c sa d (lookup c d sa) := by
  have hset := setIndex_lt h.cache.config sa
  unfold lookup
  simp only
  split
  · next w hf =>
    obtain ⟨hw, hv, ht⟩ := findWay_some hf
    have hwa : w < c.associativity := h.cache.ways _ hset ▸ hw
    have g1 : Good size c { d with accesses := d.accesses + 1, hits := d.hits + 1 } := h.congr rfl rfl
    have g2 := g1.touch hset hwa (d.accesses + 1)
    have gl := touch_getLine (c := c) (g1.set_lt hset) (g1.way_lt hset hwa) (d.accesses + 1)
    refine ⟨hwa, g2.1, fun a => (g2.2 a).trans (viewIn_congr rfl rfl a), ?_, ?_, rfl, rfl, ?_⟩
    · rw [gl.1]; show (getLine c d _ w).valid = true; rw [getLine_eq hw]; exact hv
    · rw [gl.2]; show (getLine c d _ w).tag = _; rw [getLine_eq hw]; exact ht
    · show d.hits + 1 + d.misses = _
      ring
  · next hf =>
    have hmiss := findWay_none hf
    have hwa := victimWay_lt (h.cache.ways _ hset) (associativity_pos h.cache.config) (Config.randWay d.draws)
    generalize victimWay c (getSet d (setIndex c sa)) (Config.randWay d.draws) = w at hwa ⊢
    generalize hd1 : ({ d with accesses := d.accesses + 1, misses := d.misses + 1, draws := nextDraws c d.draws } : DataSide) = d1
    have g1 : Good size c d1 := by subst hd1; exact h.congr rfl rfl
    have v1 : ∀ a, viewIn c d1 a = viewIn c d a := by subst hd1; exact viewIn_congr rfl rfl
    have m1 : ∀ w', w' < c.associativity → (getLine c d1 (setIndex c sa) w').valid = true →
        (getLine c d1 (setIndex c sa) w').tag ≠ tagOf c sa := by
      subst hd1
      exact fun w' hw' => hmiss _ (getLine_mem (h.way_lt hset hw'))
    obtain ⟨g2, v2, clean, same⟩ := g1.evict hset hwa
    obtain ⟨g3, v3, hv3, ht3⟩ := g2.fill hset hwa (d.accesses + 1) hsa rfl clean (by
      intro w' hw' hv
      rw [(same w' hw').1] at hv
      rw [(same w' hw').2]
      exact m1 w' hw' hv)
    have g4 := g3.touch hset hwa (d.accesses + 1)
    have gl := touch_getLine (c := c) (g3.set_lt hset) (g3.way_lt hset hwa) (d.accesses + 1)
    refine ⟨hwa, g4.1, fun a => by rw [g4.2, v3, v2, v1], by rw [gl.1]; exact hv3, by rw [gl.2]; exact ht3, ?_, ?_, ?_⟩
    · subst hd1; simp
    · subst hd1; simp
    · subst hd1
      simp only [touch_hits, touch_misses, fill_hits, fill_misses, evict_hits, evict_misses]
      ring

/-! Segments (R61). -/

/-- A segment lies in data memory and inside one block. -/
def SegmentOk (size : Nat) (c : CacheConfig) (g : Segment) : Prop :=
  0 < g.len ∧ g.addr + g.len ≤ size ∧ blockOffset c g.addr + g.len ≤ c.blockSize

/-- The segments of an in-bounds access are sound and follow one another without a gap. -/
theorem segmentsFrom_ok {size : Nat} {c : CacheConfig} (h : configOk size c = true) {a n : Nat} (ha : a + n ≤ size) (fuel k : Nat) :
    ∀ g ∈ segmentsFrom c a n fuel k, SegmentOk size c g ∧ g.addr = a + g.pos ∧ k ≤ g.pos ∧ g.pos + g.len ≤ n := by
  induction fuel generalizing k with
  | zero => simp [segmentsFrom]
  | succ fuel ih =>
    intro g hg
    unfold segmentsFrom at hg
    split at hg
    · next hk =>
      have ho := blockOffset_lt h (a + k)
      simp only [List.mem_cons] at hg
      rcases hg with rfl | hg
      · refine ⟨⟨?_, ?_, ?_⟩, rfl, le_refl _, ?_⟩ <;> simp only <;> omega
      · obtain ⟨h1, h2, h3, h4⟩ := ih _ g hg
        exact ⟨h1, h2, by omega, h4⟩
    · simp at hg

/-! CacheRead (R70). -/

/-- What the read loop keeps. -/
structure KeepsView (size : Nat) (c : CacheConfig) (d e : DataSide) : Prop where
  good : Good size c e
  view : ∀ a, viewIn c e a = viewIn c d a
  cfg : e.cfg = d.cfg
  counters : d.accesses = d.hits + d.misses → e.accesses = e.hits + e.misses

theorem LookupOk.keepsView {size : Nat} {c : CacheConfig} {sa : Nat} {d : DataSide} {r : Nat × DataSide} (h : LookupOk size c sa d r) :
    KeepsView size c d r.2 :=
  ⟨h.good, h.view, h.cfg, fun hc => by rw [h.accesses, h.counters, hc]⟩

/-- The bytes of one segment, read from the line its lookup returned, are the view's (R73). -/
theorem segment_bytes {size : Nat} {c : CacheConfig} {g : Segment} {d : DataSide} {r : Nat × DataSide} (hg : SegmentOk size c g)
    (hr : LookupOk size c g.addr d r) :
    ((getLine c r.2 (setIndex c g.addr) r.1).data.drop (blockOffset c g.addr)).take g.len =
      (List.range g.len).map fun k => viewIn c d (g.addr + k) := by
  have hcfg := hr.good.cache.config
  have hlen := (hr.good.lineOk (setIndex_lt hcfg g.addr) hr.way).1
  obtain ⟨hg1, hg2, hg3⟩ := hg
  apply List.ext_getElem
  · simp only [List.length_take, List.length_drop, List.length_map, List.length_range, hlen]; omega
  · intro k hk hk'
    simp only [List.length_map, List.length_range] at hk'
    obtain ⟨e1, e2, e3⟩ := same_line_of_offset hcfg (a := g.addr) (k := k) (by omega)
    have hvl := hr.good.view_line (w := r.1) (a := g.addr + k) hr.way (by rw [e2]; exact hr.valid) (by rw [e2, e1]; exact hr.tag)
    rw [hr.view, e2, e3] at hvl
    simp only [List.getElem_take, List.getElem_drop, List.getElem_map, List.getElem_range]
    rw [hvl, List.getD_eq_getElem _ _ (by omega)]

/-- The read loop from byte position `k` reads the view's bytes in order. -/
theorem readSegments_ok {size : Nat} {c : CacheConfig} {a n : Nat} (ha : a + n ≤ size) (fuel k : Nat) (hf : n ≤ k + fuel) (hk : k ≤ n)
    (d : DataSide) (h : Good size c d) :
    (readSegments c (segmentsFrom c a n fuel k) d).1 = (List.range (n - k)).map (fun j => viewIn c d (a + k + j)) ∧
    KeepsView size c d (readSegments c (segmentsFrom c a n fuel k) d).2 := by
  induction fuel generalizing k d with
  | zero =>
    have : n - k = 0 := by omega
    simp only [segmentsFrom, readSegments, this, List.range_zero, List.map_nil, true_and]
    exact ⟨h, fun _ => rfl, rfl, id⟩
  | succ fuel ih =>
    unfold segmentsFrom
    split
    · next hkn =>
      have hcfg := h.cache.config
      have ho := blockOffset_lt hcfg (a + k)
      have hseg : SegmentOk size c ⟨a + k, k, min (n - k) (c.blockSize - blockOffset c (a + k))⟩ := by
        refine ⟨?_, ?_, ?_⟩ <;> simp only <;> omega
      have hr := lookup_ok h (sa := a + k) (by omega)
      have hb := segment_bytes hseg hr
      generalize hl : min (n - k) (c.blockSize - blockOffset c (a + k)) = len at hseg hb ⊢
      simp only [readSegments]
      have hlen : 0 < len ∧ len ≤ n - k := ⟨hseg.1, by omega⟩
      obtain ⟨i1, i2⟩ := ih (k + len) (by omega) (by omega) (lookup c d (a + k)).2 hr.good
      refine ⟨?_, ⟨i2.good, fun x => (i2.view x).trans (hr.view x), i2.cfg.trans hr.cfg, fun hc => i2.counters (hr.keepsView.counters hc)⟩⟩
      rw [i1, hb]
      have hsplit : n - k = len + (n - (k + len)) := by omega
      rw [hsplit, List.range_add, List.map_append, List.map_map]
      congr 1
      refine List.map_congr_left fun j _ => ?_
      rw [hr.view]
      simp only [Function.comp_apply]
      congr 1
      omega
    · have : n - k = 0 := by omega
      simp only [readSegments, this, List.range_zero, List.map_nil, true_and]
      exact ⟨h, fun _ => rfl, rfl, id⟩

/-- CacheRead returns the view in little-endian order and keeps it (R70, R73). -/
theorem cacheRead_ok {size : Nat} {c : CacheConfig} {a n : Nat} (ha : a + n ≤ size) {d : DataSide} (h : Good size c d) :
    (cacheRead c d a n).1 = leValue ((List.range n).map fun k => viewIn c d (a + k)) ∧ KeepsView size c d (cacheRead c d a n).2 := by
  have := readSegments_ok ha n 0 (by omega) (by omega) d h
  refine ⟨?_, this.2⟩
  unfold cacheRead segments
  simp only [this.1]
  simp

/-! CacheWrite (R71). -/

theorem splice_length {data bytes : List Byte} {o : Nat} (h : o + bytes.length ≤ data.length) : (splice data o bytes).length = data.length := by
  simp only [splice, List.length_append, List.length_take, List.length_drop]
  omega

theorem splice_getD {data bytes : List Byte} {o k : Nat} (h : o + bytes.length ≤ data.length) :
    (splice data o bytes).getD k 0#8 = if o ≤ k ∧ k < o + bytes.length then bytes.getD (k - o) 0#8 else data.getD k 0#8 := by
  have hto : (data.take o).length = o := by simp only [List.length_take]; omega
  unfold splice
  simp only [List.getD_eq_getElem?_getD]
  by_cases h1 : k < o
  · have : ¬ (o ≤ k ∧ k < o + bytes.length) := by omega
    rw [if_neg this, List.append_assoc, List.getElem?_append_left (by omega), List.getElem?_take_of_lt h1]
  · by_cases h2 : k < o + bytes.length
    · rw [if_pos ⟨by omega, h2⟩, List.append_assoc, List.getElem?_append_right (by omega), hto, List.getElem?_append_left (by omega)]
    · have : ¬ (o ≤ k ∧ k < o + bytes.length) := by omega
      rw [if_neg this, List.getElem?_append_right (by simp only [List.length_append]; omega), List.getElem?_drop]
      congr 2
      simp only [List.length_append, hto]
      omega

/-- What a write of bytes at `sa` does to the data side. -/
structure WritesView (size : Nat) (c : CacheConfig) (sa : Nat) (bytes : List Byte) (d e : DataSide) : Prop where
  good : Good size c e
  view : ∀ x, viewIn c e x = if sa ≤ x ∧ x < sa + bytes.length then bytes.getD (x - sa) 0#8 else viewIn c d x
  cfg : e.cfg = d.cfg
  counters : d.accesses = d.hits + d.misses → e.accesses = e.hits + e.misses

/-- Writing one segment into a resident line (R68, R69, R71). -/
theorem writeSegment_ok {size : Nat} {c : CacheConfig} {sa w : Nat} {bytes : List Byte} {d : DataSide} (h : Good size c d)
    (hw : w < c.associativity) (hv : (getLine c d (setIndex c sa) w).valid = true) (ht : (getLine c d (setIndex c sa) w).tag = tagOf c sa)
    (hin : sa + bytes.length ≤ size) (hblk : blockOffset c sa + bytes.length ≤ c.blockSize) :
    WritesView size c sa bytes d (writeSegment c bytes sa w d) := by
  have hcfg := h.cache.config
  have hs := setIndex_lt hcfg sa
  obtain ⟨l1, l2, l3, l4⟩ := h.lineOk hs hw
  have hsp : blockOffset c sa + bytes.length ≤ (getLine c d (setIndex c sa) w).data.length := by rw [l1]; exact hblk
  have hbase := lineBase_add_offset hcfg sa
  -- where a byte of the written range lies
  have hrange : ∀ x, (sa ≤ x ∧ x < sa + bytes.length) →
      tagOf c x = tagOf c sa ∧ setIndex c x = setIndex c sa ∧ blockOffset c x = blockOffset c sa + (x - sa) := by
    intro x hx
    obtain ⟨k, rfl⟩ := Nat.exists_eq_add_of_le hx.1
    have := same_line_of_offset hcfg (a := sa) (k := k) (by omega)
    simpa using this
  have honly : ∀ x, tagOf c x = tagOf c sa → setIndex c x = setIndex c sa →
      ((blockOffset c sa ≤ blockOffset c x ∧ blockOffset c x < blockOffset c sa + bytes.length) ↔ (sa ≤ x ∧ x < sa + bytes.length)) ∧
      (sa ≤ x → blockOffset c x - blockOffset c sa = x - sa) := by
    intro x e1 e2
    have hx := lineBase_add_offset hcfg x
    rw [e1, e2] at hx
    constructor
    · omega
    · intro; omega
  -- the line and memory that result, in both policies
  have main : ∀ (m : Memory) (b : Bool), Memory.wf m = true → (∀ e ∈ m, e.1 < size) → (b = true → c.write = .writeBack) →
      (∀ x, readByte m x = readByte d.mem x ∨ (tagOf c x = tagOf c sa ∧ setIndex c x = setIndex c sa)) →
      (b = false → ∀ x, readByte m x = if sa ≤ x ∧ x < sa + bytes.length then bytes.getD (x - sa) 0#8 else readByte d.mem x) →
      (b = false → (getLine c d (setIndex c sa) w).dirty = false) →
      WritesView size c sa bytes d (Sys2Proof.Machine.setLine { d with mem := m } (setIndex c sa) w
        { getLine c d (setIndex c sa) w with
          data := splice (getLine c d (setIndex c sa) w).data (blockOffset c sa) bytes, dirty := b }) := by
    intro m b hwf hmin hb hmem hclean hdirty
    have good : Good size c (Sys2Proof.Machine.setLine { d with mem := m } (setIndex c sa) w
        { getLine c d (setIndex c sa) w with
          data := splice (getLine c d (setIndex c sa) w).data (blockOffset c sa) bytes, dirty := b }) := by
      refine h.setLine hs hwf hmin ⟨?_, fun e => ⟨hv, hb e⟩, l3, fun _ e k hk => ?_⟩ (fun w' hw' hne _ hv' he => hne ?_)
        (fun s hs' w' hw' hne hv' a hta hsa' => ?_)
      · show (splice _ _ _).length = _
        rw [splice_length hsp, l1]
      · show (splice _ _ _).getD k 0#8 = readByte m (lineBase c (getLine c d (setIndex c sa) w).tag (setIndex c sa) + k)
        rw [hclean e, splice_getD hsp, ht]
        have ek := honly (lineBase c (tagOf c sa) (setIndex c sa) + k) (tagOf_line hcfg hs hk _) (setIndex_line hcfg hs hk _)
        rw [blockOffset_line hcfg hs hk] at ek
        by_cases hr : sa ≤ lineBase c (tagOf c sa) (setIndex c sa) + k ∧ lineBase c (tagOf c sa) (setIndex c sa) + k < sa + bytes.length
        · rw [if_pos hr, if_pos (ek.1.mpr hr), ek.2 hr.1]
        · rw [if_neg hr, if_neg fun e' => hr (ek.1.mp e'), l4 hv (hdirty e) k hk, ht]
      · exact h.resident_unique hs hw' hw hv' hv he
      · rcases hmem a with e | ⟨e1, e2⟩
        · exact e
        · have e3 : s = setIndex c sa := hsa'.symm.trans e2
          subst e3
          exact absurd (by rw [h.resident_unique hs hw' hw hv' hv (by rw [← hta, e1, ht])]) hne
    refine ⟨good, fun x => ?_, rfl, id⟩
    by_cases hx : tagOf c x = tagOf c sa ∧ setIndex c x = setIndex c sa
    · obtain ⟨e1, e2⟩ := hx
      obtain ⟨k1, k2⟩ := honly x e1 e2
      rw [h.view_changed_here hs good hw e2 hv (by rw [e1]; exact ht)]
      show (splice _ _ _).getD _ 0#8 = _
      rw [splice_getD hsp]
      by_cases hr : sa ≤ x ∧ x < sa + bytes.length
      · rw [if_pos hr, if_pos (k1.mpr hr), k2 hr.1]
      · rw [if_neg hr, if_neg fun e' => hr (k1.mp e'), h.view_line hw (by rw [e2]; exact hv) (by rw [e1, e2]; exact ht), e2]
    · have hnr : ¬ (sa ≤ x ∧ x < sa + bytes.length) := fun hr => hx ⟨(hrange x hr).1, (hrange x hr).2.1⟩
      rw [if_neg hnr]
      rcases h.resident_or_miss x with ⟨w', hw', hv', ht'⟩ | hm
      · refine h.view_changed_other hs good hw hw' ?_ hv' ht'
        rintro ⟨e1, rfl⟩
        rw [e1] at ht'
        exact hx ⟨ht'.symm.trans ht, e1⟩
      · rw [h.view_changed_miss hs good hw (fun e1 _ e2 => hx ⟨e2.symm.trans ht, e1⟩)
          (fun w' hw' _ => hm _ (getLine_mem (h.way_lt (setIndex_lt hcfg x) hw'))), Good.view_miss hm]
        exact (hmem x).resolve_right hx
  unfold writeSegment
  simp only
  split
  · next hwb => exact main d.mem true h.memWf h.memIn (fun _ => hwb) (fun _ => .inl rfl) (by simp) (by simp)
  · next hwt =>
    have hd : (getLine c d (setIndex c sa) w).dirty = false := by
      cases hdd : (getLine c d (setIndex c sa) w).dirty with
      | false => rfl
      | true => have := (l2 hdd).2; rw [hwt] at this; cases this
    have hm := readByte_writeBytes h.memWf sa bytes
    have := main (writeBytes d.mem sa bytes) false (writeBytes_wf h.memWf _ _) (writeBytes_below h.memIn hin) (by simp) (fun x => by
      by_cases hr : sa ≤ x ∧ x < sa + bytes.length
      · exact .inr ⟨(hrange x hr).1, (hrange x hr).2.1⟩
      · left; rw [hm, if_neg hr]) (fun _ => hm) (fun _ => hd)
    have e : ({ getLine c d (setIndex c sa) w with
          data := splice (getLine c d (setIndex c sa) w).data (blockOffset c sa) bytes, dirty := false } : Line) =
        { getLine c d (setIndex c sa) w with data := splice (getLine c d (setIndex c sa) w).data (blockOffset c sa) bytes } := by
      rw [← hd]
    rw [e] at this
    exact this

/-- The write loop from byte position `k` on. -/
theorem writeSegments_ok {size : Nat} {c : CacheConfig} {a n : Nat} {bytes : List Byte} (hb : bytes.length = n) (ha : a + n ≤ size)
    (fuel k : Nat) (hf : n ≤ k + fuel) (hk : k ≤ n) (d : DataSide) (h : Good size c d) :
    WritesView size c (a + k) (bytes.drop k) d (writeSegments c bytes (segmentsFrom c a n fuel k) d) := by
  induction fuel generalizing k d with
  | zero =>
    have hkn : k = n := by omega
    subst hkn
    have : bytes.drop k = [] := by rw [List.drop_eq_nil_iff]; omega
    rw [this]
    refine ⟨h, fun x => ?_, rfl, id⟩
    rw [if_neg (by simp only [List.length_nil]; omega)]
    rfl
  | succ fuel ih =>
    unfold segmentsFrom
    split
    · next hkn =>
      have hcfg := h.cache.config
      have ho := blockOffset_lt hcfg (a + k)
      have hr := lookup_ok h (sa := a + k) (by omega)
      generalize hl : min (n - k) (c.blockSize - blockOffset c (a + k)) = len
      have hlen : 0 < len ∧ len ≤ n - k ∧ blockOffset c (a + k) + len ≤ c.blockSize := by omega
      have hbl : ((bytes.drop k).take len).length = len := by simp only [List.length_take, List.length_drop]; omega
      have hws := writeSegment_ok (bytes := (bytes.drop k).take len) hr.good hr.way hr.valid hr.tag (by rw [hbl]; omega) (by rw [hbl]; omega)
      simp only [writeSegments]
      have hi := ih (k + len) (by omega) (by omega) _ hws.good
      refine ⟨hi.good, fun x => ?_, (hi.cfg.trans hws.cfg).trans hr.cfg, fun hc => hi.counters (hws.counters (hr.keepsView.counters hc))⟩
      rw [hi.view, hws.view, hr.view, hbl]
      simp only [List.length_drop, hb]
      by_cases h1 : a + (k + len) ≤ x ∧ x < a + (k + len) + (n - (k + len))
      · rw [if_pos h1, if_pos (by omega)]
        simp only [List.getD_eq_getElem?_getD, List.getElem?_drop]
        congr 2
        omega
      · rw [if_neg h1]
        by_cases h2 : a + k ≤ x ∧ x < a + k + len
        · rw [if_pos h2, if_pos (by omega)]
          simp only [List.getD_eq_getElem?_getD]
          rw [List.getElem?_take_of_lt (by omega)]
        · rw [if_neg h2, if_neg (by omega)]
    · have hkn : k = n := by omega
      subst hkn
      have : bytes.drop k = [] := by rw [List.drop_eq_nil_iff]; omega
      rw [this]
      refine ⟨h, fun x => ?_, rfl, id⟩
      rw [if_neg (by simp only [List.length_nil]; omega)]
      rfl

/-- CacheWrite writes the low n bytes of its value into the view and nothing else (R71, R73). -/
theorem cacheWrite_ok {size : Nat} {c : CacheConfig} {a n : Nat} (ha : a + n ≤ size) (v : Word) {d : DataSide} (h : Good size c d) :
    WritesView size c a (leBytes v n) d (cacheWrite c d a n v) := by
  have := writeSegments_ok (leBytes_length v n) ha n 0 (by omega) (by omega) d h
  simpa [cacheWrite, segments] using this

/-! MemRead and MemWrite (R54, R73). -/

theorem DataOk.good {size : Nat} {d : DataSide} (h : DataOk size d) {c : CacheConfig} (hc : d.cfg = some c) : Good size c d :=
  ⟨h.memWf, h.memIn, h.on c hc⟩

theorem Good.dataOk {size : Nat} {c : CacheConfig} {d : DataSide} (h : Good size c d) (hc : d.cfg = some c)
    (hk : d.accesses = d.hits + d.misses) : DataOk size d :=
  ⟨h.memWf, h.memIn, hk, fun e => by rw [hc] at e; simp at e, fun c' e => by rw [hc] at e; cases e; exact h.cache⟩

theorem view_some {d : DataSide} {c : CacheConfig} (hc : d.cfg = some c) (a : Nat) : view d a = viewIn c d a := by simp [view, hc]
theorem view_none {d : DataSide} (hc : d.cfg = none) (a : Nat) : view d a = readByte d.mem a := by simp [view, hc]

/-- MemRead returns the coherent value, cache on or off, and keeps the data side sound and the view as it was. -/
theorem memRead_ok {size : Nat} {d : DataSide} (h : DataOk size d) {a n : Nat} (ha : a + n ≤ size) :
    (memRead d a n).1 = leValue ((List.range n).map fun k => view d (a + k)) ∧ DataOk size (memRead d a n).2 ∧
    (∀ x, view (memRead d a n).2 x = view d x) ∧ (memRead d a n).2.cfg = d.cfg := by
  unfold memRead
  cases hc : d.cfg with
  | none =>
    refine ⟨?_, h, fun _ => rfl, hc⟩
    simp [backRead, readBytes_eq_map, view_none hc]
  | some c =>
    obtain ⟨h1, h2⟩ := cacheRead_ok ha (h.good hc)
    have hc2 := h2.cfg.trans hc
    refine ⟨?_, h2.good.dataOk hc2 (h2.counters h.counters), fun x => ?_, hc2⟩
    · simp only [h1, view_some hc]
    · rw [view_some hc2, view_some hc, h2.view]

/-- MemWrite puts the low n bytes of its value into the view, cache on or off, changes no other byte of it and keeps the data side sound. -/
theorem memWrite_ok {size : Nat} {d : DataSide} (h : DataOk size d) {a n : Nat} (ha : a + n ≤ size) (v : Word) :
    DataOk size (memWrite d a n v) ∧
    (∀ x, view (memWrite d a n v) x = if a ≤ x ∧ x < a + n then byteOf v (x - a) else view d x) ∧ (memWrite d a n v).cfg = d.cfg := by
  have hbyte : ∀ x, a ≤ x ∧ x < a + n → (leBytes v n).getD (x - a) 0#8 = byteOf v (x - a) := fun x hx => leBytes_getD v n _ (by omega)
  unfold memWrite
  cases hc : d.cfg with
  | none =>
    refine ⟨⟨writeBytes_wf h.memWf _ _, writeBytes_below h.memIn (by simpa using ha), h.counters, fun _ => h.off hc, fun c e => nomatch e⟩, fun x => ?_, rfl⟩
    rw [view_none rfl, view_none hc]
    show readByte (writeBytes d.mem a (leBytes v n)) x = _
    rw [readByte_writeBytes h.memWf, leBytes_length]
    split
    · next hx => exact hbyte x hx
    · rfl
  | some c =>
    have h2 := cacheWrite_ok ha v (h.good hc)
    have hc2 := h2.cfg.trans hc
    refine ⟨h2.good.dataOk hc2 (h2.counters h.counters), fun x => ?_, hc2⟩
    simp only
    rw [view_some hc2, view_some hc, h2.view, leBytes_length]
    split
    · next hx => exact hbyte x hx
    · rfl

end Sys2Proof.Machine
end

