-- ==== Sys2Proof/Laws/CacheControl.lean ====
section
/-! SUPPORT. Switching the cache: a flush makes backing memory the coherent view, an installed or invalidated cache is sound (R58, R76, R77). -/

namespace Sys2Proof.Machine

/-! Empty lines (R58, R77). -/

theorem getSet_emptyLines {c : CacheConfig} {d : DataSide} (hl : d.lines = emptyLines c) {set : Nat} (hs : set < numSets c) :
    getSet d set = List.replicate c.associativity (emptyLine c) := by
  simp [getSet, hl, emptyLines, hs]

theorem emptyLines_good {size : Nat} {c : CacheConfig} (hc : configOk size c = true) {d : DataSide} (hwf : Memory.wf d.mem = true)
    (hin : ∀ e ∈ d.mem, e.1 < size) (hl : d.lines = emptyLines c) : Good size c d := by
  refine ⟨hwf, hin, ⟨hc, by simp [hl, emptyLines], fun s hs => by simp [getSet_emptyLines hl hs], fun s hs l h => ?_, fun s hs => ?_⟩⟩
  · rw [getSet_emptyLines hl hs] at h
    obtain rfl := List.eq_of_mem_replicate h
    exact ⟨by simp [emptyLine], by simp [emptyLine], by simp [emptyLine], by simp [emptyLine]⟩
  · rw [getSet_emptyLines hl hs]
    intro w w' hw hw' hv
    simp [emptyLine] at hv

theorem emptyLines_view {size : Nat} {c : CacheConfig} (hc : configOk size c = true) {d : DataSide} (hl : d.lines = emptyLines c) (a : Nat) :
    viewIn c d a = readByte d.mem a := by
  refine Good.view_miss ?_
  rw [getSet_emptyLines hl (setIndex_lt hc a)]
  intro l h hv
  rw [List.eq_of_mem_replicate h] at hv
  simp [emptyLine] at hv

/-- An accepted configuration installs a sound cache that shows what memory holds (R58). -/
theorem installCache_ok {size : Nat} {c : CacheConfig} (hc : configOk size c = true) {d : DataSide} (h : DataOk size d) :
    DataOk size (installCache c d) ∧ ∀ a, view (installCache c d) a = readByte d.mem a := by
  have g : Good size c (installCache c d) := emptyLines_good hc h.memWf h.memIn rfl
  exact ⟨g.dataOk rfl rfl, fun a => (view_some rfl a).trans (emptyLines_view hc rfl a)⟩

/-- A load leaves a sound cache that shows what the new memory holds (R77). -/
theorem invalidateCache_ok {size : Nat} {d : DataSide} (h : DataOk size d) {m : Memory} (hwf : Memory.wf m = true)
    (hin : ∀ e ∈ m, e.1 < size) :
    DataOk size { invalidateCache d with mem := m } ∧ ∀ a, view { invalidateCache d with mem := m } a = readByte m a := by
  cases hc : d.cfg with
  | none =>
    have e : ({ invalidateCache d with mem := m } : DataSide).cfg = none := hc
    refine ⟨⟨hwf, hin, rfl, fun _ => ?_, fun c e' => ?_⟩, fun a => view_none e a⟩
    · simp [invalidateCache, hc]
    · rw [e] at e'
      cases e'
  | some c =>
    have e : ({ invalidateCache d with mem := m } : DataSide).cfg = some c := hc
    have hl : ({ invalidateCache d with mem := m } : DataSide).lines = emptyLines c := by simp [invalidateCache, hc]
    have hcfg := (h.on c hc).config
    have g : Good size c { invalidateCache d with mem := m } := emptyLines_good hcfg hwf hin hl
    exact ⟨g.dataOk e rfl, fun a => (view_some e a).trans (emptyLines_view hcfg hl a)⟩

/-! Flushing (R76). -/

/-- Evicting a line makes it clean and dirties none. -/
theorem evict_dirty {size : Nat} {c : CacheConfig} {d : DataSide} (h : Good size c d) {set w : Nat} (hs : set < numSets c)
    (hw : w < c.associativity) (s' w' : Nat) :
    (getLine c (evict c d set w) s' w').dirty = if s' = set ∧ w' = w then false else (getLine c d s' w').dirty := by
  have good := (h.evict hs hw).1
  rw [evict_eq] at good ⊢
  split at good
  · next hd =>
    rw [if_pos hd]
    have hg := h.getLine_changed hs good hw (set' := s') (w' := w')
    show (getLine c (setLine _ set w _) s' w').dirty = _
    rw [hg]
    split <;> rfl
  · next hd =>
    rw [if_neg hd]
    split
    · next e =>
      obtain ⟨rfl, rfl⟩ := e
      have h2 := (h.lineOk hs hw).2.1
      cases hdd : (getLine c d s' w').dirty with
      | false => rfl
      | true => exact absurd (by simp [(h2 hdd).1, hdd]) hd
    · rfl

/-- What a flush keeps, and that it dirties no line. -/
structure Flushes (size : Nat) (c : CacheConfig) (d e : DataSide) : Prop where
  good : Good size c e
  view : ∀ a, viewIn c e a = viewIn c d a
  cfg : e.cfg = d.cfg
  accesses : e.accesses = d.accesses
  hits : e.hits = d.hits
  misses : e.misses = d.misses
  draws : e.draws = d.draws
  clean : ∀ s w, (getLine c d s w).dirty = false → (getLine c e s w).dirty = false

theorem Flushes.refl {size : Nat} {c : CacheConfig} {d : DataSide} (h : Good size c d) : Flushes size c d d :=
  ⟨h, fun _ => rfl, rfl, rfl, rfl, rfl, rfl, fun _ _ => id⟩

theorem Flushes.trans {size : Nat} {c : CacheConfig} {d e f : DataSide} (h : Flushes size c d e) (k : Flushes size c e f) :
    Flushes size c d f :=
  ⟨k.good, fun a => (k.view a).trans (h.view a), k.cfg.trans h.cfg, k.accesses.trans h.accesses, k.hits.trans h.hits,
    k.misses.trans h.misses, k.draws.trans h.draws, fun s w hc => k.clean s w (h.clean s w hc)⟩

theorem evict_flushes {size : Nat} {c : CacheConfig} {d : DataSide} (h : Good size c d) {set w : Nat} (hs : set < numSets c)
    (hw : w < c.associativity) : Flushes size c d (evict c d set w) :=
  ⟨(h.evict hs hw).1, (h.evict hs hw).2.1, evict_cfg, evict_accesses, evict_hits, evict_misses, evict_draws, fun s w' hc => by
    rw [evict_dirty h hs hw]; split <;> simp [hc]⟩

theorem flushWays_ok {size : Nat} {c : CacheConfig} {set : Nat} (hs : set < numSets c) (ws : List Nat) (hw : ∀ w ∈ ws, w < c.associativity)
    {d : DataSide} (h : Good size c d) :
    Flushes size c d (flushWays c set ws d) ∧ ∀ w ∈ ws, (getLine c (flushWays c set ws d) set w).dirty = false := by
  induction ws generalizing d with
  | nil => exact ⟨Flushes.refl h, by simp⟩
  | cons w ws ih =>
    have h1 := evict_flushes h hs (hw w (by simp))
    obtain ⟨h2, h3⟩ := ih (fun w' hw' => hw w' (by simp [hw'])) h1.good
    refine ⟨h1.trans h2, fun w' hw' => ?_⟩
    rcases List.mem_cons.mp hw' with rfl | hw'
    · exact h2.clean _ _ (by rw [evict_dirty h hs (hw w' (by simp))]; simp)
    · exact h3 w' hw'

theorem flushSets_ok {size : Nat} {c : CacheConfig} (sets : List Nat) (hs : ∀ s ∈ sets, s < numSets c) {d : DataSide} (h : Good size c d) :
    Flushes size c d (flushSets c sets d) ∧
    ∀ s ∈ sets, ∀ w, w < c.associativity → (getLine c (flushSets c sets d) s w).dirty = false := by
  induction sets generalizing d with
  | nil => exact ⟨Flushes.refl h, by simp⟩
  | cons s sets ih =>
    obtain ⟨h1, h1'⟩ := flushWays_ok (hs s (by simp)) (List.range c.associativity) (by simp) h
    obtain ⟨h2, h3⟩ := ih (fun s' hs' => hs s' (by simp [hs'])) h1.good
    refine ⟨h1.trans h2, fun s' hs' w hw => ?_⟩
    rcases List.mem_cons.mp hs' with rfl | hs'
    · exact h2.clean _ _ (h1' w (by simpa using hw))
    · exact h3 s' hs' w hw

/-- Where every line is clean, backing memory is the coherent view (R74). -/
theorem clean_view {size : Nat} {c : CacheConfig} {d : DataSide} (h : Good size c d)
    (hc : ∀ s, s < numSets c → ∀ w, w < c.associativity → (getLine c d s w).dirty = false) (a : Nat) : viewIn c d a = readByte d.mem a := by
  have hs := setIndex_lt h.cache.config a
  rcases h.resident_or_miss a with ⟨w, hw, hv, ht⟩ | hm
  · rw [h.view_line hw hv ht, (h.lineOk hs hw).2.2.2 hv (hc _ hs w hw) _ (blockOffset_lt h.cache.config a), ht,
      lineBase_add_offset h.cache.config a]
  · exact Good.view_miss hm

/-- disable_cache with flush: the cache is off, memory holds the coherent view, the counters stay (R76). -/
theorem disableCache_flush_ok {size : Nat} {d : DataSide} (h : DataOk size d) :
    DataOk size (disableCache .flush d) ∧ (∀ a, readByte (disableCache .flush d).mem a = view d a) ∧ (disableCache .flush d).cfg = none ∧
    (disableCache .flush d).accesses = d.accesses ∧ (disableCache .flush d).hits = d.hits ∧ (disableCache .flush d).misses = d.misses := by
  unfold disableCache
  cases hc : d.cfg with
  | none => exact ⟨h, fun a => (view_none hc a).symm, hc, rfl, rfl, rfl⟩
  | some c =>
    obtain ⟨h1, h2⟩ := flushSets_ok (List.range (numSets c)) (by simp) (h.good hc)
    refine ⟨⟨h1.good.memWf, h1.good.memIn, ?_, fun _ => rfl, fun _ e => nomatch e⟩, fun a => ?_, rfl, h1.accesses, h1.hits, h1.misses⟩
    · show (flushSets c _ d).accesses = (flushSets c _ d).hits + (flushSets c _ d).misses
      rw [h1.accesses, h1.hits, h1.misses, h.counters]
    · rw [view_some hc, ← h1.view a]
      exact (clean_view h1.good (fun s hs w hw => h2 s (by simpa using hs) w hw) a).symm

/-- disable_cache with discard: the cache is off and backing memory is as it was (R76). -/
theorem disableCache_discard_ok {size : Nat} {d : DataSide} (h : DataOk size d) :
    DataOk size (disableCache .discard d) ∧ (disableCache .discard d).mem = d.mem ∧ (disableCache .discard d).cfg = none := by
  unfold disableCache
  cases hc : d.cfg with
  | none => exact ⟨h, rfl, hc⟩
  | some c => exact ⟨⟨h.memWf, h.memIn, h.counters, fun _ => rfl, fun _ e => nomatch e⟩, rfl, rfl⟩

theorem disableCache_ok {size : Nat} {d : DataSide} (h : DataOk size d) (f : DisableFlush) : DataOk size (disableCache f d) := by
  cases f with
  | flush => exact (disableCache_flush_ok h).1
  | discard => exact (disableCache_discard_ok h).1

end Sys2Proof.Machine
end

