-- ==== Sys2Proof/Laws/Decode.lean ====
section
/-! SUPPORT. What each field of an encoded word reads, format by format (R87 to R93), and how the opcode table's masks pick the fields apart (R95). -/

namespace Sys2Proof

/-- A field above the last part of a concatenation. -/
theorem extract_high {m n : Nat} (x : BitVec m) (y : BitVec n) (k s l : Nat) (h : s = n + k) :
    (x ++ y).extractLsb' s l = x.extractLsb' k l := by
  subst h
  ext i hi
  simp only [BitVec.getElem_extractLsb', BitVec.getLsbD_append]
  rw [if_neg (by omega)]
  congr 1
  omega

/-- A field inside the last part of a concatenation. -/
theorem extract_low {m n : Nat} (x : BitVec m) (y : BitVec n) (s l : Nat) (h : s + l ≤ n) :
    (x ++ y).extractLsb' s l = y.extractLsb' s l := by
  ext i hi
  simp only [BitVec.getElem_extractLsb', BitVec.getLsbD_append]
  rw [if_pos (by omega)]

/-- A field that is the whole of what it is taken from. -/
theorem extract_all {n : Nat} (x : BitVec n) : x.extractLsb' 0 n = x := by simp

/-- The S immediate put together again (R89). -/
theorem imm_s_parts (imm : BitVec 12) : (imm.extractLsb' 5 7 ++ imm.extractLsb' 0 5 : BitVec (7 + 5)) = imm := by
  apply BitVec.eq_of_getLsbD_eq
  intro i hi
  simp only [BitVec.getLsbD_append, BitVec.getLsbD_extractLsb']
  interval_cases i <;> simp

/-- The B offset put together again (R90): only an even one comes back. -/
theorem imm_b_parts (off : BitVec 13) (h : off.getLsbD 0 = false) :
    (off.extractLsb' 12 1 ++ off.extractLsb' 11 1 ++ off.extractLsb' 5 6 ++ off.extractLsb' 1 4 ++ 0#1 : BitVec (1 + 1 + 6 + 4 + 1)) = off := by
  apply BitVec.eq_of_getLsbD_eq
  intro i hi
  simp only [BitVec.getLsbD_append, BitVec.getLsbD_extractLsb']
  interval_cases i <;> simp_all

/-- The J offset put together again (R91): only an even one comes back. -/
theorem imm_j_parts (off : BitVec 21) (h : off.getLsbD 0 = false) :
    (off.extractLsb' 20 1 ++ off.extractLsb' 12 8 ++ off.extractLsb' 11 1 ++ off.extractLsb' 1 10 ++ 0#1 : BitVec (1 + 8 + 1 + 10 + 1)) = off := by
  apply BitVec.eq_of_getLsbD_eq
  intro i hi
  simp only [BitVec.getLsbD_append, BitVec.getLsbD_extractLsb']
  interval_cases i <;> simp_all

/-! Format R. -/

@[simp] theorem fieldOpcode_encodeR (f7 : BitVec 7) (rs2 rs1 : RegIdx) (f3 : BitVec 3) (rd : RegIdx) (op : BitVec 7) :
    fieldOpcode (encodeR f7 rs2 rs1 f3 rd op) = op :=
  (extract_low (f7 ++ rs2 ++ rs1 ++ f3 ++ rd) op 0 7 (by decide)).trans <|
    extract_all _

@[simp] theorem fieldRd_encodeR (f7 : BitVec 7) (rs2 rs1 : RegIdx) (f3 : BitVec 3) (rd : RegIdx) (op : BitVec 7) :
    fieldRd (encodeR f7 rs2 rs1 f3 rd op) = rd :=
  (extract_high (f7 ++ rs2 ++ rs1 ++ f3 ++ rd) op 0 _ _ rfl).trans <|
    (extract_low (f7 ++ rs2 ++ rs1 ++ f3) rd 0 5 (by decide)).trans <|
    extract_all _

@[simp] theorem fieldFunct3_encodeR (f7 : BitVec 7) (rs2 rs1 : RegIdx) (f3 : BitVec 3) (rd : RegIdx) (op : BitVec 7) :
    fieldFunct3 (encodeR f7 rs2 rs1 f3 rd op) = f3 :=
  (extract_high (f7 ++ rs2 ++ rs1 ++ f3 ++ rd) op 5 _ _ rfl).trans <|
    (extract_high (f7 ++ rs2 ++ rs1 ++ f3) rd 0 _ _ rfl).trans <|
    (extract_low (f7 ++ rs2 ++ rs1) f3 0 3 (by decide)).trans <|
    extract_all _

@[simp] theorem fieldRs1_encodeR (f7 : BitVec 7) (rs2 rs1 : RegIdx) (f3 : BitVec 3) (rd : RegIdx) (op : BitVec 7) :
    fieldRs1 (encodeR f7 rs2 rs1 f3 rd op) = rs1 :=
  (extract_high (f7 ++ rs2 ++ rs1 ++ f3 ++ rd) op 8 _ _ rfl).trans <|
    (extract_high (f7 ++ rs2 ++ rs1 ++ f3) rd 3 _ _ rfl).trans <|
    (extract_high (f7 ++ rs2 ++ rs1) f3 0 _ _ rfl).trans <|
    (extract_low (f7 ++ rs2) rs1 0 5 (by decide)).trans <|
    extract_all _

@[simp] theorem fieldRs2_encodeR (f7 : BitVec 7) (rs2 rs1 : RegIdx) (f3 : BitVec 3) (rd : RegIdx) (op : BitVec 7) :
    fieldRs2 (encodeR f7 rs2 rs1 f3 rd op) = rs2 :=
  (extract_high (f7 ++ rs2 ++ rs1 ++ f3 ++ rd) op 13 _ _ rfl).trans <|
    (extract_high (f7 ++ rs2 ++ rs1 ++ f3) rd 8 _ _ rfl).trans <|
    (extract_high (f7 ++ rs2 ++ rs1) f3 5 _ _ rfl).trans <|
    (extract_high (f7 ++ rs2) rs1 0 _ _ rfl).trans <|
    (extract_low f7 rs2 0 5 (by decide)).trans <|
    extract_all _

@[simp] theorem fieldFunct7_encodeR (f7 : BitVec 7) (rs2 rs1 : RegIdx) (f3 : BitVec 3) (rd : RegIdx) (op : BitVec 7) :
    fieldFunct7 (encodeR f7 rs2 rs1 f3 rd op) = f7 :=
  (extract_high (f7 ++ rs2 ++ rs1 ++ f3 ++ rd) op 18 _ _ rfl).trans <|
    (extract_high (f7 ++ rs2 ++ rs1 ++ f3) rd 13 _ _ rfl).trans <|
    (extract_high (f7 ++ rs2 ++ rs1) f3 10 _ _ rfl).trans <|
    (extract_high (f7 ++ rs2) rs1 5 _ _ rfl).trans <|
    (extract_high f7 rs2 0 _ _ rfl).trans <|
    extract_all _

/-! Format I. -/

@[simp] theorem fieldOpcode_encodeI (imm : BitVec 12) (rs1 : RegIdx) (f3 : BitVec 3) (rd : RegIdx) (op : BitVec 7) :
    fieldOpcode (encodeI imm rs1 f3 rd op) = op :=
  (extract_low (imm ++ rs1 ++ f3 ++ rd) op 0 7 (by decide)).trans <|
    extract_all _

@[simp] theorem fieldRd_encodeI (imm : BitVec 12) (rs1 : RegIdx) (f3 : BitVec 3) (rd : RegIdx) (op : BitVec 7) :
    fieldRd (encodeI imm rs1 f3 rd op) = rd :=
  (extract_high (imm ++ rs1 ++ f3 ++ rd) op 0 _ _ rfl).trans <|
    (extract_low (imm ++ rs1 ++ f3) rd 0 5 (by decide)).trans <|
    extract_all _

@[simp] theorem fieldFunct3_encodeI (imm : BitVec 12) (rs1 : RegIdx) (f3 : BitVec 3) (rd : RegIdx) (op : BitVec 7) :
    fieldFunct3 (encodeI imm rs1 f3 rd op) = f3 :=
  (extract_high (imm ++ rs1 ++ f3 ++ rd) op 5 _ _ rfl).trans <|
    (extract_high (imm ++ rs1 ++ f3) rd 0 _ _ rfl).trans <|
    (extract_low (imm ++ rs1) f3 0 3 (by decide)).trans <|
    extract_all _

@[simp] theorem fieldRs1_encodeI (imm : BitVec 12) (rs1 : RegIdx) (f3 : BitVec 3) (rd : RegIdx) (op : BitVec 7) :
    fieldRs1 (encodeI imm rs1 f3 rd op) = rs1 :=
  (extract_high (imm ++ rs1 ++ f3 ++ rd) op 8 _ _ rfl).trans <|
    (extract_high (imm ++ rs1 ++ f3) rd 3 _ _ rfl).trans <|
    (extract_high (imm ++ rs1) f3 0 _ _ rfl).trans <|
    (extract_low imm rs1 0 5 (by decide)).trans <|
    extract_all _

@[simp] theorem fieldImmI_encodeI (imm : BitVec 12) (rs1 : RegIdx) (f3 : BitVec 3) (rd : RegIdx) (op : BitVec 7) :
    fieldImmI (encodeI imm rs1 f3 rd op) = imm :=
  (extract_high (imm ++ rs1 ++ f3 ++ rd) op 13 _ _ rfl).trans <|
    (extract_high (imm ++ rs1 ++ f3) rd 8 _ _ rfl).trans <|
    (extract_high (imm ++ rs1) f3 5 _ _ rfl).trans <|
    (extract_high imm rs1 0 _ _ rfl).trans <|
    extract_all _

/-! Format Shift. -/

@[simp] theorem fieldOpcode_encodeShift (f6 : BitVec 6) (sh : BitVec 6) (rs1 : RegIdx) (f3 : BitVec 3) (rd : RegIdx) (op : BitVec 7) :
    fieldOpcode (encodeShift f6 sh rs1 f3 rd op) = op :=
  (extract_low ((f6 ++ sh) ++ rs1 ++ f3 ++ rd) op 0 7 (by decide)).trans <|
    extract_all _

@[simp] theorem fieldRd_encodeShift (f6 : BitVec 6) (sh : BitVec 6) (rs1 : RegIdx) (f3 : BitVec 3) (rd : RegIdx) (op : BitVec 7) :
    fieldRd (encodeShift f6 sh rs1 f3 rd op) = rd :=
  (extract_high ((f6 ++ sh) ++ rs1 ++ f3 ++ rd) op 0 _ _ rfl).trans <|
    (extract_low ((f6 ++ sh) ++ rs1 ++ f3) rd 0 5 (by decide)).trans <|
    extract_all _

@[simp] theorem fieldFunct3_encodeShift (f6 : BitVec 6) (sh : BitVec 6) (rs1 : RegIdx) (f3 : BitVec 3) (rd : RegIdx) (op : BitVec 7) :
    fieldFunct3 (encodeShift f6 sh rs1 f3 rd op) = f3 :=
  (extract_high ((f6 ++ sh) ++ rs1 ++ f3 ++ rd) op 5 _ _ rfl).trans <|
    (extract_high ((f6 ++ sh) ++ rs1 ++ f3) rd 0 _ _ rfl).trans <|
    (extract_low ((f6 ++ sh) ++ rs1) f3 0 3 (by decide)).trans <|
    extract_all _

@[simp] theorem fieldRs1_encodeShift (f6 : BitVec 6) (sh : BitVec 6) (rs1 : RegIdx) (f3 : BitVec 3) (rd : RegIdx) (op : BitVec 7) :
    fieldRs1 (encodeShift f6 sh rs1 f3 rd op) = rs1 :=
  (extract_high ((f6 ++ sh) ++ rs1 ++ f3 ++ rd) op 8 _ _ rfl).trans <|
    (extract_high ((f6 ++ sh) ++ rs1 ++ f3) rd 3 _ _ rfl).trans <|
    (extract_high ((f6 ++ sh) ++ rs1) f3 0 _ _ rfl).trans <|
    (extract_low (f6 ++ sh) rs1 0 5 (by decide)).trans <|
    extract_all _

@[simp] theorem fieldFunct6_encodeShift (f6 : BitVec 6) (sh : BitVec 6) (rs1 : RegIdx) (f3 : BitVec 3) (rd : RegIdx) (op : BitVec 7) :
    fieldFunct6 (encodeShift f6 sh rs1 f3 rd op) = f6 :=
  ((extract_high ((f6 ++ sh) ++ rs1 ++ f3 ++ rd) op 19 _ _ rfl).trans <|
    (extract_high ((f6 ++ sh) ++ rs1 ++ f3) rd 14 _ _ rfl).trans <|
    (extract_high ((f6 ++ sh) ++ rs1) f3 11 _ _ rfl).trans <|
    extract_high (f6 ++ sh) rs1 6 _ _ rfl).trans <| (extract_high f6 sh 0 _ _ rfl).trans (extract_all _)

@[simp] theorem fieldShamt_encodeShift (f6 : BitVec 6) (sh : BitVec 6) (rs1 : RegIdx) (f3 : BitVec 3) (rd : RegIdx) (op : BitVec 7) :
    fieldShamt (encodeShift f6 sh rs1 f3 rd op) = sh :=
  ((extract_high ((f6 ++ sh) ++ rs1 ++ f3 ++ rd) op 13 _ _ rfl).trans <|
    (extract_high ((f6 ++ sh) ++ rs1 ++ f3) rd 8 _ _ rfl).trans <|
    (extract_high ((f6 ++ sh) ++ rs1) f3 5 _ _ rfl).trans <|
    extract_high (f6 ++ sh) rs1 0 _ _ rfl).trans <| (extract_low f6 sh 0 6 (by decide)).trans (extract_all _)

/-! Format S. -/

@[simp] theorem fieldOpcode_encodeS (imm : BitVec 12) (rs2 rs1 : RegIdx) (f3 : BitVec 3) (op : BitVec 7) :
    fieldOpcode (encodeS imm rs2 rs1 f3 op) = op :=
  (extract_low (imm.extractLsb' 5 7 ++ rs2 ++ rs1 ++ f3 ++ imm.extractLsb' 0 5) op 0 7 (by decide)).trans <|
    extract_all _

@[simp] theorem fieldFunct3_encodeS (imm : BitVec 12) (rs2 rs1 : RegIdx) (f3 : BitVec 3) (op : BitVec 7) :
    fieldFunct3 (encodeS imm rs2 rs1 f3 op) = f3 :=
  (extract_high (imm.extractLsb' 5 7 ++ rs2 ++ rs1 ++ f3 ++ imm.extractLsb' 0 5) op 5 _ _ rfl).trans <|
    (extract_high (imm.extractLsb' 5 7 ++ rs2 ++ rs1 ++ f3) (imm.extractLsb' 0 5) 0 _ _ rfl).trans <|
    (extract_low (imm.extractLsb' 5 7 ++ rs2 ++ rs1) f3 0 3 (by decide)).trans <|
    extract_all _

@[simp] theorem fieldRs1_encodeS (imm : BitVec 12) (rs2 rs1 : RegIdx) (f3 : BitVec 3) (op : BitVec 7) :
    fieldRs1 (encodeS imm rs2 rs1 f3 op) = rs1 :=
  (extract_high (imm.extractLsb' 5 7 ++ rs2 ++ rs1 ++ f3 ++ imm.extractLsb' 0 5) op 8 _ _ rfl).trans <|
    (extract_high (imm.extractLsb' 5 7 ++ rs2 ++ rs1 ++ f3) (imm.extractLsb' 0 5) 3 _ _ rfl).trans <|
    (extract_high (imm.extractLsb' 5 7 ++ rs2 ++ rs1) f3 0 _ _ rfl).trans <|
    (extract_low (imm.extractLsb' 5 7 ++ rs2) rs1 0 5 (by decide)).trans <|
    extract_all _

@[simp] theorem fieldRs2_encodeS (imm : BitVec 12) (rs2 rs1 : RegIdx) (f3 : BitVec 3) (op : BitVec 7) :
    fieldRs2 (encodeS imm rs2 rs1 f3 op) = rs2 :=
  (extract_high (imm.extractLsb' 5 7 ++ rs2 ++ rs1 ++ f3 ++ imm.extractLsb' 0 5) op 13 _ _ rfl).trans <|
    (extract_high (imm.extractLsb' 5 7 ++ rs2 ++ rs1 ++ f3) (imm.extractLsb' 0 5) 8 _ _ rfl).trans <|
    (extract_high (imm.extractLsb' 5 7 ++ rs2 ++ rs1) f3 5 _ _ rfl).trans <|
    (extract_high (imm.extractLsb' 5 7 ++ rs2) rs1 0 _ _ rfl).trans <|
    (extract_low (imm.extractLsb' 5 7) rs2 0 5 (by decide)).trans <|
    extract_all _

@[simp] theorem fieldImmS_encodeS (imm : BitVec 12) (rs2 rs1 : RegIdx) (f3 : BitVec 3) (op : BitVec 7) :
    fieldImmS (encodeS imm rs2 rs1 f3 op) = imm := by
  have h1 : (encodeS imm rs2 rs1 f3 op).extractLsb' 25 7 = imm.extractLsb' 5 7 := (extract_high (imm.extractLsb' 5 7 ++ rs2 ++ rs1 ++ f3 ++ imm.extractLsb' 0 5) op 18 _ _ rfl).trans <|
    (extract_high (imm.extractLsb' 5 7 ++ rs2 ++ rs1 ++ f3) (imm.extractLsb' 0 5) 13 _ _ rfl).trans <|
    (extract_high (imm.extractLsb' 5 7 ++ rs2 ++ rs1) f3 10 _ _ rfl).trans <|
    (extract_high (imm.extractLsb' 5 7 ++ rs2) rs1 5 _ _ rfl).trans <|
    (extract_high (imm.extractLsb' 5 7) rs2 0 _ _ rfl).trans <|
    extract_all _
  have h2 : (encodeS imm rs2 rs1 f3 op).extractLsb' 7 5 = imm.extractLsb' 0 5 := (extract_high (imm.extractLsb' 5 7 ++ rs2 ++ rs1 ++ f3 ++ imm.extractLsb' 0 5) op 0 _ _ rfl).trans <|
    (extract_low (imm.extractLsb' 5 7 ++ rs2 ++ rs1 ++ f3) (imm.extractLsb' 0 5) 0 5 (by decide)).trans <|
    extract_all _
  rw [fieldImmS, h1, h2]
  exact imm_s_parts imm

/-! Format B. -/

@[simp] theorem fieldOpcode_encodeB (off : BitVec 13) (rs2 rs1 : RegIdx) (f3 : BitVec 3) (op : BitVec 7) :
    fieldOpcode (encodeB off rs2 rs1 f3 op) = op :=
  (extract_low (off.extractLsb' 12 1 ++ off.extractLsb' 5 6 ++ rs2 ++ rs1 ++ f3 ++ off.extractLsb' 1 4 ++ off.extractLsb' 11 1) op 0 7 (by decide)).trans <|
    extract_all _

@[simp] theorem fieldFunct3_encodeB (off : BitVec 13) (rs2 rs1 : RegIdx) (f3 : BitVec 3) (op : BitVec 7) :
    fieldFunct3 (encodeB off rs2 rs1 f3 op) = f3 :=
  (extract_high (off.extractLsb' 12 1 ++ off.extractLsb' 5 6 ++ rs2 ++ rs1 ++ f3 ++ off.extractLsb' 1 4 ++ off.extractLsb' 11 1) op 5 _ _ rfl).trans <|
    (extract_high (off.extractLsb' 12 1 ++ off.extractLsb' 5 6 ++ rs2 ++ rs1 ++ f3 ++ off.extractLsb' 1 4) (off.extractLsb' 11 1) 4 _ _ rfl).trans <|
    (extract_high (off.extractLsb' 12 1 ++ off.extractLsb' 5 6 ++ rs2 ++ rs1 ++ f3) (off.extractLsb' 1 4) 0 _ _ rfl).trans <|
    (extract_low (off.extractLsb' 12 1 ++ off.extractLsb' 5 6 ++ rs2 ++ rs1) f3 0 3 (by decide)).trans <|
    extract_all _

@[simp] theorem fieldRs1_encodeB (off : BitVec 13) (rs2 rs1 : RegIdx) (f3 : BitVec 3) (op : BitVec 7) :
    fieldRs1 (encodeB off rs2 rs1 f3 op) = rs1 :=
  (extract_high (off.extractLsb' 12 1 ++ off.extractLsb' 5 6 ++ rs2 ++ rs1 ++ f3 ++ off.extractLsb' 1 4 ++ off.extractLsb' 11 1) op 8 _ _ rfl).trans <|
    (extract_high (off.extractLsb' 12 1 ++ off.extractLsb' 5 6 ++ rs2 ++ rs1 ++ f3 ++ off.extractLsb' 1 4) (off.extractLsb' 11 1) 7 _ _ rfl).trans <|
    (extract_high (off.extractLsb' 12 1 ++ off.extractLsb' 5 6 ++ rs2 ++ rs1 ++ f3) (off.extractLsb' 1 4) 3 _ _ rfl).trans <|
    (extract_high (off.extractLsb' 12 1 ++ off.extractLsb' 5 6 ++ rs2 ++ rs1) f3 0 _ _ rfl).trans <|
    (extract_low (off.extractLsb' 12 1 ++ off.extractLsb' 5 6 ++ rs2) rs1 0 5 (by decide)).trans <|
    extract_all _

@[simp] theorem fieldRs2_encodeB (off : BitVec 13) (rs2 rs1 : RegIdx) (f3 : BitVec 3) (op : BitVec 7) :
    fieldRs2 (encodeB off rs2 rs1 f3 op) = rs2 :=
  (extract_high (off.extractLsb' 12 1 ++ off.extractLsb' 5 6 ++ rs2 ++ rs1 ++ f3 ++ off.extractLsb' 1 4 ++ off.extractLsb' 11 1) op 13 _ _ rfl).trans <|
    (extract_high (off.extractLsb' 12 1 ++ off.extractLsb' 5 6 ++ rs2 ++ rs1 ++ f3 ++ off.extractLsb' 1 4) (off.extractLsb' 11 1) 12 _ _ rfl).trans <|
    (extract_high (off.extractLsb' 12 1 ++ off.extractLsb' 5 6 ++ rs2 ++ rs1 ++ f3) (off.extractLsb' 1 4) 8 _ _ rfl).trans <|
    (extract_high (off.extractLsb' 12 1 ++ off.extractLsb' 5 6 ++ rs2 ++ rs1) f3 5 _ _ rfl).trans <|
    (extract_high (off.extractLsb' 12 1 ++ off.extractLsb' 5 6 ++ rs2) rs1 0 _ _ rfl).trans <|
    (extract_low (off.extractLsb' 12 1 ++ off.extractLsb' 5 6) rs2 0 5 (by decide)).trans <|
    extract_all _

theorem fieldImmB_encodeB (off : BitVec 13) (rs2 rs1 : RegIdx) (f3 : BitVec 3) (op : BitVec 7) (h : off.getLsbD 0 = false) :
    fieldImmB (encodeB off rs2 rs1 f3 op) = off := by
  have h1 : (encodeB off rs2 rs1 f3 op).extractLsb' 31 1 = off.extractLsb' 12 1 := (extract_high (off.extractLsb' 12 1 ++ off.extractLsb' 5 6 ++ rs2 ++ rs1 ++ f3 ++ off.extractLsb' 1 4 ++ off.extractLsb' 11 1) op 24 _ _ rfl).trans <|
    (extract_high (off.extractLsb' 12 1 ++ off.extractLsb' 5 6 ++ rs2 ++ rs1 ++ f3 ++ off.extractLsb' 1 4) (off.extractLsb' 11 1) 23 _ _ rfl).trans <|
    (extract_high (off.extractLsb' 12 1 ++ off.extractLsb' 5 6 ++ rs2 ++ rs1 ++ f3) (off.extractLsb' 1 4) 19 _ _ rfl).trans <|
    (extract_high (off.extractLsb' 12 1 ++ off.extractLsb' 5 6 ++ rs2 ++ rs1) f3 16 _ _ rfl).trans <|
    (extract_high (off.extractLsb' 12 1 ++ off.extractLsb' 5 6 ++ rs2) rs1 11 _ _ rfl).trans <|
    (extract_high (off.extractLsb' 12 1 ++ off.extractLsb' 5 6) rs2 6 _ _ rfl).trans <|
    (extract_high (off.extractLsb' 12 1) (off.extractLsb' 5 6) 0 _ _ rfl).trans <|
    extract_all _
  have h2 : (encodeB off rs2 rs1 f3 op).extractLsb' 7 1 = off.extractLsb' 11 1 := (extract_high (off.extractLsb' 12 1 ++ off.extractLsb' 5 6 ++ rs2 ++ rs1 ++ f3 ++ off.extractLsb' 1 4 ++ off.extractLsb' 11 1) op 0 _ _ rfl).trans <|
    (extract_low (off.extractLsb' 12 1 ++ off.extractLsb' 5 6 ++ rs2 ++ rs1 ++ f3 ++ off.extractLsb' 1 4) (off.extractLsb' 11 1) 0 1 (by decide)).trans <|
    extract_all _
  have h3 : (encodeB off rs2 rs1 f3 op).extractLsb' 25 6 = off.extractLsb' 5 6 := (extract_high (off.extractLsb' 12 1 ++ off.extractLsb' 5 6 ++ rs2 ++ rs1 ++ f3 ++ off.extractLsb' 1 4 ++ off.extractLsb' 11 1) op 18 _ _ rfl).trans <|
    (extract_high (off.extractLsb' 12 1 ++ off.extractLsb' 5 6 ++ rs2 ++ rs1 ++ f3 ++ off.extractLsb' 1 4) (off.extractLsb' 11 1) 17 _ _ rfl).trans <|
    (extract_high (off.extractLsb' 12 1 ++ off.extractLsb' 5 6 ++ rs2 ++ rs1 ++ f3) (off.extractLsb' 1 4) 13 _ _ rfl).trans <|
    (extract_high (off.extractLsb' 12 1 ++ off.extractLsb' 5 6 ++ rs2 ++ rs1) f3 10 _ _ rfl).trans <|
    (extract_high (off.extractLsb' 12 1 ++ off.extractLsb' 5 6 ++ rs2) rs1 5 _ _ rfl).trans <|
    (extract_high (off.extractLsb' 12 1 ++ off.extractLsb' 5 6) rs2 0 _ _ rfl).trans <|
    (extract_low (off.extractLsb' 12 1) (off.extractLsb' 5 6) 0 6 (by decide)).trans <|
    extract_all _
  have h4 : (encodeB off rs2 rs1 f3 op).extractLsb' 8 4 = off.extractLsb' 1 4 := (extract_high (off.extractLsb' 12 1 ++ off.extractLsb' 5 6 ++ rs2 ++ rs1 ++ f3 ++ off.extractLsb' 1 4 ++ off.extractLsb' 11 1) op 1 _ _ rfl).trans <|
    (extract_high (off.extractLsb' 12 1 ++ off.extractLsb' 5 6 ++ rs2 ++ rs1 ++ f3 ++ off.extractLsb' 1 4) (off.extractLsb' 11 1) 0 _ _ rfl).trans <|
    (extract_low (off.extractLsb' 12 1 ++ off.extractLsb' 5 6 ++ rs2 ++ rs1 ++ f3) (off.extractLsb' 1 4) 0 4 (by decide)).trans <|
    extract_all _
  rw [fieldImmB, h1, h2, h3, h4]
  exact imm_b_parts off h

/-! Format J. -/

@[simp] theorem fieldOpcode_encodeJ (off : BitVec 21) (rd : RegIdx) (op : BitVec 7) :
    fieldOpcode (encodeJ off rd op) = op :=
  (extract_low (off.extractLsb' 20 1 ++ off.extractLsb' 1 10 ++ off.extractLsb' 11 1 ++ off.extractLsb' 12 8 ++ rd) op 0 7 (by decide)).trans <|
    extract_all _

@[simp] theorem fieldRd_encodeJ (off : BitVec 21) (rd : RegIdx) (op : BitVec 7) :
    fieldRd (encodeJ off rd op) = rd :=
  (extract_high (off.extractLsb' 20 1 ++ off.extractLsb' 1 10 ++ off.extractLsb' 11 1 ++ off.extractLsb' 12 8 ++ rd) op 0 _ _ rfl).trans <|
    (extract_low (off.extractLsb' 20 1 ++ off.extractLsb' 1 10 ++ off.extractLsb' 11 1 ++ off.extractLsb' 12 8) rd 0 5 (by decide)).trans <|
    extract_all _

theorem fieldImmJ_encodeJ (off : BitVec 21) (rd : RegIdx) (op : BitVec 7) (h : off.getLsbD 0 = false) :
    fieldImmJ (encodeJ off rd op) = off := by
  have h1 : (encodeJ off rd op).extractLsb' 31 1 = off.extractLsb' 20 1 := (extract_high (off.extractLsb' 20 1 ++ off.extractLsb' 1 10 ++ off.extractLsb' 11 1 ++ off.extractLsb' 12 8 ++ rd) op 24 _ _ rfl).trans <|
    (extract_high (off.extractLsb' 20 1 ++ off.extractLsb' 1 10 ++ off.extractLsb' 11 1 ++ off.extractLsb' 12 8) rd 19 _ _ rfl).trans <|
    (extract_high (off.extractLsb' 20 1 ++ off.extractLsb' 1 10 ++ off.extractLsb' 11 1) (off.extractLsb' 12 8) 11 _ _ rfl).trans <|
    (extract_high (off.extractLsb' 20 1 ++ off.extractLsb' 1 10) (off.extractLsb' 11 1) 10 _ _ rfl).trans <|
    (extract_high (off.extractLsb' 20 1) (off.extractLsb' 1 10) 0 _ _ rfl).trans <|
    extract_all _
  have h2 : (encodeJ off rd op).extractLsb' 12 8 = off.extractLsb' 12 8 := (extract_high (off.extractLsb' 20 1 ++ off.extractLsb' 1 10 ++ off.extractLsb' 11 1 ++ off.extractLsb' 12 8 ++ rd) op 5 _ _ rfl).trans <|
    (extract_high (off.extractLsb' 20 1 ++ off.extractLsb' 1 10 ++ off.extractLsb' 11 1 ++ off.extractLsb' 12 8) rd 0 _ _ rfl).trans <|
    (extract_low (off.extractLsb' 20 1 ++ off.extractLsb' 1 10 ++ off.extractLsb' 11 1) (off.extractLsb' 12 8) 0 8 (by decide)).trans <|
    extract_all _
  have h3 : (encodeJ off rd op).extractLsb' 20 1 = off.extractLsb' 11 1 := (extract_high (off.extractLsb' 20 1 ++ off.extractLsb' 1 10 ++ off.extractLsb' 11 1 ++ off.extractLsb' 12 8 ++ rd) op 13 _ _ rfl).trans <|
    (extract_high (off.extractLsb' 20 1 ++ off.extractLsb' 1 10 ++ off.extractLsb' 11 1 ++ off.extractLsb' 12 8) rd 8 _ _ rfl).trans <|
    (extract_high (off.extractLsb' 20 1 ++ off.extractLsb' 1 10 ++ off.extractLsb' 11 1) (off.extractLsb' 12 8) 0 _ _ rfl).trans <|
    (extract_low (off.extractLsb' 20 1 ++ off.extractLsb' 1 10) (off.extractLsb' 11 1) 0 1 (by decide)).trans <|
    extract_all _
  have h4 : (encodeJ off rd op).extractLsb' 21 10 = off.extractLsb' 1 10 := (extract_high (off.extractLsb' 20 1 ++ off.extractLsb' 1 10 ++ off.extractLsb' 11 1 ++ off.extractLsb' 12 8 ++ rd) op 14 _ _ rfl).trans <|
    (extract_high (off.extractLsb' 20 1 ++ off.extractLsb' 1 10 ++ off.extractLsb' 11 1 ++ off.extractLsb' 12 8) rd 9 _ _ rfl).trans <|
    (extract_high (off.extractLsb' 20 1 ++ off.extractLsb' 1 10 ++ off.extractLsb' 11 1) (off.extractLsb' 12 8) 1 _ _ rfl).trans <|
    (extract_high (off.extractLsb' 20 1 ++ off.extractLsb' 1 10) (off.extractLsb' 11 1) 0 _ _ rfl).trans <|
    (extract_low (off.extractLsb' 20 1) (off.extractLsb' 1 10) 0 10 (by decide)).trans <|
    extract_all _
  rw [fieldImmJ, h1, h2, h3, h4]
  exact imm_j_parts off h

/-! Format U. -/

@[simp] theorem fieldOpcode_encodeU (imm : BitVec 20) (rd : RegIdx) (op : BitVec 7) :
    fieldOpcode (encodeU imm rd op) = op :=
  (extract_low (imm ++ rd) op 0 7 (by decide)).trans <|
    extract_all _

@[simp] theorem fieldRd_encodeU (imm : BitVec 20) (rd : RegIdx) (op : BitVec 7) :
    fieldRd (encodeU imm rd op) = rd :=
  (extract_high (imm ++ rd) op 0 _ _ rfl).trans <|
    (extract_low imm rd 0 5 (by decide)).trans <|
    extract_all _

@[simp] theorem fieldImm20_encodeU (imm : BitVec 20) (rd : RegIdx) (op : BitVec 7) :
    fieldImm20 (encodeU imm rd op) = imm :=
  (extract_high (imm ++ rd) op 5 _ _ rfl).trans <|
    (extract_high imm rd 0 _ _ rfl).trans <|
    extract_all _

/-! The four masks of the opcode table (R95): what is left of a word are its function fields and its opcode. -/

theorem and_mask_opcode (w : InsnWord) :
    w &&& 0x0000007f = (0#25 ++ fieldOpcode w : BitVec (25 + 7)) := by
  unfold fieldOpcode
  apply BitVec.eq_of_getLsbD_eq
  intro i hi
  simp only [BitVec.getLsbD_and, BitVec.getLsbD_append, BitVec.getLsbD_extractLsb']
  interval_cases i <;> simp

theorem and_mask_funct3 (w : InsnWord) :
    w &&& 0x0000707f = (0#17 ++ fieldFunct3 w ++ 0#5 ++ fieldOpcode w : BitVec (17 + 3 + 5 + 7)) := by
  unfold fieldFunct3 fieldOpcode
  apply BitVec.eq_of_getLsbD_eq
  intro i hi
  simp only [BitVec.getLsbD_and, BitVec.getLsbD_append, BitVec.getLsbD_extractLsb']
  interval_cases i <;> simp

theorem and_mask_funct6 (w : InsnWord) :
    w &&& 0xfc00707f = (fieldFunct6 w ++ 0#11 ++ fieldFunct3 w ++ 0#5 ++ fieldOpcode w : BitVec (6 + 11 + 3 + 5 + 7)) := by
  unfold fieldFunct6 fieldFunct3 fieldOpcode
  apply BitVec.eq_of_getLsbD_eq
  intro i hi
  simp only [BitVec.getLsbD_and, BitVec.getLsbD_append, BitVec.getLsbD_extractLsb']
  interval_cases i <;> simp

theorem and_mask_funct7 (w : InsnWord) :
    w &&& 0xfe00707f = (fieldFunct7 w ++ 0#10 ++ fieldFunct3 w ++ 0#5 ++ fieldOpcode w : BitVec (7 + 10 + 3 + 5 + 7)) := by
  unfold fieldFunct7 fieldFunct3 fieldOpcode
  apply BitVec.eq_of_getLsbD_eq
  intro i hi
  simp only [BitVec.getLsbD_and, BitVec.getLsbD_append, BitVec.getLsbD_extractLsb']
  interval_cases i <;> simp

end Sys2Proof
end

