-- ==== Sys2Proof/Laws/State.lean ====
section
/-! SUPPORT. What each update of State does to each field and to each register. -/

namespace Sys2Proof.Machine

@[simp] theorem State.setReg_params (s : State) (i : RegIdx) (v : Word) : (s.setReg i v).params = s.params := by unfold State.setReg; split <;> rfl
@[simp] theorem State.setReg_pc (s : State) (i : RegIdx) (v : Word) : (s.setReg i v).pc = s.pc := by unfold State.setReg; split <;> rfl
@[simp] theorem State.setReg_text (s : State) (i : RegIdx) (v : Word) : (s.setReg i v).text = s.text := by unfold State.setReg; split <;> rfl
@[simp] theorem State.setReg_status (s : State) (i : RegIdx) (v : Word) : (s.setReg i v).status = s.status := by unfold State.setReg; split <;> rfl
@[simp] theorem State.setReg_data (s : State) (i : RegIdx) (v : Word) : (s.setReg i v).data = s.data := by unfold State.setReg; split <;> rfl
@[simp] theorem State.setReg_breakpoints (s : State) (i : RegIdx) (v : Word) : (s.setReg i v).breakpoints = s.breakpoints := by unfold State.setReg; split <;> rfl
@[simp] theorem State.setPc_params (s : State) (a : Word) : (s.setPc a).params = s.params := rfl
@[simp] theorem State.setPc_x (s : State) (a : Word) : (s.setPc a).x = s.x := rfl
@[simp] theorem State.setPc_text (s : State) (a : Word) : (s.setPc a).text = s.text := rfl
@[simp] theorem State.setPc_status (s : State) (a : Word) : (s.setPc a).status = s.status := rfl
@[simp] theorem State.setPc_data (s : State) (a : Word) : (s.setPc a).data = s.data := rfl
@[simp] theorem State.setPc_breakpoints (s : State) (a : Word) : (s.setPc a).breakpoints = s.breakpoints := rfl
@[simp] theorem State.setData_params (s : State) (d : DataSide) : (s.setData d).params = s.params := rfl
@[simp] theorem State.setData_x (s : State) (d : DataSide) : (s.setData d).x = s.x := rfl
@[simp] theorem State.setData_pc (s : State) (d : DataSide) : (s.setData d).pc = s.pc := rfl
@[simp] theorem State.setData_text (s : State) (d : DataSide) : (s.setData d).text = s.text := rfl
@[simp] theorem State.setData_status (s : State) (d : DataSide) : (s.setData d).status = s.status := rfl
@[simp] theorem State.setData_breakpoints (s : State) (d : DataSide) : (s.setData d).breakpoints = s.breakpoints := rfl
@[simp] theorem State.setStatus_params (s : State) (st : Status) : (s.setStatus st).params = s.params := rfl
@[simp] theorem State.setStatus_x (s : State) (st : Status) : (s.setStatus st).x = s.x := rfl
@[simp] theorem State.setStatus_pc (s : State) (st : Status) : (s.setStatus st).pc = s.pc := rfl
@[simp] theorem State.setStatus_text (s : State) (st : Status) : (s.setStatus st).text = s.text := rfl
@[simp] theorem State.setStatus_data (s : State) (st : Status) : (s.setStatus st).data = s.data := rfl
@[simp] theorem State.setStatus_breakpoints (s : State) (st : Status) : (s.setStatus st).breakpoints = s.breakpoints := rfl
@[simp] theorem State.setPc_pc (s : State) (a : Word) : (s.setPc a).pc = a := rfl
@[simp] theorem State.setData_data (s : State) (d : DataSide) : (s.setData d).data = d := rfl
@[simp] theorem State.setStatus_status (s : State) (st : Status) : (s.setStatus st).status = st := rfl

@[simp] theorem State.getReg_zero (s : State) : s.getReg 0#5 = 0#64 := rfl
@[simp] theorem State.setReg_zero (s : State) (v : Word) : s.setReg 0#5 v = s := rfl
@[simp] theorem State.getReg_setPc (s : State) (a : Word) (r : RegIdx) : (s.setPc a).getReg r = s.getReg r := rfl
@[simp] theorem State.getReg_setData (s : State) (d : DataSide) (r : RegIdx) : (s.setData d).getReg r = s.getReg r := rfl
@[simp] theorem State.getReg_setStatus (s : State) (st : Status) (r : RegIdx) : (s.setStatus st).getReg r = s.getReg r := rfl

/-- A register write changes that register alone, and x0 never (R21). -/
@[simp] theorem State.getReg_setReg (s : State) (i r : RegIdx) (v : Word) :
    (s.setReg i v).getReg r = if r = i ∧ r ≠ 0#5 then v else s.getReg r := by
  unfold State.getReg State.setReg
  by_cases hr : r = 0#5
  · simp [hr]
  by_cases hi : i = 0#5
  · simp [hi]
  simp only [hr, hi, if_false, Vector.getElem_set]
  by_cases h : r = i
  · subst h
    simp [hr]
  · have : ¬ i.toNat = r.toNat := fun e => h (BitVec.eq_of_toNat_eq e.symm)
    simp [h, this]

@[simp] theorem State.nextPc_eq (s : State) : s.nextPc = s.pc + 4 := rfl

@[simp] theorem State.endAddr_setPc (s : State) (a : Word) : (s.setPc a).endAddr = s.endAddr := rfl
@[simp] theorem State.endAddr_setStatus (s : State) (st : Status) : (s.setStatus st).endAddr = s.endAddr := rfl
@[simp] theorem State.endAddr_setData (s : State) (d : DataSide) : (s.setData d).endAddr = s.endAddr := rfl
@[simp] theorem State.endAddr_setReg (s : State) (i : RegIdx) (v : Word) : (s.setReg i v).endAddr = s.endAddr := by
  simp [State.endAddr, State.instrCount]

end Sys2Proof.Machine
end

