-- ==== Sys2Proof/Laws/Exec.lean ====
section
/-! SUPPORT. One lemma for each shared operation of the meanings: what it answers, and what that state holds. -/

namespace Sys2Proof.Machine

/-- Taking a fault answers the state whose status records it (R164). -/
theorem takeFault_eq (f : FaultRecord) (s : State) : takeFault f s = .next (s.setStatus (.faulted f)) := rfl

/-- Retiring with a register write: one register, the pc, nothing else (R112). -/
theorem retireReg_ok (rd : RegIdx) (v : Word) (s : State) :
    ∃ t, retireReg rd v s = .next t ∧ RetiresReg s t rd v :=
  ⟨_, rfl, by simp, fun r => by simp, ⟨fun a => by simp, by simp⟩, by simp [SameControl]⟩

/-- The load/store unit in bounds (R134). -/
theorem lsu_load_in {ea : Word} {n : Nat} {wd : Word} {s : State} (h : ea.toNat + n ≤ s.params.dataMemSize) :
    lsu .load ea n wd s = .ok (memRead s.data ea.toNat n).1 (memRead s.data ea.toNat n).2 := by
  simp [lsu, inBounds, h]

theorem lsu_store_in {ea : Word} {n : Nat} {wd : Word} {s : State} (h : ea.toNat + n ≤ s.params.dataMemSize) :
    lsu .store ea n wd s = .ok 0 (memWrite s.data ea.toNat n wd) := by
  simp [lsu, inBounds, h]

/-- The load/store unit out of bounds (R52). -/
theorem lsu_load_out {ea : Word} {n : Nat} {wd : Word} {s : State} (h : s.params.dataMemSize < ea.toNat + n) :
    lsu .load ea n wd s = .fault (.loadAccessFault s.pc ea n) := by
  simp [lsu, inBounds, Nat.not_le.mpr h]

theorem lsu_store_out {ea : Word} {n : Nat} {wd : Word} {s : State} (h : s.params.dataMemSize < ea.toNat + n) :
    lsu .store ea n wd s = .fault (.storeAccessFault s.pc ea n) := by
  simp [lsu, inBounds, Nat.not_le.mpr h]

/-- A load in bounds (R135). -/
theorem loadTemplate_in (w : Width) (e : Extension) (rd rs1 : RegIdx) (imm : BitVec 12) (s : State)
    (h : (effAddr s rs1 imm).toNat + w.bytes ≤ s.params.dataMemSize) :
    loadTemplate w e rd rs1 imm s =
      .next (((s.setData (memRead s.data (effAddr s rs1 imm).toNat w.bytes).2).setReg rd
        (extend e w.bytes (memRead s.data (effAddr s rs1 imm).toNat w.bytes).1)).setPc (s.pc + 4)) := by
  rw [loadTemplate, lsu_load_in h]
  rfl

/-- A load out of bounds (R135). -/
theorem loadTemplate_out (w : Width) (e : Extension) (rd rs1 : RegIdx) (imm : BitVec 12) (s : State)
    (h : s.params.dataMemSize < (effAddr s rs1 imm).toNat + w.bytes) :
    loadTemplate w e rd rs1 imm s = takeFault (.loadAccessFault s.pc (effAddr s rs1 imm) w.bytes) s := by
  rw [loadTemplate, lsu_load_out h]

/-- A store in bounds (R136). -/
theorem storeTemplate_in (w : Width) (rs2 rs1 : RegIdx) (imm : BitVec 12) (s : State)
    (h : (effAddr s rs1 imm).toNat + w.bytes ≤ s.params.dataMemSize) :
    storeTemplate w rs2 rs1 imm s =
      .next ((s.setData (memWrite s.data (effAddr s rs1 imm).toNat w.bytes (s.getReg rs2))).setPc (s.pc + 4)) := by
  rw [storeTemplate, lsu_store_in h]
  rfl

/-- A store out of bounds (R136). -/
theorem storeTemplate_out (w : Width) (rs2 rs1 : RegIdx) (imm : BitVec 12) (s : State)
    (h : s.params.dataMemSize < (effAddr s rs1 imm).toNat + w.bytes) :
    storeTemplate w rs2 rs1 imm s = takeFault (.storeAccessFault s.pc (effAddr s rs1 imm) w.bytes) s := by
  rw [storeTemplate, lsu_store_out h]

/-- A load always answers a next state: the loaded one or the faulted one. -/
theorem loadTemplate_cases (w : Width) (e : Extension) (rd rs1 : RegIdx) (imm : BitVec 12) (s : State) :
    ((effAddr s rs1 imm).toNat + w.bytes ≤ s.params.dataMemSize ∧ loadTemplate w e rd rs1 imm s =
      .next (((s.setData (memRead s.data (effAddr s rs1 imm).toNat w.bytes).2).setReg rd
        (extend e w.bytes (memRead s.data (effAddr s rs1 imm).toNat w.bytes).1)).setPc (s.pc + 4))) ∨
    loadTemplate w e rd rs1 imm s = takeFault (.loadAccessFault s.pc (effAddr s rs1 imm) w.bytes) s := by
  rcases Nat.lt_or_ge s.params.dataMemSize ((effAddr s rs1 imm).toNat + w.bytes) with h | h
  · exact .inr (loadTemplate_out w e rd rs1 imm s h)
  · exact .inl ⟨h, loadTemplate_in w e rd rs1 imm s h⟩

/-- A store always answers a next state: the stored one or the faulted one. -/
theorem storeTemplate_cases (w : Width) (rs2 rs1 : RegIdx) (imm : BitVec 12) (s : State) :
    ((effAddr s rs1 imm).toNat + w.bytes ≤ s.params.dataMemSize ∧ storeTemplate w rs2 rs1 imm s =
      .next ((s.setData (memWrite s.data (effAddr s rs1 imm).toNat w.bytes (s.getReg rs2))).setPc (s.pc + 4))) ∨
    storeTemplate w rs2 rs1 imm s = takeFault (.storeAccessFault s.pc (effAddr s rs1 imm) w.bytes) s := by
  rcases Nat.lt_or_ge s.params.dataMemSize ((effAddr s rs1 imm).toNat + w.bytes) with h | h
  · exact .inr (storeTemplate_out w rs2 rs1 imm s h)
  · exact .inl ⟨h, storeTemplate_in w rs2 rs1 imm s h⟩

/-- The four ways an instruction ends: it writes one register and moves the pc (R-type, I-alu, lui, jal, jalr, a branch writes x0, that is none);
it loads; it stores; it takes an access fault. -/
def ExecEnds (i : Instr) (s : State) : Prop :=
    (∃ rd v a, exec i s = .next ((s.setReg rd v).setPc a)) ∨
    (∃ (w : Width) (a : Nat) (rd : RegIdx) (v : Word), a + w.bytes ≤ s.params.dataMemSize ∧
      exec i s = .next (((s.setData (memRead s.data a w.bytes).2).setReg rd v).setPc (s.pc + 4))) ∨
    (∃ (w : Width) (a : Nat) (v : Word), a + w.bytes ≤ s.params.dataMemSize ∧
      exec i s = .next ((s.setData (memWrite s.data a w.bytes v)).setPc (s.pc + 4))) ∨
    (∃ f, f.pc = s.pc ∧ exec i s = .next (s.setStatus (.faulted f)))

/-- Every instruction ends in one of those ways. -/
theorem exec_cases (i : Instr) (s : State) : ExecEnds i s := by
  have load : ∀ (w : Width) (e : Extension) (rd rs1 : RegIdx) (imm : BitVec 12), exec i s = loadTemplate w e rd rs1 imm s → ExecEnds i s := by
    intro w e rd rs1 imm hi
    rcases loadTemplate_cases w e rd rs1 imm s with ⟨h, h'⟩ | h
    · exact Or.inr (Or.inl ⟨w, _, rd, _, h, hi.trans h'⟩)
    · exact Or.inr (Or.inr (Or.inr ⟨_, rfl, hi.trans h⟩))
  have store : ∀ (w : Width) (rs2 rs1 : RegIdx) (imm : BitVec 12), exec i s = storeTemplate w rs2 rs1 imm s → ExecEnds i s := by
    intro w rs2 rs1 imm hi
    rcases storeTemplate_cases w rs2 rs1 imm s with ⟨h, h'⟩ | h
    · exact Or.inr (Or.inr (Or.inl ⟨w, _, _, h, hi.trans h'⟩))
    · exact Or.inr (Or.inr (Or.inr ⟨_, rfl, hi.trans h⟩))
  cases i with
  | lb rd rs1 imm => exact load .byte .sext rd rs1 imm rfl
  | lh rd rs1 imm => exact load .half .sext rd rs1 imm rfl
  | lw rd rs1 imm => exact load .word .sext rd rs1 imm rfl
  | ld rd rs1 imm => exact load .double .sext rd rs1 imm rfl
  | lbu rd rs1 imm => exact load .byte .zext rd rs1 imm rfl
  | lhu rd rs1 imm => exact load .half .zext rd rs1 imm rfl
  | lwu rd rs1 imm => exact load .word .zext rd rs1 imm rfl
  | sb rs2 rs1 imm => exact store .byte rs2 rs1 imm rfl
  | sh rs2 rs1 imm => exact store .half rs2 rs1 imm rfl
  | sw rs2 rs1 imm => exact store .word rs2 rs1 imm rfl
  | sd rs2 rs1 imm => exact store .double rs2 rs1 imm rfl
  | beq _ _ _ => exact Or.inl ⟨0#5, 0, _, rfl⟩
  | bne _ _ _ => exact Or.inl ⟨0#5, 0, _, rfl⟩
  | blt _ _ _ => exact Or.inl ⟨0#5, 0, _, rfl⟩
  | bge _ _ _ => exact Or.inl ⟨0#5, 0, _, rfl⟩
  | bltu _ _ _ => exact Or.inl ⟨0#5, 0, _, rfl⟩
  | bgeu _ _ _ => exact Or.inl ⟨0#5, 0, _, rfl⟩
  | _ => exact Or.inl ⟨_, _, _, rfl⟩

/-- What a step can do (R148, R149): nothing when not Ready; a fetch fault, the end, an illegal word, or the decoded instruction. -/
theorem step_cases (s : State) :
    (s.status ≠ .ready ∧ step s = .next s) ∨
    (s.status = .ready ∧
      ((∃ f, fetch s = .fault f ∧ f.pc = s.pc ∧ step s = .next (s.setStatus (.faulted f))) ∨
      (fetch s = .ended ∧ s.pc.getLsbD 63 = false ∧ s.endAddr ≤ s.pc.toNat ∧ step s = .next (s.setStatus .ended)) ∨
      (∃ w, fetch s = .word w ∧ decode w = .illegal ∧ step s = .next (s.setStatus (.faulted (.illegalInstruction s.pc w)))) ∨
      (∃ w i, fetch s = .word w ∧ decode w = .legal i ∧ step s = exec i s))) := by
  unfold step stepWhenReady
  cases hst : s.status with
  | ready =>
    refine .inr ⟨rfl, ?_⟩
    unfold cycle
    cases hf : fetch s with
    | fault f =>
      refine .inl ⟨f, rfl, ?_, rfl⟩
      unfold fetch at hf
      split at hf
      · cases hf; rfl
      · split at hf
        · cases hf
        · split at hf
          · cases hf; rfl
          · cases hf
    | ended =>
      refine .inr (.inl ⟨rfl, ?_⟩)
      unfold fetch at hf
      split at hf
      · cases hf
      · next h1 =>
        split at hf
        · next h2 => exact ⟨by simpa using h1, h2, rfl⟩
        · split at hf <;> cases hf
    | word w =>
      refine .inr (.inr ?_)
      simp only [decodeExecute]
      cases hd : decode w with
      | illegal => exact .inl ⟨w, rfl, hd, rfl⟩
      | legal i => exact .inr ⟨w, i, rfl, hd, rfl⟩
  | unloaded => exact .inl ⟨by simp, rfl⟩
  | ended => exact .inl ⟨by simp, rfl⟩
  | faulted f => exact .inl ⟨by simp, rfl⟩

/-- Every instruction answers a next state. -/
theorem exec_next (i : Instr) (s : State) : ∃ t, exec i s = .next t := by
  rcases exec_cases i s with ⟨_, _, _, h⟩ | ⟨_, _, _, _, _, h⟩ | ⟨_, _, _, _, h⟩ | ⟨_, _, h⟩ <;> exact ⟨_, h⟩

/-- Every step answers a next state. -/
theorem step_next (s : State) : ∃ t, step s = .next t := by
  rcases step_cases s with ⟨_, h⟩ | ⟨_, ⟨_, _, _, h⟩ | ⟨_, _, _, h⟩ | ⟨_, _, _, h⟩ | ⟨_, i, _, _, h⟩⟩
  · exact ⟨_, h⟩
  · exact ⟨_, h⟩
  · exact ⟨_, h⟩
  · exact ⟨_, h⟩
  · exact h ▸ exec_next i s

end Sys2Proof.Machine
end

