-- ==== Sys2Proof/Laws/PerInstr.lean ====
section
/-! SUPPORT. One lemma per instruction: its word carries the constant fields of its row of the opcode table (R95, R106). -/

namespace Sys2Proof.Laws.EncodeRow

/-- The encoded word matches the instruction's own row. -/
def Statement (i : Instr) : Prop := encode i &&& i.op.mask = i.op.matchBits

theorem add (rd : RegIdx) (rs1 : RegIdx) (rs2 : RegIdx) : Statement (.add rd rs1 rs2) := by
  refine (and_mask_funct7 _).trans ?_
  simp [encode, Instr.op, Op.matchBits]

theorem sub (rd : RegIdx) (rs1 : RegIdx) (rs2 : RegIdx) : Statement (.sub rd rs1 rs2) := by
  refine (and_mask_funct7 _).trans ?_
  simp [encode, Instr.op, Op.matchBits]

theorem sll (rd : RegIdx) (rs1 : RegIdx) (rs2 : RegIdx) : Statement (.sll rd rs1 rs2) := by
  refine (and_mask_funct7 _).trans ?_
  simp [encode, Instr.op, Op.matchBits]

theorem xor (rd : RegIdx) (rs1 : RegIdx) (rs2 : RegIdx) : Statement (.xor rd rs1 rs2) := by
  refine (and_mask_funct7 _).trans ?_
  simp [encode, Instr.op, Op.matchBits]

theorem srl (rd : RegIdx) (rs1 : RegIdx) (rs2 : RegIdx) : Statement (.srl rd rs1 rs2) := by
  refine (and_mask_funct7 _).trans ?_
  simp [encode, Instr.op, Op.matchBits]

theorem sra (rd : RegIdx) (rs1 : RegIdx) (rs2 : RegIdx) : Statement (.sra rd rs1 rs2) := by
  refine (and_mask_funct7 _).trans ?_
  simp [encode, Instr.op, Op.matchBits]

theorem or (rd : RegIdx) (rs1 : RegIdx) (rs2 : RegIdx) : Statement (.or rd rs1 rs2) := by
  refine (and_mask_funct7 _).trans ?_
  simp [encode, Instr.op, Op.matchBits]

theorem and (rd : RegIdx) (rs1 : RegIdx) (rs2 : RegIdx) : Statement (.and rd rs1 rs2) := by
  refine (and_mask_funct7 _).trans ?_
  simp [encode, Instr.op, Op.matchBits]

theorem addi (rd : RegIdx) (rs1 : RegIdx) (imm : BitVec 12) : Statement (.addi rd rs1 imm) := by
  refine (and_mask_funct3 _).trans ?_
  simp [encode, Instr.op, Op.matchBits]

theorem slti (rd : RegIdx) (rs1 : RegIdx) (imm : BitVec 12) : Statement (.slti rd rs1 imm) := by
  refine (and_mask_funct3 _).trans ?_
  simp [encode, Instr.op, Op.matchBits]

theorem sltiu (rd : RegIdx) (rs1 : RegIdx) (imm : BitVec 12) : Statement (.sltiu rd rs1 imm) := by
  refine (and_mask_funct3 _).trans ?_
  simp [encode, Instr.op, Op.matchBits]

theorem xori (rd : RegIdx) (rs1 : RegIdx) (imm : BitVec 12) : Statement (.xori rd rs1 imm) := by
  refine (and_mask_funct3 _).trans ?_
  simp [encode, Instr.op, Op.matchBits]

theorem ori (rd : RegIdx) (rs1 : RegIdx) (imm : BitVec 12) : Statement (.ori rd rs1 imm) := by
  refine (and_mask_funct3 _).trans ?_
  simp [encode, Instr.op, Op.matchBits]

theorem andi (rd : RegIdx) (rs1 : RegIdx) (imm : BitVec 12) : Statement (.andi rd rs1 imm) := by
  refine (and_mask_funct3 _).trans ?_
  simp [encode, Instr.op, Op.matchBits]

theorem slli (rd : RegIdx) (rs1 : RegIdx) (shamt : BitVec 6) : Statement (.slli rd rs1 shamt) := by
  refine (and_mask_funct6 _).trans ?_
  simp [encode, Instr.op, Op.matchBits]

theorem srli (rd : RegIdx) (rs1 : RegIdx) (shamt : BitVec 6) : Statement (.srli rd rs1 shamt) := by
  refine (and_mask_funct6 _).trans ?_
  simp [encode, Instr.op, Op.matchBits]

theorem srai (rd : RegIdx) (rs1 : RegIdx) (shamt : BitVec 6) : Statement (.srai rd rs1 shamt) := by
  refine (and_mask_funct6 _).trans ?_
  simp [encode, Instr.op, Op.matchBits]

theorem lui (rd : RegIdx) (imm20 : BitVec 20) : Statement (.lui rd imm20) := by
  refine (and_mask_opcode _).trans ?_
  simp [encode, Instr.op, Op.matchBits]

theorem lb (rd : RegIdx) (rs1 : RegIdx) (imm : BitVec 12) : Statement (.lb rd rs1 imm) := by
  refine (and_mask_funct3 _).trans ?_
  simp [encode, Instr.op, Op.matchBits]

theorem lh (rd : RegIdx) (rs1 : RegIdx) (imm : BitVec 12) : Statement (.lh rd rs1 imm) := by
  refine (and_mask_funct3 _).trans ?_
  simp [encode, Instr.op, Op.matchBits]

theorem lw (rd : RegIdx) (rs1 : RegIdx) (imm : BitVec 12) : Statement (.lw rd rs1 imm) := by
  refine (and_mask_funct3 _).trans ?_
  simp [encode, Instr.op, Op.matchBits]

theorem ld (rd : RegIdx) (rs1 : RegIdx) (imm : BitVec 12) : Statement (.ld rd rs1 imm) := by
  refine (and_mask_funct3 _).trans ?_
  simp [encode, Instr.op, Op.matchBits]

theorem lbu (rd : RegIdx) (rs1 : RegIdx) (imm : BitVec 12) : Statement (.lbu rd rs1 imm) := by
  refine (and_mask_funct3 _).trans ?_
  simp [encode, Instr.op, Op.matchBits]

theorem lhu (rd : RegIdx) (rs1 : RegIdx) (imm : BitVec 12) : Statement (.lhu rd rs1 imm) := by
  refine (and_mask_funct3 _).trans ?_
  simp [encode, Instr.op, Op.matchBits]

theorem lwu (rd : RegIdx) (rs1 : RegIdx) (imm : BitVec 12) : Statement (.lwu rd rs1 imm) := by
  refine (and_mask_funct3 _).trans ?_
  simp [encode, Instr.op, Op.matchBits]

theorem sb (rs2 : RegIdx) (rs1 : RegIdx) (imm : BitVec 12) : Statement (.sb rs2 rs1 imm) := by
  refine (and_mask_funct3 _).trans ?_
  simp [encode, Instr.op, Op.matchBits]

theorem sh (rs2 : RegIdx) (rs1 : RegIdx) (imm : BitVec 12) : Statement (.sh rs2 rs1 imm) := by
  refine (and_mask_funct3 _).trans ?_
  simp [encode, Instr.op, Op.matchBits]

theorem sw (rs2 : RegIdx) (rs1 : RegIdx) (imm : BitVec 12) : Statement (.sw rs2 rs1 imm) := by
  refine (and_mask_funct3 _).trans ?_
  simp [encode, Instr.op, Op.matchBits]

theorem sd (rs2 : RegIdx) (rs1 : RegIdx) (imm : BitVec 12) : Statement (.sd rs2 rs1 imm) := by
  refine (and_mask_funct3 _).trans ?_
  simp [encode, Instr.op, Op.matchBits]

theorem jalr (rd : RegIdx) (rs1 : RegIdx) (imm : BitVec 12) : Statement (.jalr rd rs1 imm) := by
  refine (and_mask_funct3 _).trans ?_
  simp [encode, Instr.op, Op.matchBits]

theorem beq (rs1 : RegIdx) (rs2 : RegIdx) (off : BitVec 13) : Statement (.beq rs1 rs2 off) := by
  refine (and_mask_funct3 _).trans ?_
  simp [encode, Instr.op, Op.matchBits]

theorem bne (rs1 : RegIdx) (rs2 : RegIdx) (off : BitVec 13) : Statement (.bne rs1 rs2 off) := by
  refine (and_mask_funct3 _).trans ?_
  simp [encode, Instr.op, Op.matchBits]

theorem blt (rs1 : RegIdx) (rs2 : RegIdx) (off : BitVec 13) : Statement (.blt rs1 rs2 off) := by
  refine (and_mask_funct3 _).trans ?_
  simp [encode, Instr.op, Op.matchBits]

theorem bge (rs1 : RegIdx) (rs2 : RegIdx) (off : BitVec 13) : Statement (.bge rs1 rs2 off) := by
  refine (and_mask_funct3 _).trans ?_
  simp [encode, Instr.op, Op.matchBits]

theorem bltu (rs1 : RegIdx) (rs2 : RegIdx) (off : BitVec 13) : Statement (.bltu rs1 rs2 off) := by
  refine (and_mask_funct3 _).trans ?_
  simp [encode, Instr.op, Op.matchBits]

theorem bgeu (rs1 : RegIdx) (rs2 : RegIdx) (off : BitVec 13) : Statement (.bgeu rs1 rs2 off) := by
  refine (and_mask_funct3 _).trans ?_
  simp [encode, Instr.op, Op.matchBits]

theorem jal (rd : RegIdx) (off : BitVec 21) : Statement (.jal rd off) := by
  refine (and_mask_opcode _).trans ?_
  simp [encode, Instr.op, Op.matchBits]

end Sys2Proof.Laws.EncodeRow
end

