-- ==== Sys2Proof/Tests/Slice0.lean ====
section
/-! SUPPORT. The model's own tests. Expected results are the spec's: its worked words (30_encoding.md to 42_control.md) and 95_test_vectors.md,
named in each comment. At the end, one witness for every obligation with hypotheses. -/

namespace Sys2Proof.Tests

open Sys2Proof.Machine

/-! Small states. -/

/-- A Ready block after reset with the given registers. -/
def withRegs (rs : List (RegIdx × Word)) : State := rs.foldl (fun s p => s.setReg p.1 p.2) State.reset

/-- The same at a given pc. -/
def atPc (pc : Word) (rs : List (RegIdx × Word)) : State := (withRegs rs).setPc pc

/-- The same with bytes in MEM from an address up. -/
def withBytes (a : Nat) (bs : List Byte) (rs : List (RegIdx × Word)) : State :=
  (withRegs rs).setData { DataSide.zero with mem := writeBytes [] a bs }

/-- The same with a program. -/
def withText (words : List InsnWord) (rs : List (RegIdx × Word)) : State := { withRegs rs with text := words }

/-- The next state, if there is one. -/
def nextOf (o : Host.Outcome State Fault Refusal) : Option State :=
  match o with
  | .next t => some t
  | .fault _ => none
  | .refused _ => none

/-- One register and the pc after an instruction. -/
def regAndPc (i : Instr) (s : State) (r : RegIdx) : Option (Word × Word) := (nextOf (exec i s)).map fun t => (t.getReg r, t.pc)

/-- The pc after an instruction. -/
def pcAfter (i : Instr) (s : State) : Option Word := (nextOf (exec i s)).map fun t => t.pc

/-- The status after an instruction. -/
def statusAfter (i : Instr) (s : State) : Option Status := (nextOf (exec i s)).map fun t => t.status

/-- Bytes of MEM after an instruction. -/
def bytesAfter (i : Instr) (s : State) (a n : Nat) : Option (List Byte) := (nextOf (exec i s)).map fun t => readBytes t.data.mem a n

/-! WellFormed: every check refuses an ill-formed term (R93: bit 0 of a B or J offset is not stored). -/

theorem test_wf_beq_odd : (Instr.beq 1 2 7).wellFormed = false := by decide
theorem test_wf_bne_odd : (Instr.bne 1 2 7).wellFormed = false := by decide
theorem test_wf_blt_odd : (Instr.blt 1 2 7).wellFormed = false := by decide
theorem test_wf_bge_odd : (Instr.bge 1 2 7).wellFormed = false := by decide
theorem test_wf_bltu_odd : (Instr.bltu 1 2 7).wellFormed = false := by decide
theorem test_wf_bgeu_odd : (Instr.bgeu 1 2 7).wellFormed = false := by decide
theorem test_wf_jal_odd : (Instr.jal 1 (-3)).wellFormed = false := by decide
theorem test_wf_even : (Instr.beq 1 2 (-4096)).wellFormed = true ∧ (Instr.jal 0 1048574).wellFormed = true := by decide

/-! Decoding: one word of each format written out bit by bit from R87 to R92. -/

/-- R87, worked word of add x1, x2, x3. -/
theorem test_bits_add : decode (0b0000000#7 ++ 0b00011#5 ++ 0b00010#5 ++ 0b000#3 ++ 0b00001#5 ++ 0b0110011#7) = .legal (.add 1 2 3) := by decide
/-- R88: addi x5, x0, 10. -/
theorem test_bits_addi : decode (0b000000001010#12 ++ 0b00000#5 ++ 0b000#3 ++ 0b00101#5 ++ 0b0010011#7) = .legal (.addi 5 0 10) := by decide
/-- R88, shift form: srai x1, x2, 33 (shamt bit 5 set). -/
theorem test_bits_srai : decode (0b010000#6 ++ 0b100001#6 ++ 0b00010#5 ++ 0b101#3 ++ 0b00001#5 ++ 0b0010011#7) = .legal (.srai 1 2 33) := by decide
/-- R88: lhu x1, -2(x2). -/
theorem test_bits_lhu : decode (0b111111111110#12 ++ 0b00010#5 ++ 0b101#3 ++ 0b00001#5 ++ 0b0000011#7) = .legal (.lhu 1 2 (-2)) := by decide
/-- R88: jalr x1, 4(x5). -/
theorem test_bits_jalr : decode (0b000000000100#12 ++ 0b00101#5 ++ 0b000#3 ++ 0b00001#5 ++ 0b1100111#7) = .legal (.jalr 1 5 4) := by decide
/-- R89: sd x1, -8(x2), immediate 1111111 11000. -/
theorem test_bits_sd : decode (0b1111111#7 ++ 0b00001#5 ++ 0b00010#5 ++ 0b011#3 ++ 0b11000#5 ++ 0b0100011#7) = .legal (.sd 1 2 (-8)) := by decide
/-- R90: bne x11, x12, -2048: imm[12] = 1, imm[11] = 1, the rest 0. -/
theorem test_bits_bne : decode (0b1#1 ++ 0b000000#6 ++ 0b01100#5 ++ 0b01011#5 ++ 0b001#3 ++ 0b0000#4 ++ 0b1#1 ++ 0b1100011#7) = .legal (.bne 11 12 (-2048)) := by
  decide
/-- R91: jal x1, 2048 + 4096: imm[11] = 1, imm[12] = 1. -/
theorem test_bits_jal : decode (0b0#1 ++ 0b0000000000#10 ++ 0b1#1 ++ 0b00000001#8 ++ 0b00001#5 ++ 0b1101111#7) = .legal (.jal 1 6144) := by decide
/-- R92: lui x1, 0x80001. -/
theorem test_bits_lui : decode (0b10000000000000000001#20 ++ 0b00001#5 ++ 0b0110111#7) = .legal (.lui 1 0x80001) := by decide

/-! Every constructor by the word the spec prints for it (R114 to R161). -/

theorem test_words_r :
    decode 0x002081b3 = .legal (.add 3 1 2) ∧
    decode 0x402081b3 = .legal (.sub 3 1 2) ∧
    decode 0x002091b3 = .legal (.sll 3 1 2) ∧
    decode 0x0020c1b3 = .legal (.xor 3 1 2) ∧
    decode 0x0020d1b3 = .legal (.srl 3 1 2) ∧
    decode 0x4020d1b3 = .legal (.sra 3 1 2) ∧
    decode 0x0020e1b3 = .legal (.or 3 1 2) ∧
    decode 0x0020f1b3 = .legal (.and 3 1 2) := by decide
theorem test_encode_r :
    encode (.add 3 1 2) = 0x002081b3 ∧
    encode (.sub 3 1 2) = 0x402081b3 ∧
    encode (.sll 3 1 2) = 0x002091b3 ∧
    encode (.xor 3 1 2) = 0x0020c1b3 ∧
    encode (.srl 3 1 2) = 0x0020d1b3 ∧
    encode (.sra 3 1 2) = 0x4020d1b3 ∧
    encode (.or 3 1 2) = 0x0020e1b3 ∧
    encode (.and 3 1 2) = 0x0020f1b3 := by decide
theorem test_words_i_alu :
    decode 0x00a00293 = .legal (.addi 5 0 10) ∧
    decode 0xfff12093 = .legal (.slti 1 2 (-1)) ∧
    decode 0xfff13093 = .legal (.sltiu 1 2 (-1)) ∧
    decode 0xfff14093 = .legal (.xori 1 2 (-1)) ∧
    decode 0x10016093 = .legal (.ori 1 2 256) ∧
    decode 0x7ff17093 = .legal (.andi 1 2 2047) ∧
    decode 0x03f11093 = .legal (.slli 1 2 63) ∧
    decode 0x00415093 = .legal (.srli 1 2 4) ∧
    decode 0x40415093 = .legal (.srai 1 2 4) ∧
    decode 0x123450b7 = .legal (.lui 1 0x12345) := by decide
theorem test_encode_i_alu :
    encode (.addi 5 0 10) = 0x00a00293 ∧
    encode (.slti 1 2 (-1)) = 0xfff12093 ∧
    encode (.sltiu 1 2 (-1)) = 0xfff13093 ∧
    encode (.xori 1 2 (-1)) = 0xfff14093 ∧
    encode (.ori 1 2 256) = 0x10016093 ∧
    encode (.andi 1 2 2047) = 0x7ff17093 ∧
    encode (.slli 1 2 63) = 0x03f11093 ∧
    encode (.srli 1 2 4) = 0x00415093 ∧
    encode (.srai 1 2 4) = 0x40415093 ∧
    encode (.lui 1 0x12345) = 0x123450b7 := by decide
theorem test_words_loads :
    decode 0xfff10083 = .legal (.lb 1 2 (-1)) ∧
    decode 0x00211083 = .legal (.lh 1 2 2) ∧
    decode 0x00412083 = .legal (.lw 1 2 4) ∧
    decode 0x00813083 = .legal (.ld 1 2 8) ∧
    decode 0x00014083 = .legal (.lbu 1 2 0) ∧
    decode 0x00215083 = .legal (.lhu 1 2 2) ∧
    decode 0x00416083 = .legal (.lwu 1 2 4) := by decide
theorem test_encode_loads :
    encode (.lb 1 2 (-1)) = 0xfff10083 ∧
    encode (.lh 1 2 2) = 0x00211083 ∧
    encode (.lw 1 2 4) = 0x00412083 ∧
    encode (.ld 1 2 8) = 0x00813083 ∧
    encode (.lbu 1 2 0) = 0x00014083 ∧
    encode (.lhu 1 2 2) = 0x00215083 ∧
    encode (.lwu 1 2 4) = 0x00416083 := by decide
theorem test_words_stores :
    decode 0x00110023 = .legal (.sb 1 2 0) ∧
    decode 0x00111123 = .legal (.sh 1 2 2) ∧
    decode 0x00112223 = .legal (.sw 1 2 4) ∧
    decode 0xfe113c23 = .legal (.sd 1 2 (-8)) := by decide
theorem test_encode_stores :
    encode (.sb 1 2 0) = 0x00110023 ∧
    encode (.sh 1 2 2) = 0x00111123 ∧
    encode (.sw 1 2 4) = 0x00112223 ∧
    encode (.sd 1 2 (-8)) = 0xfe113c23 := by decide
theorem test_words_control :
    decode 0x004280e7 = .legal (.jalr 1 5 4) ∧
    decode 0x00208463 = .legal (.beq 1 2 8) ∧
    decode 0xfe209ee3 = .legal (.bne 1 2 (-4)) ∧
    decode 0x0020c663 = .legal (.blt 1 2 12) ∧
    decode 0xfe20dce3 = .legal (.bge 1 2 (-8)) ∧
    decode 0x0020e863 = .legal (.bltu 1 2 16) ∧
    decode 0x0020f263 = .legal (.bgeu 1 2 4) ∧
    decode 0xffdff06f = .legal (.jal 0 (-4)) := by decide
theorem test_encode_control :
    encode (.jalr 1 5 4) = 0x004280e7 ∧
    encode (.beq 1 2 8) = 0x00208463 ∧
    encode (.bne 1 2 (-4)) = 0xfe209ee3 ∧
    encode (.blt 1 2 12) = 0x0020c663 ∧
    encode (.bge 1 2 (-8)) = 0xfe20dce3 ∧
    encode (.bltu 1 2 16) = 0x0020e863 ∧
    encode (.bgeu 1 2 4) = 0x0020f263 ∧
    encode (.jal 0 (-4)) = 0xffdff06f := by decide
/-- L2.1: illegal words. -/
theorem test_illegal :
    decode 0x00000000 = .illegal ∧
    decode 0xffffffff = .illegal ∧
    decode 0x00002033 = .illegal ∧
    decode 0x00003033 = .illegal ∧
    decode 0x02000033 = .illegal ∧
    decode 0x42005033 = .illegal ∧
    decode 0x80001013 = .illegal ∧
    decode 0x40001013 = .illegal ∧
    decode 0x7c005013 = .illegal ∧
    decode 0x00007003 = .illegal ∧
    decode 0x00004023 = .illegal ∧
    decode 0x00001067 = .illegal ∧
    decode 0x00002063 = .illegal ∧
    decode 0x00000017 = .illegal ∧
    decode 0x0000001b = .illegal ∧
    decode 0x0000003b = .illegal ∧
    decode 0x0000000f = .illegal ∧
    decode 0x00000073 = .illegal ∧
    decode 0x00100073 = .illegal := by decide
/-- L2.1: legal words with zero fields and shamt bit 5. -/
theorem test_legal_corners : decode 0x00000013 = .legal (.addi 0 0 0) ∧ decode 0x02001013 = .legal (.slli 0 0 32) ∧
    decode 0x40005013 = .legal (.srai 0 0 0) ∧ decode 0x00000037 = .legal (.lui 0 0) := by decide
/-- L1.9: the extreme immediates. -/
theorem test_extreme_words : decode 0x80113023 = .legal (.sd 1 2 (-2048)) ∧ decode 0x7e110fa3 = .legal (.sb 1 2 2047) ∧
    decode 0x80000063 = .legal (.beq 0 0 (-4096)) ∧ decode 0x7e000fe3 = .legal (.beq 0 0 4094) ∧ decode 0x800000ef = .legal (.jal 1 (-1048576)) ∧
    decode 0x7ffff06f = .legal (.jal 0 1048574) ∧ decode 0xfffff0b7 = .legal (.lui 1 0xfffff) := by decide
theorem test_table_word : decodeTableWord 32 0x4020d1b3 = some (.sra 3 1 2) ∧ decodeTableWord 32 0 = none := by decide

/-! One step of each instruction (L2.3 to L2.6 and the examples of R114 to R161). -/

theorem test_add_wraps : regAndPc (.add 3 1 2) (withRegs [(1, 0x7fffffffffffffff), (2, 1)]) 3 = some (0x8000000000000000, 4) := by decide
theorem test_add_doubles : regAndPc (.add 1 1 1) (withRegs [(1, 0x40)]) 1 = some (0x80, 4) := by decide
theorem test_sub_borrows : regAndPc (.sub 3 1 2) (withRegs [(1, 0), (2, 1)]) 3 = some (0xffffffffffffffff, 4) := by decide
theorem test_sub_min : regAndPc (.sub 3 1 2) (withRegs [(1, 0x8000000000000000), (2, 1)]) 3 = some (0x7fffffffffffffff, 4) := by decide
theorem test_sll_65 : regAndPc (.sll 3 1 2) (withRegs [(1, 1), (2, 65)]) 3 = some (2, 4) := by decide
theorem test_sll_63 : regAndPc (.sll 3 1 2) (withRegs [(1, 1), (2, 63)]) 3 = some (0x8000000000000000, 4) := by decide
theorem test_xor_bits : regAndPc (.xor 3 1 2) (withRegs [(1, 0xffffffffffffffff), (2, 0x5555)]) 3 = some (0xffffffffffffaaaa, 4) := by decide
theorem test_srl_63 : regAndPc (.srl 3 1 2) (withRegs [(1, 0x8000000000000000), (2, 63)]) 3 = some (1, 4) := by decide
theorem test_srl_64 : regAndPc (.srl 3 1 2) (withRegs [(1, 0xffffffffffffffff), (2, 64)]) 3 = some (0xffffffffffffffff, 4) := by decide
theorem test_sra_low_bits : regAndPc (.sra 3 1 2) (withRegs [(1, 0x8000000000000000), (2, 0x7f)]) 3 = some (0xffffffffffffffff, 4) := by decide
theorem test_sra_one : regAndPc (.sra 3 1 2) (withRegs [(1, 0x8000000000000000), (2, 1)]) 3 = some (0xc000000000000000, 4) := by decide
theorem test_or_bits : regAndPc (.or 3 1 2) (withRegs [(1, 0xf0), (2, 0x0f)]) 3 = some (0xff, 4) := by decide
theorem test_and_bits : regAndPc (.and 3 1 2) (withRegs [(1, 0xf0), (2, 0x3c)]) 3 = some (0x30, 4) := by decide
theorem test_addi_min : regAndPc (.addi 3 1 (-2048)) (withRegs [(1, 0)]) 3 = some (0xfffffffffffff800, 4) := by decide
theorem test_addi_x0 : regAndPc (.addi 0 0 5) (withRegs []) 0 = some (0, 4) := by decide
theorem test_slti_min : regAndPc (.slti 3 1 (-2048)) (withRegs [(1, 0x8000000000000000)]) 3 = some (1, 4) := by decide
theorem test_slti_equal : regAndPc (.slti 3 1 5) (withRegs [(1, 5)]) 3 = some (0, 4) := by decide
theorem test_sltiu_all_ones : regAndPc (.sltiu 3 1 (-1)) (withRegs [(1, 0xffffffffffffffff)]) 3 = some (0, 4) := by decide
theorem test_sltiu_below : regAndPc (.sltiu 3 1 (-1)) (withRegs [(1, 5)]) 3 = some (1, 4) := by decide
theorem test_xori_not : regAndPc (.xori 3 1 (-1)) (withRegs [(1, 0x123)]) 3 = some (0xfffffffffffffedc, 4) := by decide
theorem test_ori_sign : regAndPc (.ori 3 1 (-2048)) (withRegs [(1, 0)]) 3 = some (0xfffffffffffff800, 4) := by decide
theorem test_andi_sign : regAndPc (.andi 3 1 (-1)) (withRegs [(1, 0xdeadbeef)]) 3 = some (0xdeadbeef, 4) := by decide
theorem test_andi_2047 : regAndPc (.andi 3 1 2047) (withRegs [(1, 0xffffffffffffffff)]) 3 = some (0x7ff, 4) := by decide
theorem test_slli_32 : regAndPc (.slli 3 1 32) (withRegs [(1, 0x1234)]) 3 = some (0x0000123400000000, 4) := by decide
theorem test_srli_63 : regAndPc (.srli 3 1 63) (withRegs [(1, 0x8000000000000000)]) 3 = some (1, 4) := by decide
theorem test_srai_63 : regAndPc (.srai 3 1 63) (withRegs [(1, 0x8000000000000000)]) 3 = some (0xffffffffffffffff, 4) := by decide
theorem test_srai_8 : regAndPc (.srai 3 1 8) (withRegs [(1, 0x7fff000000000000)]) 3 = some (0x007fff0000000000, 4) := by decide
theorem test_lui_sign : regAndPc (.lui 3 0xfffff) (withRegs []) 3 = some (0xfffffffffffff000, 4) := by decide
/-- R131 with LUI_EXT = zero. -/
theorem test_lui_zero :
    regAndPc (.lui 1 0x80000) { State.reset with params := { Params.test with luiExt := .zero } } 1 = some (0x80000000, 4) := by decide
theorem test_lb_sign : regAndPc (.lb 1 2 (-1)) (withBytes 0x100 [0x80] [(2, 0x101)]) 1 = some (0xffffffffffffff80, 4) := by decide
theorem test_lh_sign : regAndPc (.lh 1 2 2) (withBytes 0x102 [0x34, 0x82] [(2, 0x100)]) 1 = some (0xffffffffffff8234, 4) := by decide
theorem test_lw_sign : regAndPc (.lw 1 2 4) (withBytes 0x104 [0x78, 0x56, 0x34, 0xf2] [(2, 0x100)]) 1 = some (0xfffffffff2345678, 4) := by decide
theorem test_lw_base_is_rd : regAndPc (.lw 2 2 0) (withBytes 0x20 [0x44, 0x33, 0x22, 0x11] [(2, 0x20)]) 2 = some (0x11223344, 4) := by decide
theorem test_ld_last : regAndPc (.ld 1 2 0) (withBytes 0xfff8 [1, 2, 3, 4, 5, 6, 7, 8] [(2, 0xfff8)]) 1 = some (0x0807060504030201, 4) := by decide
theorem test_ld_misaligned : regAndPc (.ld 1 0 1) (withBytes 1 [0x11, 0x22, 0x33, 0x44, 0x55, 0x66, 0x77, 0x88] []) 1 = some (0x8877665544332211, 4) := by decide
theorem test_lbu_top : regAndPc (.lbu 1 2 (-1)) (withBytes 0xffff [0xfe] [(2, 0x10000)]) 1 = some (0xfe, 4) := by decide
theorem test_lhu_zero : regAndPc (.lhu 1 2 2) (withBytes 0x102 [0x34, 0x82] [(2, 0x100)]) 1 = some (0x8234, 4) := by decide
theorem test_lwu_zero : regAndPc (.lwu 1 2 4) (withBytes 0x104 [0x78, 0x56, 0x34, 0xf2] [(2, 0x100)]) 1 = some (0x00000000f2345678, 4) := by decide
/-- L2.5: a load to x0 still accesses. -/
theorem test_lb_x0_faults : statusAfter (.lb 0 2 0) (withRegs [(2, 0x10000)]) = some (.faulted (.loadAccessFault 0 0x10000 1)) := by decide
/-- L2.5: the wrapped address is out of bounds. -/
theorem test_lw_wraps : statusAfter (.lw 1 0 (-4)) (withRegs []) = some (.faulted (.loadAccessFault 0 0xfffffffffffffffc 4)) := by decide
/-- L2.5: the whole access must fit. -/
theorem test_lhu_edge : statusAfter (.lhu 1 2 0) (withRegs [(2, 0xffff)]) = some (.faulted (.loadAccessFault 0 0xffff 2)) := by decide
theorem test_sb_low_byte : bytesAfter (.sb 1 2 0) (withBytes 0 [] [(1, 0x1234), (2, 0x200)]) 0x1ff 3 = some [0, 0x34, 0] := by decide
theorem test_sb_own_base : bytesAfter (.sb 2 2 0) (withBytes 0 [] [(2, 0x1ff)]) 0x1ff 2 = some [0xff, 0] := by decide
theorem test_sh_zero : bytesAfter (.sh 0 0 3) (withBytes 3 [0xaa, 0xbb, 0xcc] []) 3 3 = some [0, 0, 0xcc] := by decide
theorem test_sh_high : bytesAfter (.sh 1 2 2) (withBytes 0 [] [(1, 0xabcd1234), (2, 0x200)]) 0x201 4 = some [0, 0x34, 0x12, 0] := by decide
theorem test_sw_low_half : bytesAfter (.sw 1 2 4) (withBytes 0 [] [(1, 0x1122334455667788), (2, 0x200)]) 0x203 6 = some [0, 0x88, 0x77, 0x66, 0x55, 0] := by decide
theorem test_sd_negative : bytesAfter (.sd 1 2 (-8)) (withBytes 0 [] [(1, 0x1122334455667788), (2, 0x208)]) 0x200 9 = some [0x88, 0x77, 0x66, 0x55, 0x44, 0x33, 0x22, 0x11, 0] := by decide
/-- L2.5: a store that does not fit writes no byte. -/
theorem test_sd_edge : bytesAfter (.sd 1 2 0) (withRegs [(1, 0xffffffffffffffff), (2, 0xfffc)]) 0xfff8 8 = some [0, 0, 0, 0, 0, 0, 0, 0] ∧
    statusAfter (.sd 1 2 0) (withRegs [(1, 0xffffffffffffffff), (2, 0xfffc)]) = some (.faulted (.storeAccessFault 0 0xfffc 8)) := by decide +kernel
theorem test_beq_taken : pcAfter (.beq 1 2 8) (atPc 0x10 [(1, 5), (2, 5)]) = some 0x18 := by decide
theorem test_beq_not : pcAfter (.beq 1 2 8) (atPc 0x10 [(1, 5), (2, 6)]) = some 0x14 := by decide
theorem test_bne_back : pcAfter (.bne 1 2 (-4)) (atPc 0x10 [(1, 1), (2, 0)]) = some 0x0c := by decide
theorem test_bne_same : pcAfter (.bne 1 1 8) (atPc 0 [(1, 5)]) = some 4 := by decide
theorem test_blt_signed : pcAfter (.blt 1 2 12) (atPc 0 [(1, 0xffffffffffffffff), (2, 0)]) = some 12 := by decide
theorem test_blt_same : pcAfter (.blt 1 1 8) (atPc 0 [(1, 5)]) = some 4 := by decide
theorem test_bge_equal : pcAfter (.bge 1 2 (-8)) (atPc 0x10 [(1, 7), (2, 7)]) = some 0x08 := by decide
theorem test_bge_min : pcAfter (.bge 1 2 8) (atPc 0 [(1, 0x8000000000000000), (2, 0x7fffffffffffffff)]) = some 4 := by decide
theorem test_bltu_unsigned : pcAfter (.bltu 1 2 8) (atPc 0 [(1, 0xffffffffffffffff), (2, 0)]) = some 4 := by decide
theorem test_bltu_taken : pcAfter (.bltu 1 2 16) (atPc 0 [(1, 0), (2, 0xffffffffffffffff)]) = some 16 := by decide
theorem test_bgeu_unsigned : pcAfter (.bgeu 1 2 4) (atPc 0 [(1, 0xffffffffffffffff), (2, 1)]) = some 4 := by decide
theorem test_bgeu_not : pcAfter (.bgeu 0 1 8) (atPc 0 [(1, 0xfffffffffffffffb)]) = some 4 := by decide
/-- L2.6: the target from the old x1, bit 0 not cleared. -/
theorem test_jalr_old_base : regAndPc (.jalr 1 1 1) (atPc 0 [(1, 0x10)]) 1 = some (4, 0x11) := by decide
theorem test_jalr_example : regAndPc (.jalr 1 5 4) (atPc 0x20 [(5, 0x100)]) 1 = some (0x24, 0x104) := by decide
theorem test_jal_example : regAndPc (.jal 1 8) (atPc 0 []) 1 = some (4, 8) := by decide
theorem test_jal_back : regAndPc (.jal 0 (-4)) (atPc 4 []) 0 = some (0, 0) := by decide

/-! The step (L2.1, L2.6, L2.8). -/

/-- Status and pc after one step. -/
def stepEnd (s : State) : Option (Status × Word) := (nextOf (step s)).map fun t => (t.status, t.pc)

theorem test_step_nop : stepEnd (withText [0x00000013] []) = some (.ready, 4) := by decide
theorem test_step_illegal : stepEnd (withText [0x00002033] []) = some (.faulted (.illegalInstruction 0 0x00002033), 0) := by decide
theorem test_step_end : stepEnd ((withText [0x00000013] []).setPc 4) = some (.ended, 4) := by decide
theorem test_step_misaligned : stepEnd ((withText [0x00000013, 0x00000013] []).setPc 6) = some (.faulted (.instructionAddressMisaligned 6), 6) := by decide
/-- The end is checked before the alignment (R149). -/
theorem test_step_end_misaligned : stepEnd ((withText [0x00000013] []).setPc 6) = some (.ended, 6) := by decide
theorem test_step_negative : stepEnd ((withText [0x00000013] []).setPc (-4)) = some (.faulted (.instructionAccessFault (-4)), -4) := by decide
theorem test_step_unloaded : stepEnd (State.unloaded Params.test) = some (.unloaded, 0) := by decide
theorem test_step_reset_ends : stepEnd State.reset = some (.ended, 0) := by decide
/-- The host's word is what the next step runs: add x1, x2, x3 with x2 the stack top. -/
theorem test_fetch_word : (nextOf (step (State.reset.withFetchWord 32 0x003100b3))).map (fun t => t.getReg 1) = some 0x10000 := by decide
theorem test_fault_codes : (FaultRecord.instructionAccessFault 0).code = 1 ∧ (FaultRecord.instructionAddressMisaligned 0).code = 2 ∧
    (FaultRecord.illegalInstruction 0 0).code = 3 ∧ (FaultRecord.loadAccessFault 0 0 1).code = 4 ∧ (FaultRecord.storeAccessFault 0 0 1).code = 5 := by
  decide

/-! Memory. -/

theorem test_reset_mem_wf : Memory.wf State.reset.data.mem = true := by decide
theorem test_write_zero_removes : writeByte [(3, 7)] 3 0 = [] ∧ writeByte [(3, 7)] 2 1 = [(2, 1), (3, 7)] ∧ writeByte [(3, 7)] 9 0 = [(3, 7)] := by decide
/-- R50's example, after sd of 0x1122334455667788 at 0. -/
theorem test_mixed_width : backRead (backWrite [] 0 8 0x1122334455667788) 0 1 = 0x88 ∧ backRead (backWrite [] 0 8 0x1122334455667788) 2 2 = 0x5566 ∧
    backRead (backWrite [] 0 8 0x1122334455667788) 4 4 = 0x11223344 := by decide

/-! The cache (L2.7). -/

/-- A geometry (cache_size, block_size, associativity) under LRU and WB. -/
def lruWb (size block ways : Nat) : CacheConfig := ⟨size, block, ways, .lru, .writeBack⟩

/-- A line for the victim tests, with its valid bit and stamps. -/
def stamped (valid : Bool) (lastAccess loadTime freq : BitVec 64) : Line := ⟨valid, false, 0, [], lastAccess, loadTime, freq⟩

/-- L2.7.1 at its fourth access: way 1 has the least last access. -/
theorem test_victim_lru : victimWay (lruWb 32 8 2) [stamped true 3 1 2, stamped true 2 2 1] 0 = 1 := by decide
/-- L2.7.2 at its fourth access: way 0 has the least load time. -/
theorem test_victim_fifo : victimWay ⟨32, 8, 2, .fifo, .writeBack⟩ [stamped true 3 1 2, stamped true 2 2 1] 0 = 0 := by decide
/-- L2.7.3 at its fourth access, and the tie of L2.7.4. -/
theorem test_victim_lfu : victimWay ⟨32, 8, 2, .lfu, .writeBack⟩ [stamped true 2 1 2, stamped true 3 3 1] 0 = 1 ∧
    victimWay ⟨32, 8, 2, .lfu, .writeBack⟩ [stamped true 1 1 1, stamped true 2 2 1] 0 = 0 := by decide
/-- L2.7.5: RANDOM takes the draw though way 0 is invalid; the others take the invalid way. -/
theorem test_victim_invalid : victimWay ⟨32, 8, 2, .random, .writeBack⟩ [stamped false 0 0 0, stamped false 0 0 0] 1 = 1 ∧
    victimWay (lruWb 32 8 2) [stamped true 1 1 1, stamped false 0 0 0] 0 = 1 := by decide
/-- L1.5: the five addresses are in set 0 with tags 0 to 4. -/
theorem test_split_l1_5 : ([0x00, 0x20, 0x40, 0x60, 0x80].map fun a => (setIndex (lruWb 64 16 2) a, tagOf (lruWb 64 16 2) a)) =
    [(0, 0), (0, 1), (0, 2), (0, 3), (0, 4)] := by decide
theorem test_segments_split : segments (lruWb 8 8 1) 4 8 = [⟨4, 0, 4⟩, ⟨8, 4, 4⟩] ∧ segments (lruWb 64 16 2) 0 8 = [⟨0, 0, 8⟩] := by decide
/-- L2.7.6: a store that evicts itself: the first block is written back before the second is filled. -/
theorem test_split_store_wb : (memWrite (installCache (lruWb 8 8 1) DataSide.zero) 4 8 0x8877665544332211).mem =
    [(4, 0x11), (5, 0x22), (6, 0x33), (7, 0x44)] := by decide
/-- L2.7.6: and the load back gives the value, through two more misses. -/
theorem test_split_load_wb : (memRead (memWrite (installCache (lruWb 8 8 1) DataSide.zero) 4 8 0x8877665544332211) 4 8).1 = 0x8877665544332211 := by
  decide
/-- L2.7.7: under WT the bytes reach MEM during the write. -/
theorem test_split_store_wt : (memWrite (installCache ⟨8, 8, 1, .lru, .writeThrough⟩ DataSide.zero) 4 8 0x8877665544332211).mem =
    [(4, 0x11), (5, 0x22), (6, 0x33), (7, 0x44), (8, 0x55), (9, 0x66), (10, 0x77), (11, 0x88)] := by decide
/-- L2.7.10: disabling with flush and with discard. -/
theorem test_disable : (disableCache .flush (memWrite (installCache (lruWb 8 8 1) DataSide.zero) 0 1 1)).mem = [(0, 1)] ∧
    (disableCache .discard (memWrite (installCache (lruWb 8 8 1) DataSide.zero) 0 1 1)).mem = [] := by decide
/-- L2.7.11. -/
theorem test_configs : (acceptConfig 0x10000 ⟨64, 16, 2, "LRU", "WB"⟩).isSome = true ∧ acceptConfig 0x10000 ⟨48, 16, 1, "LRU", "WB"⟩ = none ∧
    acceptConfig 0x10000 ⟨64, 12, 1, "LRU", "WB"⟩ = none ∧ acceptConfig 0x10000 ⟨64, 16, 3, "LRU", "WB"⟩ = none ∧
    acceptConfig 0x10000 ⟨64, 16, 0, "LRU", "WB"⟩ = none ∧ acceptConfig 0x10000 ⟨128, 16, 2, "MRU", "WB"⟩ = none := by decide

/-! The host's operations (L2.8). -/

/-- What an operation answers. -/
def replyOf (o : Host.Outcome (Reply × State) Fault Refusal) : Option Reply :=
  match o with
  | .next p => some p.1
  | .fault _ => none
  | .refused _ => none

/-- The status an operation leaves. -/
def statusOf (o : Host.Outcome (Reply × State) Fault Refusal) : Option Status :=
  match o with
  | .next p => some p.2.status
  | .fault _ => none
  | .refused _ => none

theorem test_read_memory_edge : replyOf (command (.readMemory 0xfff0 17) State.reset) = some .memoryBoundsError ∧
    replyOf (command (.readMemory 0xfffe 2) State.reset) = some (.bytes [0, 0]) := by decide
theorem test_read_registers : replyOf (command .readRegisters (withRegs [(1, 0xffffffffffffffff)])) =
    some (.registers ([0, -1, 0x10000] ++ List.replicate 29 0)) := by decide
theorem test_breakpoints : insertLine 3 [1, 5] = [1, 3, 5] ∧ insertLine 5 [1, 5] = [1, 5] ∧ removeLine 1 [1, 5] = [5] := by decide
theorem test_power_on_refused : State.powerOn { Params.test with stackTop := 0x10001 } = .refused .badParameters := by rfl
theorem test_capacity_error : loadCheck { Params.test with textCapacity := 1 } [0, 0] [] = some .capacityError ∧
    loadCheck { Params.test with dataBase := 0xffff } [] [1, 2] = some .memoryBoundsError := by decide

/-! The assembler in front of `load` (L1.3, L1.4, L2.8). -/

theorem test_asm_l1_3 : assemble ".data\n.word 5\n.text\nlw x1, 0(x0)".toList = .ok ([0x00002083], [5, 0, 0, 0]) := by decide +kernel
/-- R107: eight lowercase hex digits a word. -/
theorem test_listing : listing [0x00a00293, 0xfe209ee3] = ["00a00293".toList, "fe209ee3".toList] := by decide +kernel
theorem test_asm_aliases : assemble "addi t0, x0, 10\nadd x1, t0, x5\nsd t0, 0(t0)".toList = .ok ([0x00a00293, 0x005280b3, 0x0052b023], []) := by decide +kernel
theorem test_asm_operand_forms : assemble "lw x1, 4(x2)\nlw x1, x2 4 x2".toList = .ok ([0x00412083, 0x00412083], []) := by decide +kernel
theorem test_asm_labels : assemble "loop: addi x1, x1, 1\nbne x1, x2, loop\njal x0, loop".toList =
    .ok ([0x00108093, 0xfe209ee3, 0xff9ff06f], []) := by decide +kernel
theorem test_asm_errors : assemble "nop".toList = .error (.unknownMnemonic, 1) ∧ assemble "\naddi x1, x0, 2048".toList = .error (.immediateRangeError, 2) ∧
    assemble "addi x1, x0, 0xfff".toList = .error (.immediateRangeError, 1) ∧ assemble "slti x1, x2, 1".toList = .error (.unknownMnemonic, 1) := by
  decide +kernel
theorem test_asm_errors_2 : assemble "beq x0, x0, nowhere".toList = .error (.unresolvedLabel, 1) ∧
    assemble "add x1, x2, q7".toList = .error (.unknownRegister, 1) ∧ assemble "lw x1, 4(x2".toList = .error (.malformedMemoryOperand, 1) ∧
    assemble "add x1, x2".toList = .error (.missingOperand, 1) := by decide +kernel
/-- R99, D41: lines before any section directive are instruction lines, and a directive may follow them or be repeated. -/
theorem test_asm_sections : assemble "addi t0, x0, 10\n.text\n.text\nadd x1, t0, x5".toList = .ok ([0x00a00293, 0x005280b3], []) ∧
    assemble "addi t0, x0, 10\n.data\n.data\n.half 1, 0x1ff02\n.text".toList = .ok ([0x00a00293], [1, 0, 0x02, 0xff]) := by decide +kernel
/-- R101, R102: an instruction line inside `.data` is an instruction line. -/
theorem test_asm_instr_in_data : assemble ".data\naddi t0, x0, 10\n.byte 7".toList = .ok ([0x00a00293], [7]) := by decide +kernel
/-- R107: a named error aborts the whole; an instruction line after the data section does not hide it. -/
theorem test_asm_abort : assemble ".data\n.byte 7\n.text\nadd x1, x2, x3\nslti x1, x2, 1".toList = .error (.unknownMnemonic, 5) := by decide +kernel
/-- R101, D42: the characters a label must not hold, also beside a blank; a label defined twice. -/
theorem test_asm_label_text : assemble "f (x): add x1, x2, x3".toList = .error (.invalidLabel, 1) ∧
    assemble "a, b: add x1, x2, x3".toList = .error (.invalidLabel, 1) ∧
    assemble "a: add x1, x2, x3\na: add x1, x2, x3".toList = .error (.invalidLabel, 2) := by decide +kernel
/-- R107: each line has one error; which of several is reported is the model's choice and not tested (log 12). -/
theorem test_asm_mem_errors : assemble "lw x1".toList = .error (.missingOperand, 1) ∧ assemble "lw x1, x2 4".toList = .error (.missingOperand, 1) ∧
    assemble "sw x1, 2048(x2)".toList = .error (.immediateRangeError, 1) ∧ assemble "lw x1, 4(q7)".toList = .error (.unknownRegister, 1) ∧
    assemble "lw x1, 4(x2) x3".toList = .ok ([0x00412083], []) := by decide +kernel
/-- L2.8: a failed load leaves the block Unloaded. -/
theorem test_load_fails : statusOf (command (.load "nop") State.reset) = some .unloaded ∧
    replyOf (command (.load "nop") State.reset) = some (.loadFailed (.assemble .unknownMnemonic 1)) := by decide +kernel

/-! Witnesses: for every obligation with hypotheses, a concrete state and operands that meet them, one for each clause. -/

/-- The parameters of State.reset are sound and its data side too, so any registers, pc and program that fits meet the invariant while Ready. -/
theorem inv_ready {s : State} (hp : s.params = Params.test) (ht : s.text.length ≤ 1024) (hd : DataOk 0x10000 s.data) (hs : s.status = .ready)
    (hb : s.breakpoints = []) : s.Inv :=
  ⟨by rw [hp]; decide, by rw [hp]; exact ht, by rw [hp]; exact hd, by unfold StatusOk; rw [hs]; trivial, by rw [hb]; exact .nil⟩

theorem data_zero : DataOk 0x10000 DataSide.zero := ⟨by decide, by decide, by decide, fun _ => rfl, fun _ h => nomatch h⟩

/-- An enabled cache: one set, one way of 8 bytes, WB. -/
def cachedData : DataSide := installCache (lruWb 8 8 1) DataSide.zero

theorem data_cached : DataOk 0x10000 cachedData := (installCache_ok (by decide) data_zero).1

/-- The same with the byte 1 stored at address 0: its line is valid and dirty, and MEM still all 0. -/
def dirtyData : DataSide := memWrite cachedData 0 1 1

theorem data_dirty : DataOk 0x10000 dirtyData := (memWrite_ok data_cached (by decide) 1).1

/-- The same under WT. -/
def throughData : DataSide := memWrite (installCache ⟨8, 8, 1, .lru, .writeThrough⟩ DataSide.zero) 0 1 1

theorem data_through : DataOk 0x10000 throughData := (memWrite_ok (installCache_ok (by decide) data_zero).1 (by decide) 1).1

/-- A Ready block with the dirty cache, a program and x2 at the last doubleword. -/
def dirtyState (words : List InsnWord) : State := { withText words [(2, 0xfff8)] with data := dirtyData }

theorem inv_dirty : (dirtyState [0x00013083]).Inv := inv_ready rfl (by decide) data_dirty rfl rfl

theorem witness_DecodeOfEncode : (Instr.beq 31 0 (-4096)).wellFormed = true ∧ (Instr.jal 31 1048574).wellFormed = true ∧
    (Instr.slli 1 2 63).wellFormed = true := by decide
theorem witness_EncodeOfDecode : decode 0x80000063 = .legal (.beq 0 0 (-4096)) := by decide
theorem witness_DecodeFollowsTable : (0x40005033#32 &&& Op.sra.mask = Op.sra.matchBits ∧ ∃ i, decode 0x40005033 = .legal i ∧ i.op = .sra) ∧
    decode 0x00002033 = .illegal ∧ ∀ o ∈ Op.all, 0x00002033#32 &&& o.mask ≠ o.matchBits := by
  refine ⟨⟨by decide, _, rfl, rfl⟩, by decide, by decide⟩
theorem witness_OtherWordsIllegal : 0x0000007f#32 &&& 0x7f ∉ [0x33#32, 0x13#32, 0x03#32, 0x67#32, 0x23#32, 0x37#32, 0x63#32, 0x6f#32] ∧
    0x00000073#32 &&& 0x7f ∈ [0x17#32, 0x1b#32, 0x3b#32, 0x0f#32, 0x73#32] ∧ 0x00003033#32 &&& 0x707f ∈ [0x2033#32, 0x3033#32] := by decide
theorem witness_DecodedRecord : decode 0xfe209ee3 = .legal (.bne 1 2 (-4)) ∧ (Instr.bne 1 2 (-4)).rs1? = some 1 ∧ (Instr.bne 1 2 (-4)).rs2? = some 2 ∧
    (Instr.bne 1 2 (-4)).imm? = some (-4) ∧ decode 0x00415093 = .legal (.srli 1 2 4) ∧ (Instr.srli 1 2 4).shamt? = some 4 ∧
    (Instr.srli 1 2 4).rd? = some 1 ∧ (Instr.lui 1 0x80000).imm? = some 0x80000000 ∧ (Instr.sd 1 2 (-8)).imm? = some (-8) ∧
    (Instr.jal 0 (-4)).imm? = some (-4) := by decide
theorem witness_AssembledWordsDecode : assemble "addi x5, x0, 10".toList = .ok ([0x00a00293], []) ∧ 0x00a00293 ∈ [0x00a00293#32] ∧
    replyOf (command (.load "addi x5, x0, 10") State.reset) = some (.loaded 1) := by decide +kernel
/-- A line inside `.data` counts; a forbidden label text and an unlisted mnemonic, each beside a line with only a label; a label on lines 1 and 3. -/
theorem witness_EveryLineCounts : assemble ".data\naddi x5, x0, 10".toList = .ok ([0x00a00293], []) ∧
    "f(x): add x1, x2, x3".toList ∈ sourceLines "loop:\nf(x): add x1, x2, x3".toList ∧
    readLine "f(x): add x1, x2, x3".toList = .error .invalidLabel ∧
    "nop".toList ∈ sourceLines "loop:\nnop".toList ∧ readLine "nop".toList = .ok (.instr none ["nop".toList]) ∧
    (∀ e ∈ mnemonics, e.1.toList ≠ "nop".toList) := by decide +kernel
theorem witness_EveryLineCounts_twice : (sourceLines "a:\n\na: lui x1, 1".toList)[0]? = some "a:".toList ∧
    (sourceLines "a:\n\na: lui x1, 1".toList)[2]? = some "a: lui x1, 1".toList ∧ readLine "a:".toList = .ok (.instr (some ['a']) []) ∧
    readLine "a: lui x1, 1".toList = .ok (.instr (some ['a']) ["lui".toList, "x1".toList, ['1']]) ∧ (['a'] : Text) ≠ [] := by decide +kernel
theorem witness_StepRunsDecoded : (withText [0x00000013, 0x003100b3] []).text[1]? = some 0x003100b3 ∧ decode 0x003100b3 = .legal (.add 1 2 3) ∧
    ((withText [0x00000013, 0x003100b3] []).setPc 4).pc.toNat / 4 = 1 ∧ 0 ≤ ((withText [0x00000013, 0x003100b3] []).setPc 4).pc.toInt ∧
    ((withText [0x00000013, 0x003100b3] []).setPc 4).status = .ready := by decide
theorem witness_StepRunsDecoded_illegal : (withText [0x00000000] []).text[0]? = some 0x00000000 ∧ decode 0x00000000 = .illegal ∧
    (withText [0x00000000] []).status = .ready ∧ (withText [0x00000000] []).pc = 0 := by decide
/-- Each of the four cases of R149: the most negative pc, END itself, the last misaligned pc, the last word. -/
theorem witness_FetchOutcomes : (0x8000000000000000#64).toInt < 0 ∧ (withText [0x00000013] []).status = .ready ∧
    4 * (withText [0x00000013] []).text.length = 4 ∧ (0 ≤ (4#64).toInt ∧ 4 ≤ (4#64).toNat) ∧
    (0 ≤ (3#64).toInt ∧ (3#64).toNat < 4 ∧ (3#64).toNat % 4 ≠ 0) ∧ (0 ≤ (0#64).toInt ∧ (0#64).toNat < 4 ∧ (0#64).toNat % 4 = 0) := by decide
theorem witness_StepWhenReady : (State.unloaded Params.test).status ≠ .ready ∧ State.reset.status = .ready ∧ 0 ≤ State.reset.pc.toInt ∧
    4 * State.reset.text.length ≤ State.reset.pc.toNat ∧ step State.reset = .next (State.reset.setStatus .ended) :=
  ⟨by decide, by decide, by decide, by decide, rfl⟩
theorem witness_FaultsArePrecise : (withText [0x00000000] []).status = .ready ∧
    step (withText [0x00000000] []) = .next ((withText [0x00000000] []).setStatus (.faulted (.illegalInstruction 0 0))) := ⟨by decide, rfl⟩
/-- Each fault code is left by some step: pc -4, pc 2, an illegal word, `lb x0, 0(x2)` and `sb x0, 0(x2)` at x2 = DATA_MEM_SIZE. -/
theorem witness_FaultConditions :
    (nextOf (step ((withText [0x00000013] []).setPc (-4)))).map (fun t => t.status.cause) = some 1 ∧
    (nextOf (step ((withText [0x00000013] []).setPc 2))).map (fun t => t.status.cause) = some 2 ∧
    (nextOf (step (withText [0x00000000] []))).map (fun t => t.status.cause) = some 3 ∧
    (nextOf (step (withText [0x00010003] []))).map (fun t => t.status.cause) = some 4 ∧
    (nextOf (step (withText [0x00010023] []))).map (fun t => t.status.cause) = some 5 ∧
    (nextOf (step (withText [0x00000013] []))).map (fun t => t.status.cause) = some 0 := by decide
theorem witness_FaultedForGood : (State.reset.setStatus (.faulted (.illegalInstruction 0 0))).status = .faulted (.illegalInstruction 0 0) ∧
    command (.setBreakpoint 3) (State.reset.setStatus (.faulted (.illegalInstruction 0 0))) =
      .next (.done, { State.reset.setStatus (.faulted (.illegalInstruction 0 0)) with breakpoints := [3] }) ∧
    ∀ src, Command.setBreakpoint 3 ≠ .load src := ⟨rfl, rfl, fun _ h => nomatch h⟩
/-- Loads and stores in a block with a dirty cache, at the last address each width fits. -/
theorem witness_SignedLoadsComplete : (dirtyState [0x00013083]).Inv ∧ (effAddr (dirtyState [0x00013083]) 2 7).toNat + 1 ≤ 0x10000 ∧
    (effAddr (dirtyState [0x00013083]) 2 6).toNat + 2 ≤ 0x10000 ∧ (effAddr (dirtyState [0x00013083]) 2 4).toNat + 4 ≤ 0x10000 ∧
    (effAddr (dirtyState [0x00013083]) 2 0).toNat + 8 ≤ (dirtyState [0x00013083]).params.dataMemSize := ⟨inv_dirty, by decide, by decide, by decide, by decide⟩
theorem witness_UnsignedLoadsComplete : (withText [] []).Inv ∧ (effAddr (withText [] []) 2 (-1)).toNat + 1 ≤ (withText [] []).params.dataMemSize ∧
    (effAddr (withText [] []) 2 (-2)).toNat + 2 ≤ 0x10000 ∧ (effAddr (withText [] []) 2 (-4)).toNat + 4 ≤ 0x10000 :=
  ⟨inv_ready rfl (by decide) data_zero rfl rfl, by decide, by decide, by decide⟩
theorem witness_StoresComplete : (dirtyState [0x00013083]).Inv ∧ (effAddr (dirtyState [0x00013083]) 2 7).toNat + 1 ≤ 0x10000 ∧
    (effAddr (dirtyState [0x00013083]) 2 6).toNat + 2 ≤ 0x10000 ∧ (effAddr (dirtyState [0x00013083]) 2 4).toNat + 4 ≤ 0x10000 ∧
    (effAddr (dirtyState [0x00013083]) 2 0).toNat + 8 ≤ (dirtyState [0x00013083]).params.dataMemSize := ⟨inv_dirty, by decide, by decide, by decide, by decide⟩
/-- One byte too far, for a load to x0 and for a store. -/
theorem witness_AccessFaults : (dirtyState []).params.dataMemSize < (effAddr (dirtyState []) 2 1).toNat + 8 ∧
    (Instr.ld 0 2 1).access = some (.load, 2, 1, 8) ∧ (Instr.sd 1 2 1).access = some (.store, 2, 1, 8) := by decide
theorem witness_LoadAfterStore : (dirtyState [0x00013083]).Inv ∧ (Instr.sd 1 2 0).access = some (.store, 2, 0, 8) ∧ (Instr.sd 1 2 0).rs2? = some 1 ∧
    (Instr.lhu 3 2 6).access = some (.load, 2, 6, 2) ∧ (Instr.lhu 3 2 6).rd? = some 3 ∧ (3 : RegIdx) ≠ 0 ∧
    (effAddr (dirtyState [0x00013083]) 2 0).toNat + 8 ≤ 0x10000 ∧ (effAddr (dirtyState [0x00013083]) 2 6).toNat + 2 ≤ 0x10000 :=
  ⟨inv_dirty, by decide, by decide, by decide, by decide, by decide, by decide, by decide⟩
theorem witness_BranchTemplate : ((withText [0x00000013, 0x00000013] []).setPc 6).status = .ready ∧
    0 ≤ ((withText [0x00000013, 0x00000013] []).setPc 6).pc.toInt ∧ (6#64).toNat < 4 * (withText [0x00000013, 0x00000013] []).text.length ∧
    (6#64).toNat % 4 ≠ 0 := by decide
theorem witness_JumpAndLink : (Instr.jal 0 (-1048576)).wellFormed = true ∧ (Instr.jal 0 1048574).wellFormed = true := by decide
theorem witness_CallReturns : (1 : RegIdx) ≠ 0 ∧ exec (.jal 1 8) State.reset = .next ((State.reset.setReg 1 4).setPc 8) ∧
    (withRegs [(1, 4)]).getReg 1 = ((State.reset.setReg 1 4).setPc 8).getReg 1 := ⟨by decide, rfl, by decide⟩
theorem witness_X0Hardwired : (31 : RegIdx) ≠ 0 ∧ (1 : RegIdx) ≠ 31 ∧
    exec (.addi 0 0 5) State.reset = .next (State.reset.setPc 4) := ⟨by decide, by decide, rfl⟩
theorem witness_RegisterWriters : exec (.beq 1 2 8) State.reset = .next (State.reset.setPc 4) ∧ (Instr.beq 1 2 8).rd? ≠ some 1 ∧
    step State.reset = .next (State.reset.setStatus .ended) ∧ fetch State.reset = .ended ∧
    command .cacheStats State.reset = .next (.stats 0 0 0, State.reset) := ⟨rfl, by decide, rfl, rfl, rfl⟩
theorem witness_OnlyAccessesTouchData : (Instr.add 1 2 3).access = none ∧ ∃ t, exec (.add 1 2 3) (dirtyState []) = .next t := ⟨by decide, _, rfl⟩
theorem witness_ProgramFixed : step State.reset = .next (State.reset.setStatus .ended) ∧
    command .step State.reset = .next (.done, State.reset.setStatus .ended) := ⟨rfl, rfl⟩
/-- A step that fetches and loads through a dirty cache. -/
theorem witness_StepKeepsInvariant : (dirtyState [0x00013083]).Inv ∧ ∃ t, step (dirtyState [0x00013083]) = .next t := ⟨inv_dirty, step_next _⟩
theorem witness_CommandsKeepInvariant : (dirtyState [0x00013083]).Inv ∧ ∃ r t, command .disableCache (dirtyState [0x00013083]) = .next (r, t) :=
  ⟨inv_dirty, _, _, rfl⟩
theorem witness_PowerOnChecks : Params.test.ok = true ∧ ¬ (1 ≤ { Params.test with textCapacity := 0 }.textCapacity) := by decide
theorem witness_BackingPrimitives : Memory.wf [(0, 1), (7, 0xff)] = true ∧ 8 ≤ 8 := by decide
theorem witness_AddressSplit : configOk 0x10000 (lruWb 64 16 2) = true ∧ 1 < numSets (lruWb 64 16 2) := by decide
theorem witness_SegmentSplit : configOk 0x10000 (lruWb 8 8 1) = true ∧ ⟨8, 4, 4⟩ ∈ segments (lruWb 8 8 1) 4 8 ∧ 8 % (lruWb 8 8 1).blockSize + 8 ≤ 8 := by
  decide
theorem witness_VictimChoice : [stamped true 3 1 2, stamped true 2 2 1].length = (lruWb 32 8 2).associativity ∧ 0 < (lruWb 32 8 2).associativity ∧
    (∀ l ∈ [stamped true 3 1 2, stamped true 2 2 1], l.valid = true) ∧
    (∃ l, [stamped true 1 1 1, stamped false 0 0 0][1]? = some l ∧ l.valid = false) ∧
    (∀ j, j < 1 → ∀ l, [stamped true 1 1 1, stamped false 0 0 0][j]? = some l → l.valid = true) := by
  refine ⟨by decide, by decide, by decide, ⟨_, rfl, rfl⟩, fun j hj l h => ?_⟩
  obtain rfl : j = 0 := by omega
  simp at h
  rw [← h]
  rfl
/-- A hit at address 7 and a miss at address 8 in the same cache. -/
theorem witness_LookupRule : DataOk 0x10000 dirtyData ∧ dirtyData.cfg = some (lruWb 8 8 1) ∧
    (∃ l ∈ getSet dirtyData (setIndex (lruWb 8 8 1) 7), l.valid = true ∧ l.tag = tagOf (lruWb 8 8 1) 7) ∧
    ¬ (∃ l ∈ getSet dirtyData (setIndex (lruWb 8 8 1) 8), l.valid = true ∧ l.tag = tagOf (lruWb 8 8 1) 8) :=
  ⟨data_dirty, by decide, by decide, by decide⟩
/-- A dirty victim at address 8, and an invalid one in a fresh cache. -/
theorem witness_EvictionWritesBack :
    (DataOk 0x10000 dirtyData ∧ dirtyData.cfg = some (lruWb 8 8 1) ∧ (∀ l ∈ getSet dirtyData (setIndex (lruWb 8 8 1) 8), l.valid = true → l.tag ≠ tagOf (lruWb 8 8 1) 8) ∧
      (getLine (lruWb 8 8 1) dirtyData 0 0).valid = true ∧ (getLine (lruWb 8 8 1) dirtyData 0 0).dirty = true) ∧
    (∀ l ∈ getSet cachedData (setIndex (lruWb 8 8 1) 8), l.valid = true → l.tag ≠ tagOf (lruWb 8 8 1) 8) ∧
      (getLine (lruWb 8 8 1) cachedData 0 0).valid = false :=
  ⟨⟨data_dirty, by decide, by decide, by decide, by decide⟩, by decide, by decide⟩
theorem witness_AccessCounts : DataOk 0x10000 dirtyData ∧ 0xfff8 + 8 ≤ 0x10000 ∧ dirtyData.cfg = some (lruWb 8 8 1) ∧ DataOk 0x10000 DataSide.zero ∧
    DataSide.zero.cfg = none := ⟨data_dirty, by decide, by decide, data_zero, rfl⟩
theorem witness_BackingMemoryView : DataOk 0x10000 dirtyData ∧ readByte dirtyData.mem 0 ≠ view dirtyData 0 ∧ DataOk 0x10000 throughData ∧
    throughData.cfg = some ⟨8, 8, 1, .lru, .writeThrough⟩ ∧ DataSide.zero.cfg = none := ⟨data_dirty, by decide, data_through, by decide, rfl⟩
theorem witness_CacheIsTransparent : (dirtyState [0x00013083]).Inv ∧ ∃ t, step (dirtyState [0x00013083]) = .next t := ⟨inv_dirty, step_next _⟩
/-- Two blocks that differ in their caches and in MEM: the byte 1 at address 0 in a dirty line, and in MEM with no cache. -/
theorem witness_RunsAreTransparent : (dirtyState []).Inv ∧ (dirtyState []).uncached.Inv ∧ (dirtyState []).uncached.data.mem = [(0, 1)] ∧
    (dirtyState []).data.mem = [] ∧ runChoices [] (dirtyState []) = .next (dirtyState []) :=
  ⟨inv_ready rfl (by decide) data_dirty rfl rfl,
    inv_ready rfl (by decide) (let h := (disableCache_flush_ok data_dirty).1; ⟨h.memWf, h.memIn, by decide, fun _ => by decide, fun _ e => by cases e⟩) rfl rfl,
    by decide, by decide, rfl⟩
theorem witness_EnableCacheRule : (⟨64, 16, 2, "LRU", "WB"⟩ : CacheRequest).Accepted 0x10000 ∧ ¬ (⟨64, 16, 0, "LRU", "WB"⟩ : CacheRequest).Accepted 0x10000 :=
  ⟨⟨by decide, by decide, by decide, ⟨6, by decide⟩, ⟨4, by decide⟩, by decide, ⟨1, by decide⟩, by decide, by decide, by decide⟩,
    fun h => absurd h.2.2.1 (by decide)⟩
theorem witness_DisableCacheRule : (dirtyState [0x00013083]).Inv ∧ (dirtyState [0x00013083]).params.disableFlush = .flush := ⟨inv_dirty, by decide⟩
theorem witness_LoadResets : [0x00a00293#32].length ≤ (dirtyState []).params.textCapacity ∧ (dirtyState []).params.dataBase + [5#8].length ≤ 0x10000 ∧
    assemble ".data\n.byte 5\n.text\naddi x5, x0, 10".toList = .ok ([0x00a00293], [5]) := by decide +kernel
/-- Each clause: too many words, an image one byte too long, the same through a source, and a source the assembler rejects. -/
theorem witness_FailedLoadUnloads : { Params.test with textCapacity := 1 }.textCapacity < [0x00a00293#32, 0x00a00293#32].length ∧
    { Params.test with dataBase := 0xffff }.dataMemSize < { Params.test with dataBase := 0xffff }.dataBase + [1#8, 2#8].length ∧
    assemble "addi x5, x0, 10\naddi x5, x0, 10".toList = .ok ([0x00a00293, 0x00a00293], []) ∧
    assemble ".data\n.byte 1 2".toList = .ok ([], [1, 2]) ∧ assemble "nop".toList = .error (.unknownMnemonic, 1) := by decide +kernel
theorem witness_ReadMemoryRule : State.reset.params.dataMemSize < 0xfff0 + 17 ∧ 0xfff0 + 16 ≤ State.reset.params.dataMemSize := by decide
theorem witness_CacheStatsRule : State.reset.data.cfg = none ∧ State.reset.data.accesses = 0 ∧ State.reset.data.hits = 0 ∧ State.reset.data.misses = 0 ∧
    command .step State.reset = .next (.done, State.reset.setStatus .ended) ∧ State.powerOn Params.test = .next (State.unloaded Params.test) :=
  ⟨rfl, rfl, rfl, rfl, rfl, rfl⟩
theorem witness_RunsAreSteps : State.reset.status = .ready ∧ runChoices [false] State.reset = .next (State.reset.setStatus .ended) ∧
    { State.reset with breakpoints := [3] }.breakpoints ≠ [] ∧ (State.unloaded Params.test).status ≠ .ready := ⟨rfl, rfl, by decide, by decide⟩
/-- The other policies' clauses of VictimChoice, with a draw beyond the associativity for RANDOM. -/
theorem witness_VictimChoice_policies :
    (⟨32, 8, 2, .random, .writeBack⟩ : CacheConfig).replacement = .random ∧ victimWay ⟨32, 8, 2, .random, .writeBack⟩ [stamped true 1 1 1, stamped false 0 0 0] 3 = 1 ∧
    (⟨32, 8, 2, .fifo, .writeBack⟩ : CacheConfig).replacement ≠ .random ∧ [stamped true 3 1 2, stamped true 2 2 1][0]? = some (stamped true 3 1 2) ∧
    (∀ m ∈ [stamped true 3 1 2, stamped true 2 2 1], (1 : BitVec 64) ≤ m.loadTime) ∧
    (⟨32, 8, 2, .lfu, .writeBack⟩ : CacheConfig).replacement = .lfu ∧ [stamped true 2 1 2, stamped true 3 3 1][1]? = some (stamped true 3 3 1) ∧
    (∀ m ∈ [stamped true 2 1 2, stamped true 3 3 1], (1 : BitVec 64) < m.freq ∨ ((1 : BitVec 64) = m.freq ∧ (3 : BitVec 64) ≤ m.lastAccess)) := by decide
/-- The discard clause of DisableCacheRule. -/
theorem witness_DisableCacheRule_discard : ({ dirtyState [] with params := { Params.test with disableFlush := .discard } } : State).Inv ∧
    ({ dirtyState [] with params := { Params.test with disableFlush := .discard } } : State).params.disableFlush = .discard :=
  ⟨⟨by decide, by decide, data_dirty, trivial, .nil⟩, rfl⟩

end Sys2Proof.Tests
end

section
/-! Proofs of the family 00_scope: the parameters' bounds (R9) and the block they power on (R39, R193). -/

namespace Sys2Proof.Machine

/-- The check of the parameters is R9's six bounds. -/
theorem Params.ok_iff (p : Params) :
    p.ok = true ↔ 1 ≤ p.textCapacity ∧ 1 ≤ p.dataMemSize ∧ p.dataBase ≤ p.dataMemSize ∧ p.stackTop ≤ p.dataMemSize ∧
      4 * p.textCapacity < 2 ^ 63 ∧ p.dataMemSize < 2 ^ 63 := by
  simp [Params.ok, and_assoc]

theorem State.powerOn_of_ok {p : Params} (h : p.ok = true) : State.powerOn p = .next (State.unloaded p) := if_pos h

theorem State.powerOn_of_not_ok {p : Params} (h : ¬ p.ok = true) : State.powerOn p = .refused .badParameters := if_neg h

/-- A register file of zeros reads 0 at every index, x0 included. -/
theorem State.getReg_of_zero_regs {s : State} (h : s.x = Vector.replicate 32 0) (r : RegIdx) : s.getReg r = 0 := by
  unfold State.getReg
  split
  · rfl
  · simp only [h, Vector.getElem_replicate]

@[simp] theorem State.getReg_unloaded (p : Params) (r : RegIdx) : (State.unloaded p).getReg r = 0 := State.getReg_of_zero_regs rfl r

@[simp] theorem readByte_nil (a : Nat) : readByte [] a = 0 := rfl

/-- A data side of zeros with the cache off is sound in a data memory of any size. -/
theorem DataSide.zero_ok (size : Nat) : DataOk size DataSide.zero where
  memWf := rfl
  memIn := fun _ he => nomatch he
  counters := rfl
  off := fun _ => rfl
  on := fun _ hc => nomatch hc

/-- Sound parameters are all the unloaded block's invariant asks for. -/
theorem State.unloaded_inv {p : Params} (h : p.ok = true) : (State.unloaded p).Inv where
  params := h
  text := Nat.zero_le _
  data := DataSide.zero_ok _
  status := ⟨rfl, rfl⟩
  breakpoints := .nil

/-- A block that is not Ready takes no step (R148, R182). -/
theorem step_of_not_ready {s : State} (h : s.status ≠ .ready) : step s = .next s := by
  rcases step_cases s with ⟨-, hs⟩ | ⟨hr, -⟩
  · exact hs
  · exact absurd hr h

/-- Settles O37: powerOn branches on the check of R9's bounds, and the block it gives is State.unloaded, which is not Ready. -/
theorem powerOnChecks : Obligations.PowerOnChecks := by
  unfold Obligations.PowerOnChecks
  intro p
  simp only [← Params.ok_iff]
  refine ⟨State.powerOn_of_not_ok, fun hok => ⟨State.unloaded p, State.powerOn_of_ok hok, State.unloaded_inv hok, ?_⟩⟩
  have hstep : step (State.unloaded p) = .next (State.unloaded p) := step_of_not_ready (fun h => nomatch h)
  exact ⟨rfl, rfl, State.getReg_unloaded p, rfl, rfl, readByte_nil, rfl, rfl, rfl, rfl, rfl, hstep⟩

end Sys2Proof.Machine
end

section
/-! Proofs of the family 10_state: who writes a register (R21, R23), what stays fixed (R8, R27, R38), and the block's invariant under a step
(R9, R27 to R34, R73, R166). -/

namespace Sys2Proof.Machine

/-! What a register reads depends on the register file alone. -/

theorem State.getReg_of_same_x {s t : State} (h : t.x = s.x) (r : RegIdx) : t.getReg r = s.getReg r := by
  simp only [State.getReg, h]

@[simp] theorem State.setReg_setData_x (s : State) (d : DataSide) (rd : RegIdx) (v : Word) :
    ((s.setData d).setReg rd v).x = (s.setReg rd v).x := by
  unfold State.setReg
  split <;> rfl

/-- No register write reaches the stored slot of x0 (R21). -/
theorem State.setReg_x_slot_zero (s : State) (rd : RegIdx) (v : Word) : (s.setReg rd v).x[0] = s.x[0] := by
  unfold State.setReg
  split
  · rfl
  · next hrd =>
    have hne : rd.toNat ≠ 0 := fun e => hrd (BitVec.eq_of_toNat_eq e)
    exact Vector.getElem_set_ne rd.isLt (by decide) hne

/-! The registers an instruction writes (R23). -/

/-- The register file of `t` is that of `s`, or that of `s` with one write to the register `o` names. -/
def WritesAtMost (o : Option RegIdx) (s t : State) : Prop :=
  t.x = s.x ∨ ∃ rd v, o = some rd ∧ t.x = (s.setReg rd v).x

theorem WritesAtMost.getReg {o : Option RegIdx} {s t : State} (h : WritesAtMost o s t) {r : RegIdx} (hr : o ≠ some r) :
    t.getReg r = s.getReg r := by
  rcases h with hx | ⟨rd, v, rfl, hx⟩
  · exact State.getReg_of_same_x hx r
  · have hne : r ≠ rd := fun e => hr (congrArg some e.symm)
    rw [State.getReg_of_same_x hx r]
    simp [hne]

theorem WritesAtMost.slot_zero {o : Option RegIdx} {s t : State} (h : WritesAtMost o s t) : t.x[0] = s.x[0] := by
  rcases h with hx | ⟨rd, v, -, hx⟩
  · simp only [hx]
  · simp only [hx, State.setReg_x_slot_zero]

theorem loadTemplate_writes (w : Width) (e : Extension) (rd rs1 : RegIdx) (imm : BitVec 12) (s : State) :
    ∃ t, loadTemplate w e rd rs1 imm s = .next t ∧ WritesAtMost (some rd) s t := by
  rcases loadTemplate_cases w e rd rs1 imm s with ⟨-, h⟩ | h
  · exact ⟨_, h, .inr ⟨rd, _, rfl, State.setReg_setData_x s _ rd _⟩⟩
  · exact ⟨_, h, .inl rfl⟩

theorem storeTemplate_writes (w : Width) (rs2 rs1 : RegIdx) (imm : BitVec 12) (s : State) :
    ∃ t, storeTemplate w rs2 rs1 imm s = .next t ∧ WritesAtMost none s t := by
  rcases storeTemplate_cases w rs2 rs1 imm s with ⟨-, h⟩ | h
  · exact ⟨_, h, .inl rfl⟩
  · exact ⟨_, h, .inl rfl⟩

/-- Every instruction writes at most its rd: the loads and stores by their templates, a branch nothing, any other its rd. -/
theorem exec_writes (i : Instr) (s : State) : ∃ t, exec i s = .next t ∧ WritesAtMost i.rd? s t := by
  cases i with
  | lb rd rs1 imm => exact loadTemplate_writes .byte .sext rd rs1 imm s
  | lh rd rs1 imm => exact loadTemplate_writes .half .sext rd rs1 imm s
  | lw rd rs1 imm => exact loadTemplate_writes .word .sext rd rs1 imm s
  | ld rd rs1 imm => exact loadTemplate_writes .double .sext rd rs1 imm s
  | lbu rd rs1 imm => exact loadTemplate_writes .byte .zext rd rs1 imm s
  | lhu rd rs1 imm => exact loadTemplate_writes .half .zext rd rs1 imm s
  | lwu rd rs1 imm => exact loadTemplate_writes .word .zext rd rs1 imm s
  | sb rs2 rs1 imm => exact storeTemplate_writes .byte rs2 rs1 imm s
  | sh rs2 rs1 imm => exact storeTemplate_writes .half rs2 rs1 imm s
  | sw rs2 rs1 imm => exact storeTemplate_writes .word rs2 rs1 imm s
  | sd rs2 rs1 imm => exact storeTemplate_writes .double rs2 rs1 imm s
  | beq _ _ _ => exact ⟨_, rfl, .inl rfl⟩
  | bne _ _ _ => exact ⟨_, rfl, .inl rfl⟩
  | blt _ _ _ => exact ⟨_, rfl, .inl rfl⟩
  | bge _ _ _ => exact ⟨_, rfl, .inl rfl⟩
  | bltu _ _ _ => exact ⟨_, rfl, .inl rfl⟩
  | bgeu _ _ _ => exact ⟨_, rfl, .inl rfl⟩
  | _ => exact ⟨_, rfl, .inr ⟨_, _, rfl, rfl⟩⟩

theorem exec_writes_of_next {i : Instr} {s t : State} (h : exec i s = .next t) : WritesAtMost i.rd? s t := by
  obtain ⟨u, hu, hw⟩ := exec_writes i s
  obtain rfl : u = t := by simpa [hu] using h
  exact hw

/-! The state after an instruction, a step, or an operation of the host. -/

/-- The cases of exec_cases read off the state after the instruction. -/
theorem exec_next_cases {i : Instr} {s t : State} (h : exec i s = .next t) :
    (∃ rd v a, t = (s.setReg rd v).setPc a) ∨
    (∃ (w : Width) (a : Nat) (rd : RegIdx) (v : Word), a + w.bytes ≤ s.params.dataMemSize ∧
      t = ((s.setData (memRead s.data a w.bytes).2).setReg rd v).setPc (s.pc + 4)) ∨
    (∃ (w : Width) (a : Nat) (v : Word), a + w.bytes ≤ s.params.dataMemSize ∧
      t = (s.setData (memWrite s.data a w.bytes v)).setPc (s.pc + 4)) ∨
    (∃ f, f.pc = s.pc ∧ t = s.setStatus (.faulted f)) := by
  have hcases := exec_cases i s
  simp only [ExecEnds, h, Host.Outcome.next.injEq] at hcases
  exact hcases

/-- The cases of step_cases read off the state after the step: nothing, a fault at the pc, the end, or an instruction. -/
theorem step_next_cases {s t : State} (h : step s = .next t) :
    t = s ∨
    (∃ f, f.pc = s.pc ∧ t = s.setStatus (.faulted f)) ∨
    (s.pc.getLsbD 63 = false ∧ s.endAddr ≤ s.pc.toNat ∧ t = s.setStatus .ended) ∨
    (s.status = .ready ∧ ∃ w i, fetch s = .word w ∧ decode w = .legal i ∧ exec i s = .next t) := by
  rcases step_cases s with ⟨-, hs⟩ | ⟨hr, ⟨f, -, hpc, hs⟩ | ⟨-, hneg, hend, hs⟩ | ⟨w, -, -, hs⟩ | ⟨w, i, hf, hd, hs⟩⟩ <;>
    rw [hs] at h
  · exact .inl (Host.Outcome.next.inj h).symm
  · exact .inr (.inl ⟨f, hpc, (Host.Outcome.next.inj h).symm⟩)
  · exact .inr (.inr (.inl ⟨hneg, hend, (Host.Outcome.next.inj h).symm⟩))
  · exact .inr (.inl ⟨_, rfl, (Host.Outcome.next.inj h).symm⟩)
  · exact .inr (.inr (.inr ⟨hr, w, i, hf, hd, h⟩))

/-- What every step keeps, every run keeps (R181). -/
theorem runChoices_keeps {P : State → Prop} (hstep : ∀ s t, P s → step s = .next t → P t) {choices : List Bool} {s t : State} (hs : P s)
    (h : runChoices choices s = .next t) : P t := by
  have stopped : ∀ {u : State}, Host.Outcome.next (φ := Fault) (ρ := Refusal) u = .next t → P u → P t := fun e hu =>
    Host.Outcome.next.inj e ▸ hu
  induction choices generalizing s with
  | nil => exact stopped h hs
  | cons stop more ih =>
    unfold runChoices at h
    cases hst : s.status with
    | ready =>
      obtain ⟨u, hu⟩ := step_next s
      simp only [hst, hu] at h
      split at h
      · exact stopped h hs
      · exact ih (hstep s u hs hu) h
    | unloaded => exact stopped (by simpa only [hst] using h) hs
    | ended => exact stopped (by simpa only [hst] using h) hs
    | faulted f => exact stopped (by simpa only [hst] using h) hs

theorem doneWith_next {o : Host.Outcome State Fault Refusal} {r : Reply} {t : State} (h : doneWith o = .next (r, t)) : o = .next t := by
  cases o with
  | next u => exact congrArg _ (congrArg Prod.snd (Host.Outcome.next.inj h))
  | fault f => nomatch f
  | refused _ => nomatch h

/-- A load replaces the program, the registers and the data side, whether it fails or not. -/
theorem loadSource_next_cases {source : String} {s t : State} {r : Reply} (h : loadSource source s = .next (r, t)) :
    t = loadFailed s ∨ ∃ words image, t = loadDone words image s := by
  rcases loadSource_cases source s with ⟨_, _, -, hl⟩ | ⟨_, _, _, -, -, hl⟩ | ⟨words, image, -, -, hl⟩ <;> rw [hl] at h <;> cases h
  · exact .inl rfl
  · exact .inl rfl
  · exact .inr ⟨words, image, rfl⟩

/-- enable_cache replaces the data side at most. -/
theorem enableCache_setData (q : CacheRequest) (s : State) : ∃ d, (enableCache q s).2 = s.setData d := by
  unfold enableCache
  split
  · exact ⟨s.data, rfl⟩
  · exact ⟨_, rfl⟩

/-- The operations of the host by what they can change (R179): the load, the run and the step; the breakpoint operations; the others change
the data side at most. -/
theorem command_next_cases {c : Command} {s t : State} {r : Reply} (h : command c s = .next (r, t)) :
    (∃ src, c = .load src ∧ loadSource src s = .next (r, t)) ∨
    (∃ choices, c = .run choices ∧ runChoices choices s = .next t) ∨
    (c = .step ∧ step s = .next t) ∨
    (∃ n lines, (c = .setBreakpoint n ∨ c = .clearBreakpoint n) ∧ t = { s with breakpoints := lines }) ∨
    (∃ d, t = s.setData d) := by
  have same : ∀ {a : Reply} {u : State}, Host.Outcome.next (φ := Fault) (ρ := Refusal) (a, u) = .next (r, t) → t = u := fun e =>
    (congrArg Prod.snd (Host.Outcome.next.inj e)).symm
  cases c with
  | load src => exact .inl ⟨src, rfl, h⟩
  | run choices => exact .inr (.inl ⟨choices, rfl, doneWith_next h⟩)
  | step => exact .inr (.inr (.inl ⟨rfl, doneWith_next h⟩))
  | setBreakpoint n => exact .inr (.inr (.inr (.inl ⟨n, _, .inl rfl, same h⟩)))
  | clearBreakpoint n => exact .inr (.inr (.inr (.inl ⟨n, _, .inr rfl, same h⟩)))
  | enableCache q =>
    obtain ⟨d, hd⟩ := enableCache_setData q s
    exact .inr (.inr (.inr (.inr ⟨d, (same h).trans hd⟩)))
  | readRegisters => exact .inr (.inr (.inr (.inr ⟨s.data, same h⟩)))
  | readMemory a n => exact .inr (.inr (.inr (.inr ⟨s.data, same h⟩)))
  | disableCache => exact .inr (.inr (.inr (.inr ⟨_, same h⟩)))
  | cacheStats => exact .inr (.inr (.inr (.inr ⟨s.data, same h⟩)))

/-! Program, parameters and breakpoints (R8, R27, R38). -/

/-- `t` has the program, the parameters and the breakpoints of `s`. -/
def SameProgram (s t : State) : Prop := t.text = s.text ∧ t.params = s.params ∧ t.breakpoints = s.breakpoints

theorem SameProgram.refl (s : State) : SameProgram s s := ⟨rfl, rfl, rfl⟩

theorem SameProgram.trans {s t u : State} : SameProgram s t → SameProgram t u → SameProgram s u :=
  fun ⟨ht, hp, hb⟩ ⟨ht', hp', hb'⟩ => ⟨ht'.trans ht, hp'.trans hp, hb'.trans hb⟩

theorem exec_sameProgram {i : Instr} {s t : State} (h : exec i s = .next t) : SameProgram s t := by
  rcases exec_next_cases h with ⟨rd, v, a, rfl⟩ | ⟨w, a, rd, v, -, rfl⟩ | ⟨w, a, v, -, rfl⟩ | ⟨f, -, rfl⟩ <;> simp [SameProgram]

theorem step_sameProgram {s t : State} (h : step s = .next t) : SameProgram s t := by
  rcases step_next_cases h with rfl | ⟨f, -, rfl⟩ | ⟨-, -, rfl⟩ | ⟨-, w, i, -, -, he⟩
  · exact .refl t
  · exact ⟨rfl, rfl, rfl⟩
  · exact ⟨rfl, rfl, rfl⟩
  · exact exec_sameProgram he

theorem runChoices_sameProgram {choices : List Bool} {s t : State} (h : runChoices choices s = .next t) : SameProgram s t :=
  runChoices_keeps (P := SameProgram s) (fun _ _ hu hs => hu.trans (step_sameProgram hs)) (.refl s) h

/-- A load, failing or not, keeps the parameters and the breakpoints (R191, R192). -/
theorem loadSource_keeps {source : String} {s t : State} {r : Reply} (h : loadSource source s = .next (r, t)) :
    t.params = s.params ∧ t.breakpoints = s.breakpoints := by
  rcases loadSource_next_cases h with rfl | ⟨_, _, rfl⟩ <;> exact ⟨rfl, rfl⟩

/-! The invariant (R9, R27 to R34, R73, R166). -/

theorem statusOk_of_ready {s : State} (h : s.status = .ready) : StatusOk s := by
  simp [StatusOk, h]

/-- A state with the program of a sound one is sound when its data side and its status are. -/
theorem State.Inv.of_sameProgram {s t : State} (hs : s.Inv) (hp : SameProgram s t) (hd : DataOk s.params.dataMemSize t.data)
    (hst : StatusOk t) : t.Inv := by
  obtain ⟨htext, hparams, hbreak⟩ := hp
  exact ⟨hparams ▸ hs.params, by rw [htext, hparams]; exact hs.text, hparams ▸ hd, hst, hbreak ▸ hs.breakpoints⟩

/-- Recording a fault of the current pc keeps the invariant (R166, R167). -/
theorem State.Inv.faulted {s : State} (hs : s.Inv) {f : FaultRecord} (hf : f.pc = s.pc) : (s.setStatus (.faulted f)).Inv :=
  hs.of_sameProgram ⟨rfl, rfl, rfl⟩ hs.data hf

/-- Ending at or past END keeps the invariant (R163). -/
theorem State.Inv.ended {s : State} (hs : s.Inv) (hneg : s.pc.getLsbD 63 = false) (hend : s.endAddr ≤ s.pc.toNat) :
    (s.setStatus .ended).Inv :=
  hs.of_sameProgram ⟨rfl, rfl, rfl⟩ hs.data ⟨hneg, hend⟩

/-- An instruction of a Ready block keeps the invariant: a load or store in bounds keeps the data side sound (memRead_ok, memWrite_ok), any
other instruction leaves it alone, and the status is still Ready or records a fault of this pc. -/
theorem exec_keeps_inv {i : Instr} {s t : State} (hs : s.Inv) (hr : s.status = .ready) (h : exec i s = .next t) : t.Inv := by
  have hp := exec_sameProgram h
  rcases exec_next_cases h with ⟨rd, v, a, rfl⟩ | ⟨w, a, rd, v, ha, rfl⟩ | ⟨w, a, v, ha, rfl⟩ | ⟨f, hf, rfl⟩
  · exact hs.of_sameProgram hp (by simpa using hs.data) (statusOk_of_ready (by simpa using hr))
  · obtain ⟨-, hd, -, -⟩ := memRead_ok hs.data ha
    exact hs.of_sameProgram hp (by simpa using hd) (statusOk_of_ready (by simpa using hr))
  · obtain ⟨hd, -, -⟩ := memWrite_ok hs.data ha v
    exact hs.of_sameProgram hp hd (statusOk_of_ready hr)
  · exact hs.faulted hf

/-- Settles O33: a step does nothing, takes a fault of this pc, ends at END, or runs an instruction of a Ready block, and each keeps the
invariant. -/
theorem stepKeepsInvariant : Obligations.StepKeepsInvariant := by
  unfold Obligations.StepKeepsInvariant
  intro s t hs h
  rcases step_next_cases h with rfl | ⟨f, hf, rfl⟩ | ⟨hneg, hend, rfl⟩ | ⟨hr, w, i, -, -, he⟩
  · exact hs
  · exact hs.faulted hf
  · exact hs.ended hneg hend
  · exact exec_keeps_inv hs hr he

/-- Settles O29: the register file's laws, and for the stored slot of x0 that an instruction writes at most its rd, through setReg. -/
theorem x0Hardwired : Obligations.X0Hardwired := by
  unfold Obligations.X0Hardwired
  refine ⟨State.getReg_zero, State.setReg_zero, fun s i v hi => ⟨?_, fun r hr => ?_⟩, fun s i hi => if_neg hi,
    fun i s t h => (exec_writes_of_next h).slot_zero⟩
  · exact (State.getReg_setReg s i i v).trans (if_pos ⟨rfl, hi⟩)
  · exact (State.getReg_setReg s i r v).trans (if_neg fun ⟨e, _⟩ => hr e)

/-- A step that runs no instruction leaves the register file. -/
theorem step_x_of_no_instr {s t : State} (h : step s = .next t) (hno : ∀ w i, fetch s = .word w → decode w ≠ .legal i) : t.x = s.x := by
  rcases step_next_cases h with rfl | ⟨f, -, rfl⟩ | ⟨-, -, rfl⟩ | ⟨-, w, i, hf, hd, -⟩
  · rfl
  · rfl
  · rfl
  · exact absurd hd (hno w i hf)

/-- Settles O30: an instruction writes at most its rd; a step without an instruction changes the status at most; the host's other operations
change breakpoints or the data side at most. -/
theorem registerWriters : Obligations.RegisterWriters := by
  unfold Obligations.RegisterWriters
  refine ⟨fun i s t r h hr => (exec_writes_of_next h).getReg hr,
    fun s t h hno r => State.getReg_of_same_x (step_x_of_no_instr h hno) r, fun c s t r h hload hrun hstep q => ?_⟩
  rcases command_next_cases h with ⟨src, hc, -⟩ | ⟨ch, hc, -⟩ | ⟨hc, -⟩ | ⟨n, lines, -, rfl⟩ | ⟨d, rfl⟩
  · exact absurd hc (hload src)
  · exact absurd hc (hrun ch)
  · exact absurd hc hstep
  · rfl
  · rfl

/-- Settles O32: a step, and so a run, keeps program, parameters and breakpoints; a load keeps the last two; the host's other operations change
breakpoints or the data side at most. -/
theorem programFixed : Obligations.ProgramFixed := by
  unfold Obligations.ProgramFixed
  refine ⟨fun s t h => step_sameProgram h, fun c s t r h => ?_⟩
  have fixed : SameProgram s t → t.params = s.params ∧ ((∀ src, c ≠ .load src) → t.text = s.text) ∧
      ((∀ n, c ≠ .setBreakpoint n) → (∀ n, c ≠ .clearBreakpoint n) → t.breakpoints = s.breakpoints) :=
    fun ⟨ht, hp, hb⟩ => ⟨hp, fun _ => ht, fun _ _ => hb⟩
  rcases command_next_cases h with ⟨src, hc, hl⟩ | ⟨ch, -, hrun⟩ | ⟨-, hs⟩ | ⟨n, lines, hc, rfl⟩ | ⟨d, rfl⟩
  · obtain ⟨hp, hb⟩ := loadSource_keeps hl
    exact ⟨hp, fun hload => absurd hc (hload src), fun _ _ => hb⟩
  · exact fixed (runChoices_sameProgram hrun)
  · exact fixed (step_sameProgram hs)
  · refine ⟨rfl, fun _ => rfl, fun hset hclear => ?_⟩
    rcases hc with hc | hc
    · exact absurd hc (hset n)
    · exact absurd hc (hclear n)
  · exact fixed ⟨rfl, rfl, rfl⟩

end Sys2Proof.Machine
end

section
/-! Proofs of the family 20_memory, part 1: the form of an instruction (one register and the pc, a load, a store), the data side once uncached, and
from the two the transparency of the cache (R73), the access faults (R52) and a load after a store (R50). -/

namespace Sys2Proof.Machine

/-! The form of an instruction. -/

/-- What an instruction is, for every state: a write of one register and the pc that never looks at the data side, a load, or a store. A branch
writes x0, that is nothing. -/
inductive ExecForm (i : Instr) : Prop where
  | plain (rd : RegIdx) (value target : State → Word) (access : i.access = none)
      (value_setData : ∀ s d, value (s.setData d) = value s) (target_setData : ∀ s d, target (s.setData d) = target s)
      (exec_eq : ∀ s, exec i s = .next ((s.setReg rd (value s)).setPc (target s)))
  | load (w : Width) (e : Extension) (rd rs1 : RegIdx) (imm : BitVec 12) (access : i.access = some (.load, rs1, imm, w.bytes))
      (rd_eq : i.rd? = some rd) (exec_eq : ∀ s, exec i s = loadTemplate w e rd rs1 imm s)
  | store (w : Width) (rs2 rs1 : RegIdx) (imm : BitVec 12) (access : i.access = some (.store, rs1, imm, w.bytes))
      (rs2_eq : i.rs2? = some rs2) (exec_eq : ∀ s, exec i s = storeTemplate w rs2 rs1 imm s)

theorem exec_form (i : Instr) : ExecForm i := by
  cases i with
  | lb rd rs1 imm => exact .load .byte .sext rd rs1 imm rfl rfl fun _ => rfl
  | lh rd rs1 imm => exact .load .half .sext rd rs1 imm rfl rfl fun _ => rfl
  | lw rd rs1 imm => exact .load .word .sext rd rs1 imm rfl rfl fun _ => rfl
  | ld rd rs1 imm => exact .load .double .sext rd rs1 imm rfl rfl fun _ => rfl
  | lbu rd rs1 imm => exact .load .byte .zext rd rs1 imm rfl rfl fun _ => rfl
  | lhu rd rs1 imm => exact .load .half .zext rd rs1 imm rfl rfl fun _ => rfl
  | lwu rd rs1 imm => exact .load .word .zext rd rs1 imm rfl rfl fun _ => rfl
  | sb rs2 rs1 imm => exact .store .byte rs2 rs1 imm rfl rfl fun _ => rfl
  | sh rs2 rs1 imm => exact .store .half rs2 rs1 imm rfl rfl fun _ => rfl
  | sw rs2 rs1 imm => exact .store .word rs2 rs1 imm rfl rfl fun _ => rfl
  | sd rs2 rs1 imm => exact .store .double rs2 rs1 imm rfl rfl fun _ => rfl
  | beq rs1 rs2 off => exact .plain 0#5 (fun _ => 0) _ rfl (fun _ _ => rfl) (fun _ _ => rfl) fun _ => rfl
  | bne rs1 rs2 off => exact .plain 0#5 (fun _ => 0) _ rfl (fun _ _ => rfl) (fun _ _ => rfl) fun _ => rfl
  | blt rs1 rs2 off => exact .plain 0#5 (fun _ => 0) _ rfl (fun _ _ => rfl) (fun _ _ => rfl) fun _ => rfl
  | bge rs1 rs2 off => exact .plain 0#5 (fun _ => 0) _ rfl (fun _ _ => rfl) (fun _ _ => rfl) fun _ => rfl
  | bltu rs1 rs2 off => exact .plain 0#5 (fun _ => 0) _ rfl (fun _ _ => rfl) (fun _ _ => rfl) fun _ => rfl
  | bgeu rs1 rs2 off => exact .plain 0#5 (fun _ => 0) _ rfl (fun _ _ => rfl) (fun _ _ => rfl) fun _ => rfl
  | _ => exact .plain _ _ _ rfl (fun _ _ => rfl) (fun _ _ => rfl) fun _ => rfl

/-- The three forms, told apart by the data access. -/
theorem exec_plain {i : Instr} (h : i.access = none) :
    ∃ (rd : RegIdx) (value target : State → Word),
      (∀ s d, value (s.setData d) = value s) ∧ (∀ s d, target (s.setData d) = target s) ∧
      ∀ s, exec i s = .next ((s.setReg rd (value s)).setPc (target s)) := by
  cases exec_form i with
  | plain rd value target _ hv ht he => exact ⟨rd, value, target, hv, ht, he⟩
  | load _ _ _ _ _ ha => rw [ha] at h; nomatch h
  | store _ _ _ _ ha => rw [ha] at h; nomatch h

theorem exec_load {i : Instr} {rs1 : RegIdx} {imm : BitVec 12} {n : Nat} (h : i.access = some (.load, rs1, imm, n)) :
    ∃ w e rd, n = Width.bytes w ∧ i.rd? = some rd ∧ ∀ s, exec i s = loadTemplate w e rd rs1 imm s := by
  cases exec_form i with
  | plain _ _ _ ha => rw [ha] at h; nomatch h
  | load w e rd _ _ ha hrd he => rw [ha] at h; cases h; exact ⟨w, e, rd, rfl, hrd, he⟩
  | store _ _ _ _ ha => rw [ha] at h; nomatch h

theorem exec_store {i : Instr} {rs1 : RegIdx} {imm : BitVec 12} {n : Nat} (h : i.access = some (.store, rs1, imm, n)) :
    ∃ w rs2, n = Width.bytes w ∧ i.rs2? = some rs2 ∧ ∀ s, exec i s = storeTemplate w rs2 rs1 imm s := by
  cases exec_form i with
  | plain _ _ _ ha => rw [ha] at h; nomatch h
  | load _ _ _ _ _ ha => rw [ha] at h; nomatch h
  | store w rs2 _ _ ha hrs2 he => rw [ha] at h; cases h; exact ⟨w, rs2, rfl, hrs2, he⟩

/-- Settles O23: the load and the store template make the bounds check first. -/
theorem accessFaults : Obligations.AccessFaults := by
  unfold Obligations.AccessFaults
  refine fun i s rs1 imm n hout => ⟨fun ha => ?_, fun ha => ?_⟩
  · obtain ⟨w, e, rd, rfl, -, he⟩ := exec_load ha
    rw [he, loadTemplate_out w e rd rs1 imm s hout, takeFault_eq]
  · obtain ⟨w, rs2, rfl, -, he⟩ := exec_store ha
    rw [he, storeTemplate_out w rs2 rs1 imm s hout, takeFault_eq]

/-- Settles O31: an instruction without an access writes one register and the pc. -/
theorem onlyAccessesTouchData : Obligations.OnlyAccessesTouchData := by
  unfold Obligations.OnlyAccessesTouchData
  intro i s t ha h
  obtain ⟨rd, value, target, -, -, he⟩ := exec_plain ha
  obtain rfl := Host.Outcome.next.inj ((he s).symm.trans h)
  have hdata : ((s.setReg rd (value s)).setPc (target s)).data = s.data := by simp
  exact ⟨fun a => by rw [hdata], hdata⟩

/-! The data side once uncached. -/

/-- A data side with nothing but memory. -/
def DataSide.ofMem (m : Memory) : DataSide := { DataSide.zero with mem := m }

theorem memRead_ofMem (m : Memory) (a n : Nat) : memRead (.ofMem m) a n = (backRead m a n, .ofMem m) := rfl
theorem memWrite_ofMem (m : Memory) (a n : Nat) (v : Word) : memWrite (.ofMem m) a n v = .ofMem (backWrite m a n v) := rfl
@[simp] theorem view_ofMem (m : Memory) (a : Nat) : view (.ofMem m) a = readByte m a := rfl

/-- The data side of State.uncached: dirty lines written back, the cache off, counters and draws forgotten. -/
def DataSide.uncached (d : DataSide) : DataSide :=
  { disableCache .flush d with accesses := 0, hits := 0, misses := 0, draws := 0 }

theorem State.uncached_eq (s : State) : s.uncached = s.setData s.data.uncached := rfl

section
variable {size : Nat} {d : DataSide} (h : DataOk size d)
include h

theorem DataOk.uncached : DataOk size d.uncached := by
  obtain ⟨hok, -, hcfg, -, -, -⟩ := disableCache_flush_ok h
  exact ⟨hok.memWf, hok.memIn, rfl, hok.off, fun c hc => nomatch hcfg.symm.trans hc⟩

/-- Nothing is left of an uncached data side but its memory. -/
theorem DataOk.uncached_eq : d.uncached = .ofMem d.uncached.mem := by
  obtain ⟨hok, -, hcfg, -, -, -⟩ := disableCache_flush_ok h
  simp only [DataSide.uncached, DataSide.ofMem, DataSide.zero, hcfg, hok.off hcfg]

/-- Switching the cache off with a flush makes memory the coherent view (R73, R76). -/
theorem DataOk.readByte_uncached (a : Nat) : readByte d.uncached.mem a = view d a := by
  obtain ⟨-, hmem, -, -, -, -⟩ := disableCache_flush_ok h
  exact hmem a

theorem DataOk.view_uncached (a : Nat) : view d.uncached a = view d a := by
  rw [h.uncached_eq, view_ofMem, h.readByte_uncached]

/-- The uncached data side is the only one of a sound memory alone that shows the same view. -/
theorem DataOk.ofMem_eq_uncached {m : Memory} (hm : DataOk size (.ofMem m)) (hv : ∀ a, readByte m a = view d a) :
    .ofMem m = d.uncached := by
  have hmem : m = d.uncached.mem :=
    Memory.ext_read hm.memWf h.uncached.memWf fun a => (hv a).trans (h.readByte_uncached a).symm
  rw [h.uncached_eq, hmem]

/-- Two sound data sides that show one view are the same once uncached. -/
theorem DataOk.uncached_congr {e : DataSide} (he : DataOk size e) (hv : ∀ a, view e a = view d a) : e.uncached = d.uncached := by
  rw [he.uncached_eq]
  exact h.ofMem_eq_uncached (he.uncached_eq ▸ he.uncached) fun a => (he.readByte_uncached a).trans (hv a)

/-- A read answers the same value without the cache, and leaves the same data side once uncached (R73). -/
theorem DataOk.memRead_uncached {a n : Nat} (ha : a + n ≤ size) :
    memRead d.uncached a n = ((memRead d a n).1, (memRead d a n).2.uncached) := by
  obtain ⟨hval, hok, hview, -⟩ := memRead_ok h ha
  obtain ⟨hval', -, -, -⟩ := memRead_ok h.uncached ha
  have hdata : (memRead d.uncached a n).2 = d.uncached := by rw [h.uncached_eq, memRead_ofMem]
  refine Prod.ext ?_ (hdata.trans (h.uncached_congr hok hview).symm)
  simp only [hval, hval', h.view_uncached]

/-- A write leaves the same data side once uncached, with the cache and without it (R73). -/
theorem DataOk.memWrite_uncached {a n : Nat} (ha : a + n ≤ size) (v : Word) :
    memWrite d.uncached a n v = (memWrite d a n v).uncached := by
  obtain ⟨hok, hview, -⟩ := memWrite_ok h ha v
  obtain ⟨hok', hview', -⟩ := memWrite_ok h.uncached ha v
  rw [h.uncached_eq, memWrite_ofMem] at hok' hview'
  rw [h.uncached_eq, memWrite_ofMem]
  refine hok.ofMem_eq_uncached hok' fun x => ?_
  rw [← view_ofMem, hview', hview, view_ofMem, h.readByte_uncached]

end

/-! The step once uncached. -/

@[simp] theorem State.uncached_setPc (s : State) (a : Word) : (s.setPc a).uncached = s.uncached.setPc a := rfl
@[simp] theorem State.uncached_setStatus (s : State) (st : Status) : (s.setStatus st).uncached = s.uncached.setStatus st := rfl
@[simp] theorem State.uncached_setData (s : State) (d : DataSide) : (s.setData d).uncached = s.setData d.uncached := rfl
@[simp] theorem State.uncached_setReg (s : State) (rd : RegIdx) (v : Word) : (s.setReg rd v).uncached = s.uncached.setReg rd v := by
  unfold State.setReg
  split <;> rfl

/-- A load answers alike with the cache and without it: out of bounds it faults, in bounds it reads the same view. -/
theorem loadTemplate_uncached {s t : State} (hs : s.Inv) {w : Width} {e : Extension} {rd rs1 : RegIdx} {imm : BitVec 12}
    (h : loadTemplate w e rd rs1 imm s = .next t) : loadTemplate w e rd rs1 imm s.uncached = .next t.uncached := by
  rcases Nat.lt_or_ge s.params.dataMemSize ((effAddr s rs1 imm).toNat + w.bytes) with hout | hin
  · rw [loadTemplate_out _ _ _ _ _ _ hout] at h
    cases h
    exact loadTemplate_out _ _ _ _ _ s.uncached hout
  · rw [loadTemplate_in _ _ _ _ _ _ hin] at h
    cases h
    have hread : memRead s.uncached.data (effAddr s.uncached rs1 imm).toNat w.bytes = _ := hs.data.memRead_uncached hin
    rw [loadTemplate_in _ _ _ _ _ s.uncached hin, hread]
    simp only [State.uncached_setPc, State.uncached_setReg, State.uncached_setData]
    rfl

/-- A store answers alike with the cache and without it: out of bounds it faults, in bounds it writes the same bytes into the view. -/
theorem storeTemplate_uncached {s t : State} (hs : s.Inv) {w : Width} {rs2 rs1 : RegIdx} {imm : BitVec 12}
    (h : storeTemplate w rs2 rs1 imm s = .next t) : storeTemplate w rs2 rs1 imm s.uncached = .next t.uncached := by
  rcases Nat.lt_or_ge s.params.dataMemSize ((effAddr s rs1 imm).toNat + w.bytes) with hout | hin
  · rw [storeTemplate_out _ _ _ _ _ hout] at h
    cases h
    exact storeTemplate_out _ _ _ _ s.uncached hout
  · rw [storeTemplate_in _ _ _ _ _ hin] at h
    cases h
    have hwrite : memWrite s.uncached.data (effAddr s.uncached rs1 imm).toNat w.bytes (s.uncached.getReg rs2) = _ :=
      hs.data.memWrite_uncached hin (s.getReg rs2)
    rw [storeTemplate_in _ _ _ _ s.uncached hin, hwrite]
    rfl

theorem exec_uncached {i : Instr} {s t : State} (hs : s.Inv) (h : exec i s = .next t) : exec i s.uncached = .next t.uncached := by
  cases exec_form i with
  | plain rd value target _ hv ht he =>
    obtain rfl := Host.Outcome.next.inj ((he s).symm.trans h)
    rw [he, State.uncached_setPc, State.uncached_setReg, State.uncached_eq, hv, ht]
  | load w e rd rs1 imm _ _ he => exact (he _).trans (loadTemplate_uncached hs ((he s).symm.trans h))
  | store w rs2 rs1 imm _ _ he => exact (he _).trans (storeTemplate_uncached hs ((he s).symm.trans h))

theorem step_of_ready {s : State} (h : s.status = .ready) : step s = cycle s := by
  unfold step stepWhenReady
  rw [h]

theorem cycle_uncached {s t : State} (hs : s.Inv) (h : cycle s = .next t) : cycle s.uncached = .next t.uncached := by
  have hfetch : fetch s.uncached = fetch s := rfl
  unfold cycle at h ⊢
  rw [hfetch]
  cases hf : fetch s with
  | fault f => rw [hf] at h; cases h; rfl
  | ended => rw [hf] at h; cases h; rfl
  | word w =>
    simp only [hf, decodeExecute] at h ⊢
    cases hd : decode w with
    | illegal => rw [hd] at h; cases h; rfl
    | legal i => rw [hd] at h; exact exec_uncached hs h

theorem step_uncached {s t : State} (hs : s.Inv) (h : step s = .next t) : step s.uncached = .next t.uncached := by
  by_cases hr : s.status = .ready
  · rw [step_of_ready hr] at h
    rw [step_of_ready (s := s.uncached) hr]
    exact cycle_uncached hs h
  · rw [step_of_not_ready hr] at h
    cases h
    exact step_of_not_ready (s := s.uncached) hr

/-- Settles O46: a step reads registers, pc, status and program, which the uncached state shares, and of the data side only the view. -/
theorem cacheIsTransparent : Obligations.CacheIsTransparent := by
  unfold Obligations.CacheIsTransparent
  exact fun _ _ hs h => step_uncached hs h

/-- A block that is not Ready does not run (R181). -/
theorem runChoices_of_not_ready {s : State} (h : s.status ≠ .ready) (choices : List Bool) : runChoices choices s = .next s := by
  cases choices with
  | nil => rfl
  | cons stop more =>
    unfold runChoices
    split
    · next hr => exact absurd hr h
    · rfl
    · rfl
    · rfl

/-- A Ready block stops at a breakpoint or takes a step and runs on (R181, R187). -/
theorem runChoices_of_ready {s u : State} (h : s.status = .ready) (hu : step s = .next u) (stop : Bool) (more : List Bool) :
    runChoices (stop :: more) s = if stop && !s.breakpoints.isEmpty then .next s else runChoices more u := by
  rw [runChoices]
  simp only [h, hu]

/-- A run commutes with switching the cache off, as each of its steps does. -/
theorem runChoices_uncached {choices : List Bool} {s t : State} (hs : s.Inv) (h : runChoices choices s = .next t) :
    runChoices choices s.uncached = .next t.uncached := by
  induction choices generalizing s with
  | nil => cases h; rfl
  | cons stop more ih =>
    by_cases hr : s.status = .ready
    · obtain ⟨u, hu⟩ := step_next s
      rw [runChoices_of_ready hr hu] at h
      rw [runChoices_of_ready (s := s.uncached) hr (step_uncached hs hu)]
      change (if stop && !s.breakpoints.isEmpty then _ else _) = _
      split at h
      · next hstop => rw [if_pos hstop]; cases h; rfl
      · next hstop => rw [if_neg hstop]; exact ih (stepKeepsInvariant s u hs hu) h
    · rw [runChoices_of_not_ready hr] at h
      rw [← Host.Outcome.next.inj h]
      exact runChoices_of_not_ready (s := s.uncached) hr _

/-- Settles O47: both runs, once uncached, are one run of one uncached state. -/
theorem runsAreTransparent : Obligations.RunsAreTransparent := by
  unfold Obligations.RunsAreTransparent
  intro choices s s' t t' hs hs' heq h h'
  have hrun := runChoices_uncached hs h
  rw [heq, runChoices_uncached hs' h'] at hrun
  exact (Host.Outcome.next.inj hrun).symm

/-! A load after a store (R50). -/

theorem Width.bytes_le (w : Width) : w.bytes ≤ 8 := by cases w <;> decide

/-- Widening a loaded value keeps the bytes that were loaded (R135). -/
theorem byteOf_extend (e : Extension) {n : Nat} (v : Word) {k : Nat} (hn : n ≤ 8) (hk : k < n) : byteOf (extend e n v) k = byteOf v k := by
  unfold byteOf
  ext i hi
  have hlow : 8 * k + i < 8 * n := by omega
  have hword : 8 * k + i < 64 := by omega
  cases e <;> simp [extend, BitVec.getElem_signExtend, hlow, hword]

/-- The state after a store in bounds shows the stored bytes and the old view elsewhere (R50, R136). -/
theorem storeTemplate_view {s : State} (hs : s.Inv) {w : Width} {rs2 rs1 : RegIdx} {imm : BitVec 12}
    (h : (effAddr s rs1 imm).toNat + w.bytes ≤ s.params.dataMemSize) :
    ∃ d, storeTemplate w rs2 rs1 imm s = .next ((s.setData d).setPc (s.pc + 4)) ∧ DataOk s.params.dataMemSize d ∧
      ∀ x, view d x = if (effAddr s rs1 imm).toNat ≤ x ∧ x < (effAddr s rs1 imm).toNat + w.bytes
        then byteOf (s.getReg rs2) (x - (effAddr s rs1 imm).toNat) else s.view x := by
  obtain ⟨hok, hview, -⟩ := memWrite_ok hs.data h (s.getReg rs2)
  exact ⟨_, storeTemplate_in w rs2 rs1 imm s h, hok, hview⟩

/-- The register a load in bounds writes holds the bytes of the view (R48, R135). -/
theorem loadTemplate_bytes {s : State} (hd : DataOk s.params.dataMemSize s.data) {w : Width} {e : Extension} {rd rs1 : RegIdx} {imm : BitVec 12}
    (hrd : rd ≠ 0) (h : (effAddr s rs1 imm).toNat + w.bytes ≤ s.params.dataMemSize) :
    ∃ u, loadTemplate w e rd rs1 imm s = .next u ∧
      ∀ k, k < w.bytes → byteOf (u.getReg rd) k = s.view ((effAddr s rs1 imm).toNat + k) := by
  refine ⟨_, loadTemplate_in w e rd rs1 imm s h, fun k hk => ?_⟩
  obtain ⟨hval, -, -, -⟩ := memRead_ok hd h
  have hk8 : k < 8 := Nat.lt_of_lt_of_le hk w.bytes_le
  rw [State.getReg_setPc, State.getReg_setReg, if_pos ⟨rfl, hrd⟩, byteOf_extend e _ w.bytes_le hk, hval, byteOf_leValue _ _ hk8]
  simp [hk, State.view]

/-- Settles O24: the load reads the view the store has left. -/
theorem loadAfterStore : Obligations.LoadAfterStore := by
  unfold Obligations.LoadAfterStore
  intro i j s rs1 rs1' rs2 rd imm imm' n m hs hi hrs2 hj hrd hrd0 hin hin'
  obtain ⟨w, rs2', rfl, hrs2', hei⟩ := exec_store hi
  obtain ⟨w', e, rd', rfl, hrd', hej⟩ := exec_load hj
  obtain rfl : rs2' = rs2 := Option.some.inj (hrs2'.symm.trans hrs2)
  obtain rfl : rd' = rd := Option.some.inj (hrd'.symm.trans hrd)
  obtain ⟨d, hstore, hd, hview⟩ := storeTemplate_view hs (rs2 := rs2') hin
  obtain ⟨u, hload, hbytes⟩ :=
    loadTemplate_bytes (s := (s.setData d).setPc (s.pc + 4)) hd (w := w') (e := e) (rs1 := rs1') (imm := imm') hrd0 hin'
  exact ⟨_, u, (hei s).trans hstore, (hej _).trans hload, fun k hk => (hbytes k hk).trans (hview _)⟩

end Sys2Proof.Machine
end

section
/-! Proofs of the family 20_memory, part 2: the backing-memory primitives (R53), the address split (R59, R60), the segments of an access (R61) and
the choice of the victim (R64). -/

namespace Sys2Proof.Machine

/-! Little-endian values as sums (R53). -/

/-- The first byte is the low digit in base 256, as long as the rest leaves room for it. -/
theorem leValue_cons_toNat (b : Byte) {bs : List Byte} (h : (leValue bs).toNat < 256 ^ 7) :
    (leValue (b :: bs)).toNat = b.toNat + 256 * (leValue bs).toNat := by
  have hb : b.toNat < 2 ^ 8 := b.isLt
  rw [leValue, BitVec.toNat_or, BitVec.toNat_setWidth_of_le (by decide), BitVec.toNat_shiftLeft, Nat.shiftLeft_eq,
    Nat.mod_eq_of_lt (by omega), ← Nat.shiftLeft_eq, Nat.or_comm, ← Nat.shiftLeft_add_eq_or_of_lt hb, Nat.shiftLeft_eq]
  omega

/-- Up to eight bytes are the digits of their little-endian value in base 256. -/
theorem leValue_toNat {bs : List Byte} (h : bs.length ≤ 8) : (leValue bs).toNat = Nat.ofDigits 256 (bs.map BitVec.toNat) := by
  induction bs with
  | nil => rfl
  | cons b bs ih =>
    rw [List.length_cons] at h
    have hrest := ih (by omega)
    have hlt : Nat.ofDigits 256 (bs.map BitVec.toNat) < 256 ^ (bs.map BitVec.toNat).length :=
      Nat.ofDigits_lt_base_pow_length (by decide) (by simpa using fun x _ => x.isLt)
    have hpow : 256 ^ (bs.map BitVec.toNat).length ≤ 256 ^ 7 := Nat.pow_le_pow_right (by decide) (by rw [List.length_map]; omega)
    rw [leValue_cons_toNat b (by omega), hrest, List.map_cons, Nat.ofDigits_cons]

theorem backRead_toNat (m : Memory) (a : Nat) {n : Nat} (hn : n ≤ 8) :
    (backRead m a n).toNat = ((List.range n).map fun k => (readByte m (a + k)).toNat * 2 ^ (8 * k)).sum := by
  rw [backRead, leValue_toNat (by simpa using hn), Nat.ofDigits_eq_sum_mapIdx]
  congr 1
  apply List.ext_getElem
  · simp
  · intro k hk hk'
    simp [readBytes_eq_map, Nat.pow_mul]

/-- Settles O38: a read by its digits in base 256, a write by the law of a run of bytes. -/
theorem backingPrimitives : Obligations.BackingPrimitives := by
  unfold Obligations.BackingPrimitives
  refine fun m a n v hm hn => ⟨backRead_toNat m a hn, fun x => ?_⟩
  rw [backWrite, readByte_writeBytes hm, leBytes_length]
  split
  · exact leBytes_getD v n _ (by omega)
  · rfl

/-! The address split (R59, R60). -/

/-- Settles O39: the split as quotients and remainders; a line's base is its block's address with offset 0. -/
theorem addressSplit : Obligations.AddressSplit := by
  unfold Obligations.AddressSplit
  intro size c a h
  refine ⟨blockOffset_eq h a, setIndex_eq h a, ?_, ?_, (blockBase_eq h a).symm, fun tag set hset => ?_⟩
  · rw [tagOf_eq h, Nat.div_div_eq_div_mul]
  · rw [blockBase, blockOffset_eq h]
  · have hpos := blockSize_pos h
    exact ⟨tagOf_line h hset hpos tag, setIndex_line h hset hpos tag, blockOffset_line h hset hpos tag⟩

/-! Segments (R61). -/

section
variable (c : CacheConfig) (a n : Nat)

theorem segmentsFrom_of_le (fuel : Nat) {k : Nat} (hk : n ≤ k) : segmentsFrom c a n fuel k = [] := by
  cases fuel with
  | zero => rfl
  | succ fuel => rw [segmentsFrom, if_neg (by omega)]

/-- The length of the segment at byte position `k`: up to the end of the access or of the block. -/
def segmentLen (k : Nat) : Nat := min (n - k) (c.blockSize - blockOffset c (a + k))

theorem segmentsFrom_of_lt (fuel : Nat) {k : Nat} (hk : k < n) :
    segmentsFrom c a n (fuel + 1) k = ⟨a + k, k, segmentLen c a n k⟩ :: segmentsFrom c a n fuel (k + segmentLen c a n k) := if_pos hk

variable {c a n}

theorem segmentLen_le (k : Nat) : segmentLen c a n k ≤ n - k := Nat.min_le_left _ _

/-- A segment starts at its byte of the access and is as long as segmentLen says. -/
theorem mem_segmentsFrom {fuel k : Nat} {g : Segment} (hg : g ∈ segmentsFrom c a n fuel k) :
    g.addr = a + g.pos ∧ g.pos < n ∧ g.len = segmentLen c a n g.pos := by
  induction fuel generalizing k with
  | zero => nomatch hg
  | succ fuel ih =>
    by_cases hk : k < n
    · rw [segmentsFrom_of_lt c a n fuel hk] at hg
      rcases List.mem_cons.mp hg with rfl | hg
      · exact ⟨rfl, hk, rfl⟩
      · exact ih hg
    · rw [segmentsFrom_of_le c a n _ (Nat.le_of_not_lt hk)] at hg
      nomatch hg

variable {size : Nat} (h : configOk size c = true)
include h

theorem segmentLen_pos {k : Nat} (hk : k < n) : 0 < segmentLen c a n k := by
  have := blockOffset_lt h (a + k)
  unfold segmentLen
  omega

/-- The segments from position `k` on cover the positions from `k` on in order. -/
theorem segmentsFrom_positions (fuel : Nat) {k : Nat} (hf : n ≤ k + fuel) :
    (segmentsFrom c a n fuel k).flatMap (fun g => (List.range g.len).map (g.pos + ·)) = List.range' k (n - k) := by
  induction fuel generalizing k with
  | zero => simp [segmentsFrom, show n - k = 0 by omega]
  | succ fuel ih =>
    by_cases hk : k < n
    · have hpos := segmentLen_pos (a := a) h hk
      have hle : segmentLen c a n k ≤ n - k := segmentLen_le k
      have hsum : n - k = segmentLen c a n k + (n - (k + segmentLen c a n k)) := by omega
      rw [segmentsFrom_of_lt c a n fuel hk, List.flatMap_cons, ih (by omega), ← List.range'_eq_map_range, hsum, ← List.range'_append_1]
    · simp [segmentsFrom_of_le c a n _ (Nat.le_of_not_lt hk), show n - k = 0 by omega]

/-- The segments from position `k` on are at most the blocks that the rest of the access touches. -/
theorem segmentsFrom_length (fuel k : Nat) :
    (segmentsFrom c a n fuel k).length ≤ (blockOffset c (a + k) + (n - k) + c.blockSize - 1) / c.blockSize := by
  have hb := blockSize_pos h
  induction fuel generalizing k with
  | zero => exact Nat.zero_le _
  | succ fuel ih =>
    by_cases hk : k < n
    · rw [segmentsFrom_of_lt c a n fuel hk, List.length_cons]
      by_cases hlast : n - k ≤ c.blockSize - blockOffset c (a + k)
      · -- the access ends in this block
        have hlen : segmentLen c a n k = n - k := Nat.min_eq_left hlast
        rw [segmentsFrom_of_le c a n _ (by omega), List.length_nil, Nat.le_div_iff_mul_le hb]
        omega
      · -- the next segment starts at a block boundary
        have ho := blockOffset_lt h (a + k)
        have hlen : segmentLen c a n k = c.blockSize - blockOffset c (a + k) := Nat.min_eq_right (Nat.le_of_not_le hlast)
        have hnext : blockOffset c (a + (k + segmentLen c a n k)) = 0 := by
          have hmod := Nat.div_add_mod (a + k) c.blockSize
          rw [← blockOffset_eq h] at hmod
          have haddr : a + (k + segmentLen c a n k) = c.blockSize * ((a + k) / c.blockSize) + c.blockSize := by omega
          rw [blockOffset_eq h, haddr, Nat.add_mod_right, Nat.mul_mod_right]
        have hrest := ih (k + segmentLen c a n k)
        rw [hnext] at hrest
        have hsum : blockOffset c (a + k) + (n - k) + c.blockSize - 1 =
            (0 + (n - (k + segmentLen c a n k)) + c.blockSize - 1) + c.blockSize := by omega
        rw [hsum, Nat.add_div_right _ hb]
        omega
    · rw [segmentsFrom_of_le c a n _ (Nat.le_of_not_lt hk)]
      exact Nat.zero_le _

end

/-- Settles O40: the segments cover the access in order; each is as long as segmentLen says; and there are at most as many as blocks touched. -/
theorem segmentSplit : Obligations.SegmentSplit := by
  unfold Obligations.SegmentSplit
  intro size c a n h
  have hb := blockSize_pos h
  refine ⟨?_, fun g hg => ?_, fun hn hone => ?_, ?_⟩
  · rw [segments, segmentsFrom_positions h n (by omega), List.range_eq_range', Nat.sub_zero]
  · obtain ⟨haddr, hpos, hlen⟩ := mem_segmentsFrom hg
    refine ⟨haddr, hlen ▸ segmentLen_pos h hpos, ?_⟩
    rw [hlen, segmentLen, blockOffset_eq h, haddr]
  · obtain ⟨fuel, rfl⟩ : ∃ fuel, n = fuel + 1 := ⟨n - 1, by omega⟩
    have hlen : segmentLen c a (fuel + 1) 0 = fuel + 1 := by
      simp only [segmentLen, blockOffset_eq h, Nat.add_zero, Nat.sub_zero]
      exact Nat.min_eq_left (by omega)
    rw [segments, segmentsFrom_of_lt c a _ fuel hn, hlen, segmentsFrom_of_le c a _ fuel (by omega), Nat.add_zero]
  · have ho := blockOffset_lt h (a + 0)
    calc (segments c a n).length ≤ (blockOffset c (a + 0) + (n - 0) + c.blockSize - 1) / c.blockSize := segmentsFrom_length h n 0
      _ ≤ ((n + c.blockSize - 1) + c.blockSize) / c.blockSize := Nat.div_le_div_right (by omega)
      _ = (n + c.blockSize - 1) / c.blockSize + 1 := Nat.add_div_right _ hb

/-! The victim (R64). -/

/-- What LRU, FIFO and LFU order the lines by, as a number and a tie-break. -/
def victimKey : Replacement → Line → ℕ ×ₗ ℕ
  | .lru, l => toLex (l.lastAccess.toNat, 0)
  | .fifo, l => toLex (l.loadTime.toNat, 0)
  | .lfu, l => toLex (l.freq.toNat, l.lastAccess.toNat)
  | .random, _ => toLex (0, 0)

section
variable {l m : Line}

theorem victimKey_lru_le : victimKey .lru l ≤ victimKey .lru m ↔ l.lastAccess ≤ m.lastAccess := by
  simp [victimKey, Prod.Lex.toLex_le_toLex, BitVec.le_def, Nat.le_iff_lt_or_eq]

theorem victimKey_lru_lt : victimKey .lru l < victimKey .lru m ↔ l.lastAccess < m.lastAccess := by
  simp [victimKey, Prod.Lex.toLex_lt_toLex, BitVec.lt_def]

theorem victimKey_fifo_le : victimKey .fifo l ≤ victimKey .fifo m ↔ l.loadTime ≤ m.loadTime := by
  simp [victimKey, Prod.Lex.toLex_le_toLex, BitVec.le_def, Nat.le_iff_lt_or_eq]

theorem victimKey_fifo_lt : victimKey .fifo l < victimKey .fifo m ↔ l.loadTime < m.loadTime := by
  simp [victimKey, Prod.Lex.toLex_lt_toLex, BitVec.lt_def]

theorem victimKey_lfu_le : victimKey .lfu l ≤ victimKey .lfu m ↔ l.freq < m.freq ∨ (l.freq = m.freq ∧ l.lastAccess ≤ m.lastAccess) := by
  simp [victimKey, Prod.Lex.toLex_le_toLex, BitVec.lt_def, BitVec.le_def, BitVec.toNat_inj]

theorem victimKey_lfu_lt : victimKey .lfu l < victimKey .lfu m ↔ l.freq < m.freq ∨ (l.freq = m.freq ∧ l.lastAccess < m.lastAccess) := by
  simp [victimKey, Prod.Lex.toLex_lt_toLex, BitVec.lt_def, BitVec.toNat_inj]

end

theorem victimLess_eq (r : Replacement) (l m : Line) : victimLess r l m = decide (victimKey r l < victimKey r m) := by
  cases r with
  | lru => simp only [victimLess, victimKey_lru_lt]
  | fifo => simp only [victimLess, victimKey_fifo_lt]
  | lfu => simp only [victimLess, victimKey_lfu_lt, Bool.decide_or, Bool.decide_and, Bool.beq_eq_decide_eq]
  | random => simp [victimLess, victimKey]

/-- Way `w` is the first of the least lines by `key` (D24). -/
def LeastAt (key : Line → ℕ ×ₗ ℕ) (ways : List Line) (w : Nat) : Prop :=
  ∃ l, ways[w]? = some l ∧ (∀ m ∈ ways, key l ≤ key m) ∧ ∀ j m, j < w → ways[j]? = some m → key l < key m

/-- The running minimum: if `best` at `bestAt` is the first least of the lines before `ls`, the answer is that of all. -/
theorem leastFrom_leastAt {key : Line → ℕ ×ₗ ℕ} {less : Line → Line → Bool} (hless : ∀ l m, less l m = decide (key l < key m))
    {before : List Line} {best : Line} {bestAt : Nat} (ls : List Line) (hbest : before[bestAt]? = some best)
    (hle : ∀ m ∈ before, key best ≤ key m) (hlt : ∀ j m, j < bestAt → before[j]? = some m → key best < key m) :
    LeastAt key (before ++ ls) (leastFrom less best bestAt before.length ls) := by
  induction ls generalizing before best bestAt with
  | nil => rw [List.append_nil]; exact ⟨best, hbest, hle, hlt⟩
  | cons l ls ih =>
    have hlast : (before ++ [l]).length = before.length + 1 := by simp
    have hat : bestAt < before.length := (List.getElem?_eq_some_iff.mp hbest).1
    rw [leastFrom, hless, List.append_cons, ← hlast]
    by_cases hl : key l < key best
    · rw [if_pos (by simpa using hl)]
      refine ih (by simp) (fun m hm => ?_) fun j m hj hm => ?_
      · rcases List.mem_append.mp hm with hm | hm
        · exact le_of_lt (lt_of_lt_of_le hl (hle m hm))
        · rw [List.mem_singleton.mp hm]
      · rw [List.getElem?_append_left hj] at hm
        exact lt_of_lt_of_le hl (hle m (List.mem_of_getElem? hm))
    · rw [if_neg (by simpa using hl)]
      refine ih (by rw [List.getElem?_append_left hat, hbest]) (fun m hm => ?_) fun j m hj hm => ?_
      · rcases List.mem_append.mp hm with hm | hm
        · exact hle m hm
        · rw [List.mem_singleton.mp hm]
          exact le_of_not_gt hl
      · rw [List.getElem?_append_left (by omega)] at hm
        exact hlt j m hj hm

theorem leastWay_leastAt (r : Replacement) {ways : List Line} (hpos : 0 < ways.length) :
    LeastAt (victimKey r) ways (leastWay (victimLess r) ways) := by
  cases ways with
  | nil => nomatch hpos
  | cons l ls =>
    exact leastFrom_leastAt (victimLess_eq r) (before := [l]) ls rfl (by simp) (fun j m hj => nomatch hj)

/-- Every policy but RANDOM takes the first invalid way, and with none the first least one. -/
theorem victimWay_of_ne_random {c : CacheConfig} (h : c.replacement ≠ .random) (ways : List Line) (draw : Nat) :
    victimWay c ways draw = (ways.findIdx? fun l => !l.valid).getD (leastWay (victimLess c.replacement) ways) := by
  unfold victimWay
  split
  · next hr => exact absurd hr h
  · split <;> simp [*]

/-- Settles O41: the two ways a victim is chosen, the second read policy by policy. -/
theorem victimChoice : Obligations.VictimChoice := by
  unfold Obligations.VictimChoice
  intro c ways draw hlen hpos
  refine ⟨fun hr => ?_, fun hr => ⟨fun w hw hbefore => ?_, fun hall => ?_⟩⟩
  · unfold victimWay
    rw [hr]
  · obtain ⟨l, hl, hv⟩ := hw
    obtain ⟨hlt, rfl⟩ := List.getElem?_eq_some_iff.mp hl
    have hfirst : ways.findIdx? (fun l => !l.valid) = some w :=
      List.findIdx?_eq_some_iff_getElem.mpr ⟨hlt, by simp [hv], fun j hj => by
        simp [hbefore j hj ways[j] (List.getElem?_eq_getElem _)]⟩
    rw [victimWay_of_ne_random hr, hfirst, Option.getD_some]
  · have hnone : ways.findIdx? (fun l => !l.valid) = none := List.findIdx?_eq_none_iff.mpr fun l hl => by simp [hall l hl]
    rw [victimWay_of_ne_random hr, hnone, Option.getD_none]
    obtain ⟨l, hl, hle, hlt⟩ := leastWay_leastAt c.replacement (ways := ways) (by omega)
    refine ⟨l, hl, fun hp => ?_, fun hp => ?_, fun hp => ?_⟩ <;> rw [hp] at hle hlt ⊢
    · exact ⟨fun m hm => victimKey_lru_le.mp (hle m hm), fun j m hj hm => victimKey_lru_lt.mp (hlt j m hj hm)⟩
    · exact ⟨fun m hm => victimKey_fifo_le.mp (hle m hm), fun j m hj hm => victimKey_fifo_lt.mp (hlt j m hj hm)⟩
    · exact ⟨fun m hm => victimKey_lfu_le.mp (hle m hm), fun j m hj hm => victimKey_lfu_lt.mp (hlt j m hj hm)⟩

end Sys2Proof.Machine
end

section
/-! Proofs of the family 20_memory, part 3: one lookup (R62 to R66, R75), the counters of an access (R62), where backing memory lags behind the view
(R74), and the host's switching of the cache (R58, R76). -/

namespace Sys2Proof.Machine

/-! One line changed. -/

/-- `e` has the line array of `d` but for the line at `set`, `w`. -/
structure ChangesLine (c : CacheConfig) (set w : Nat) (d e : DataSide) : Prop where
  sets : e.lines.length = d.lines.length
  ways : ∀ s, (getSet e s).length = (getSet d s).length
  others : ∀ s k, ¬ (s = set ∧ k = w) → getLine c e s k = getLine c d s k

theorem ChangesLine.trans {c : CacheConfig} {set w : Nat} {d e f : DataSide} (h : ChangesLine c set w d e) (k : ChangesLine c set w e f) :
    ChangesLine c set w d f :=
  ⟨k.sets.trans h.sets, fun s => (k.ways s).trans (h.ways s), fun s j hne => (k.others s j hne).trans (h.others s j hne)⟩

theorem ChangesLine.refl {c : CacheConfig} {set w : Nat} (d : DataSide) : ChangesLine c set w d d := ⟨rfl, fun _ => rfl, fun _ _ _ => rfl⟩

/-- Only the line array counts. -/
theorem ChangesLine.congr_left {c : CacheConfig} {set w : Nat} {d d' e : DataSide} (h : ChangesLine c set w d' e) (hl : d'.lines = d.lines) :
    ChangesLine c set w d e := by
  have hget : ∀ s, getSet d' s = getSet d s := fun s => by rw [getSet, getSet, hl]
  exact ⟨hl ▸ h.sets, fun s => hget s ▸ h.ways s, fun s k hne => by rw [h.others s k hne, getLine, getLine, hget]⟩

section
variable {c : CacheConfig} {d : DataSide} {set w : Nat} (hs : set < d.lines.length)
include hs

/-- Writing one line changes that line alone, whatever becomes of backing memory. -/
theorem setLine_changesLine (m : Memory) (l : Line) : ChangesLine c set w d (setLine { d with mem := m } set w l) := by
  have hget : ∀ s, getSet (setLine { d with mem := m } set w l) s = if s = set then (getSet d set).set w l else getSet d s :=
    getSet_setLine (d := { d with mem := m }) hs w l
  refine ⟨setLine_lines_length _ set w l, fun s => ?_, fun s k hne => ?_⟩
  · rw [hget]
    split
    · next e => rw [e, List.length_set]
    · rfl
  · rw [getLine, getLine, hget]
    split
    · next e =>
      have hk : w ≠ k := fun e' => hne ⟨e, e'.symm⟩
      rw [e, List.getD_eq_getElem?_getD, List.getElem?_set_ne hk, List.getD_eq_getElem?_getD]
    · rfl

theorem touch_changesLine (t : BitVec 64) : ChangesLine c set w d (touch c d set w t) := setLine_changesLine hs d.mem _

theorem fill_changesLine (sa : Nat) (t : BitVec 64) : ChangesLine c set w d (fill c d set w sa t) := setLine_changesLine hs d.mem _

theorem evict_changesLine : ChangesLine c set w d (evict c d set w) := by
  rw [evict_eq]
  split
  · exact setLine_changesLine hs _ _
  · exact .refl d

variable (hw : w < (getSet d set).length)
include hw

theorem getLine_touch (t : BitVec 64) :
    getLine c (touch c d set w t) set w = { getLine c d set w with lastAccess := t, freq := (getLine c d set w).freq + 1 } :=
  getLine_setLine hs hw _

theorem getLine_fill (sa : Nat) (t : BitVec 64) :
    getLine c (fill c d set w sa t) set w =
      { getLine c d set w with
        data := readBytes d.mem (blockBase c sa) c.blockSize, valid := true, dirty := false, tag := tagOf c sa, loadTime := t, freq := 0 } :=
  getLine_setLine hs hw _

end

/-- Backing memory after an eviction: a valid dirty line's data in its block (R65). -/
theorem evict_mem (c : CacheConfig) (d : DataSide) (set w : Nat) :
    (evict c d set w).mem =
      if (getLine c d set w).valid = true ∧ (getLine c d set w).dirty = true
      then writeBytes d.mem (lineBase c (getLine c d set w).tag set) (getLine c d set w).data else d.mem := by
  simp only [evict_eq, Bool.and_eq_true]
  split <;> rfl

/-! One lookup, hit or miss (R62). -/

/-- The data side with a hit counted. -/
def countHit (d : DataSide) : DataSide := { d with accesses := d.accesses + 1, hits := d.hits + 1 }

/-- The data side with a miss counted and its draw, if RANDOM makes one, used up. -/
def countMiss (c : CacheConfig) (d : DataSide) : DataSide :=
  { d with accesses := d.accesses + 1, misses := d.misses + 1, draws := nextDraws c d.draws }

/-- The way a miss of address `sa` evicts (R64). -/
def missWay (c : CacheConfig) (d : DataSide) (sa : Nat) : Nat := victimWay c (getSet d (setIndex c sa)) (Config.randWay d.draws)

/-- The data side after the eviction of a miss. -/
def missEvicted (c : CacheConfig) (d : DataSide) (sa : Nat) : DataSide := evict c (countMiss c d) (setIndex c sa) (missWay c d sa)

section
variable {c : CacheConfig} {d : DataSide} {sa : Nat}

theorem lookup_hit {w : Nat} (h : findWay (tagOf c sa) (getSet d (setIndex c sa)) = some w) :
    lookup c d sa = (w, touch c (countHit d) (setIndex c sa) w (d.accesses + 1)) := by
  unfold lookup
  simp only [h]
  rfl

theorem lookup_miss (h : findWay (tagOf c sa) (getSet d (setIndex c sa)) = none) :
    lookup c d sa = (missWay c d sa, touch c (fill c (missEvicted c d sa) (setIndex c sa) (missWay c d sa) sa (d.accesses + 1))
      (setIndex c sa) (missWay c d sa) (d.accesses + 1)) := by
  unfold lookup
  simp only [h]
  rfl

theorem lookup_miss_mem (h : findWay (tagOf c sa) (getSet d (setIndex c sa)) = none) : (lookup c d sa).2.mem = (missEvicted c d sa).mem := by
  rw [lookup_miss h]
  rfl

theorem lookup_miss_counters (h : findWay (tagOf c sa) (getSet d (setIndex c sa)) = none) :
    (lookup c d sa).2.hits = d.hits ∧ (lookup c d sa).2.misses = d.misses + 1 := by
  rw [lookup_miss h]
  simp [missEvicted, countMiss]

theorem lookup_accesses (c : CacheConfig) (d : DataSide) (sa : Nat) : (lookup c d sa).2.accesses = d.accesses + 1 := by
  cases hf : findWay (tagOf c sa) (getSet d (setIndex c sa)) with
  | some w => rw [lookup_hit hf]; rfl
  | none => rw [lookup_miss hf]; simp [missEvicted, countMiss]

theorem exists_findWay_iff {tag : Nat} {ways : List Line} :
    (∃ w, findWay tag ways = some w) ↔ ∃ l ∈ ways, l.valid = true ∧ l.tag = tag := by
  constructor
  · rintro ⟨w, hw⟩
    obtain ⟨hlt, hv, ht⟩ := findWay_some hw
    exact ⟨_, List.getElem_mem hlt, hv, ht⟩
  · rintro ⟨l, hl, hv, ht⟩
    cases hf : findWay tag ways with
    | some w => exact ⟨w, rfl⟩
    | none => exact absurd ht (findWay_none hf l hl hv)

section
variable {size : Nat} (h : Good size c d)
include h

theorem Good.missEvicted_changesLine : ChangesLine c (setIndex c sa) (missWay c d sa) d (missEvicted c d sa) :=
  (evict_changesLine (d := countMiss c d) (h.set_lt (setIndex_lt h.cache.config sa))).congr_left rfl

theorem Good.missFilled_changesLine (t : BitVec 64) : ChangesLine c (setIndex c sa) (missWay c d sa) d
    (Machine.fill c (missEvicted c d sa) (setIndex c sa) (missWay c d sa) sa t) :=
  h.missEvicted_changesLine.trans
    (fill_changesLine (h.missEvicted_changesLine.sets ▸ h.set_lt (setIndex_lt h.cache.config sa)) sa t)

theorem Good.missWay_lt : missWay c d sa < c.associativity :=
  victimWay_lt (h.cache.ways _ (setIndex_lt h.cache.config sa)) (associativity_pos h.cache.config) _

/-- A lookup changes the line it returns and no other. -/
theorem Good.lookup_changesLine : ChangesLine c (setIndex c sa) (lookup c d sa).1 d (lookup c d sa).2 := by
  have hs := h.set_lt (setIndex_lt h.cache.config sa)
  cases hf : findWay (tagOf c sa) (getSet d (setIndex c sa)) with
  | some w =>
    rw [lookup_hit hf]
    exact (touch_changesLine (d := countHit d) hs _).congr_left rfl
  | none =>
    rw [lookup_miss hf]
    have hfill := h.missFilled_changesLine (sa := sa) (d.accesses + 1)
    exact hfill.trans (touch_changesLine (hfill.sets ▸ hs) _)

/-- The line a miss returns: filled from the memory its eviction left, and stamped (R63, R66). -/
theorem Good.getLine_lookup_miss (hf : findWay (tagOf c sa) (getSet d (setIndex c sa)) = none) :
    getLine c (lookup c d sa).2 (setIndex c sa) (lookup c d sa).1 =
      { valid := true, dirty := false, tag := tagOf c sa, data := readBytes (lookup c d sa).2.mem (blockBase c sa) c.blockSize,
        lastAccess := d.accesses + 1, loadTime := d.accesses + 1, freq := 1 } := by
  have hset := setIndex_lt h.cache.config sa
  have hs := h.set_lt hset
  have hw := h.way_lt hset (h.missWay_lt (sa := sa))
  have hevict := h.missEvicted_changesLine (sa := sa)
  have hfill := h.missFilled_changesLine (sa := sa) (d.accesses + 1)
  rw [lookup_miss_mem hf, lookup_miss hf]
  simp only
  rw [getLine_touch (hfill.sets ▸ hs) (hfill.ways _ ▸ hw), getLine_fill (hevict.sets ▸ hs) (hevict.ways _ ▸ hw)]
  rfl

end

end

/-- Settles O42: the line's and the counters' changes on the two paths of a lookup. -/
theorem lookupRule : Obligations.LookupRule := by
  unfold Obligations.LookupRule
  intro size c d sa hd hc hsa set w e l hit
  have hg := hd.good hc
  have hset := setIndex_lt hg.cache.config sa
  have hl := lookup_ok hg hsa
  refine ⟨hl.way, hl.accesses, hl.valid, hl.tag, fun s k _ _ hne => hg.lookup_changesLine.others s k hne, fun hhit => ?_, fun hmiss => ?_⟩
  · obtain ⟨w', hf⟩ := exists_findWay_iff.mpr hhit
    obtain ⟨hw, -, -⟩ := findWay_some hf
    have hline := getLine_touch (c := c) (d := countHit d) (hg.set_lt hset) hw (d.accesses + 1)
    simp only [l, w, e, lookup_hit hf]
    exact ⟨rfl, rfl, rfl, hline⟩
  · have hf : findWay (tagOf c sa) (getSet d (setIndex c sa)) = none :=
      Option.eq_none_iff_forall_ne_some.mpr fun w' hw' => hmiss (exists_findWay_iff.mp ⟨w', hw'⟩)
    have hline : l = _ := hg.getLine_lookup_miss hf
    have hbytes : ∀ k, k < c.blockSize → l.data.getD k 0 = readByte e.mem (blockBase c sa + k) := fun k hk => by
      rw [hline]
      exact readBytes_getD _ _ _ _ hk
    obtain ⟨hhits, hmisses⟩ := lookup_miss_counters hf
    exact ⟨hhits, hmisses, congrArg Prod.fst (lookup_miss hf), congrArg Line.dirty hline, congrArg Line.lastAccess hline,
      congrArg Line.loadTime hline, congrArg Line.freq hline, by rw [hline, readBytes_length], hbytes⟩

/-- Settles O43: a miss leaves the memory its eviction leaves, and the victim's tag is not the new block's. -/
theorem evictionWritesBack : Obligations.EvictionWritesBack := by
  unfold Obligations.EvictionWritesBack
  intro size c d sa hd hc hsa hmiss old base
  have hg := hd.good hc
  have hset := setIndex_lt hg.cache.config sa
  have hw := hg.missWay_lt (sa := sa)
  obtain ⟨hlen, -, hin, -⟩ : LineOk size c d.mem (setIndex c sa) old := hg.lineOk hset hw
  have hmem : (lookup c d sa).2.mem = if old.valid = true ∧ old.dirty = true then writeBytes d.mem base old.data else d.mem :=
    (lookup_miss_mem (findWay_eq_none hmiss)).trans (evict_mem c (countMiss c d) _ _)
  refine ⟨fun hv hdirty => ⟨fun heq => ?_, hin hv, fun a => ?_⟩, fun hno => by rw [hmem, if_neg hno]⟩
  · rw [blockBase_eq hg.cache.config] at heq
    have htag := tagOf_line hg.cache.config hset (blockSize_pos hg.cache.config)
    have hsame : old.tag = tagOf c sa := by rw [← htag old.tag, ← htag (tagOf c sa)]; exact congrArg (tagOf c) heq
    exact hmiss old (getLine_mem (hg.way_lt hset hw)) hv hsame
  · rw [hmem, if_pos ⟨hv, hdirty⟩, readByte_writeBytes hd.memWf, hlen]
    rfl

/-! Counters (R62). -/

/-- From `d` to `e` the counters count `k` accesses, each a hit or a miss. -/
def Counts (k : Nat) (d e : DataSide) : Prop :=
  ∃ h m, h + m = k ∧ e.accesses = d.accesses + BitVec.ofNat 64 k ∧
    e.hits = d.hits + BitVec.ofNat 64 h ∧ e.misses = d.misses + BitVec.ofNat 64 m

theorem Counts.zero {d e : DataSide} (ha : e.accesses = d.accesses) (hh : e.hits = d.hits) (hm : e.misses = d.misses) : Counts 0 d e :=
  ⟨0, 0, rfl, by simp [ha], by simp [hh], by simp [hm]⟩

theorem Counts.trans {j k : Nat} {d e f : DataSide} (h : Counts j d e) (h' : Counts k e f) : Counts (j + k) d f := by
  obtain ⟨hit, miss, rfl, ha, hh, hm⟩ := h
  obtain ⟨hit', miss', rfl, ha', hh', hm'⟩ := h'
  refine ⟨hit + hit', miss + miss', by omega, ?_, ?_, ?_⟩
  · rw [ha', ha, BitVec.add_assoc, ← BitVec.ofNat_add]
  · rw [hh', hh, BitVec.add_assoc, ← BitVec.ofNat_add]
  · rw [hm', hm, BitVec.add_assoc, ← BitVec.ofNat_add]

theorem lookup_counts (c : CacheConfig) (d : DataSide) (sa : Nat) : Counts 1 d (lookup c d sa).2 := by
  cases hf : findWay (tagOf c sa) (getSet d (setIndex c sa)) with
  | some w =>
    refine ⟨1, 0, rfl, lookup_accesses c d sa, ?_⟩
    rw [lookup_hit hf]
    exact ⟨rfl, (BitVec.add_zero _).symm⟩
  | none =>
    obtain ⟨hhits, hmisses⟩ := lookup_miss_counters hf
    exact ⟨0, 1, rfl, lookup_accesses c d sa, hhits.trans (BitVec.add_zero _).symm, hmisses⟩

theorem writeSegment_counts (c : CacheConfig) (bytes : List Byte) (sa w : Nat) (d : DataSide) : Counts 0 d (writeSegment c bytes sa w d) := by
  unfold writeSegment
  simp only
  split <;> exact .zero rfl rfl rfl

theorem readSegments_counts (c : CacheConfig) (gs : List Segment) (d : DataSide) : Counts gs.length d (readSegments c gs d).2 := by
  induction gs generalizing d with
  | nil => exact .zero rfl rfl rfl
  | cons g gs ih =>
    rw [List.length_cons, Nat.add_comm]
    exact (lookup_counts c d g.addr).trans (ih _)

theorem writeSegments_counts (c : CacheConfig) (bytes : List Byte) (gs : List Segment) (d : DataSide) :
    Counts gs.length d (writeSegments c bytes gs d) := by
  induction gs generalizing d with
  | nil => exact .zero rfl rfl rfl
  | cons g gs ih =>
    rw [List.length_cons, Nat.add_comm]
    exact ((lookup_counts c d g.addr).trans (writeSegment_counts c _ g.addr _ _)).trans (ih _)

/-- Settles O44: one lookup for each segment, and each counts one hit or one miss. -/
theorem accessCounts : Obligations.AccessCounts := by
  unfold Obligations.AccessCounts
  refine fun size d a n v _ _ => ⟨fun c hc => ⟨?_, ?_⟩, fun hc => ⟨?_, ?_⟩⟩
  · simp only [memRead, hc]
    exact readSegments_counts c _ d
  · simp only [memWrite, hc]
    exact writeSegments_counts c _ _ d
  · simp only [memRead, hc]
  · simp only [memWrite, hc]

/-! Backing memory and the view (R74). -/

/-- Where no dirty line holds an address, backing memory has its byte of the view. -/
theorem Good.mem_eq_view_of_clean {size : Nat} {c : CacheConfig} {d : DataSide} (h : Good size c d) {a : Nat}
    (hclean : ∀ l ∈ getSet d (setIndex c a), l.valid = true → l.tag = tagOf c a → l.dirty = false) : readByte d.mem a = viewIn c d a := by
  have hs := setIndex_lt h.cache.config a
  rcases h.resident_or_miss a with ⟨w, hw, hv, ht⟩ | hm
  · obtain ⟨-, -, -, hbytes⟩ := h.lineOk hs hw
    have hd := hclean _ (getLine_mem (h.way_lt hs hw)) hv ht
    rw [h.view_line hw hv ht, hbytes hv hd _ (blockOffset_lt h.cache.config a), ht, lineBase_add_offset h.cache.config a]
  · exact (Good.view_miss hm).symm

/-- Settles O45: under write-through no line is dirty; under write-back only a dirty line can differ from memory. -/
theorem backingMemoryView : Obligations.BackingMemoryView := by
  unfold Obligations.BackingMemoryView
  refine fun size d hd => ⟨fun hc a => (view_none hc a).symm, fun c hc => ⟨fun hwt a => ?_, fun a hne => ?_⟩⟩
  · rw [view_some hc]
    refine (hd.good hc).mem_eq_view_of_clean fun l hl _ _ => Bool.eq_false_iff.mpr fun hdirty => ?_
    obtain ⟨-, hwb, -, -⟩ := (hd.on c hc).lines _ (setIndex_lt (hd.on c hc).config a) l hl
    exact nomatch hwt.symm.trans (hwb hdirty).2
  · rw [view_some hc] at hne
    by_contra hno
    refine hne ((hd.good hc).mem_eq_view_of_clean fun l hl hv ht => Bool.eq_false_iff.mpr fun hdirty => hno ⟨l, hl, hv, hdirty, ht⟩)

/-! Switching the cache (R58, R76). -/

theorem disableCache_discard_counters (d : DataSide) :
    (disableCache .discard d).accesses = d.accesses ∧ (disableCache .discard d).hits = d.hits ∧ (disableCache .discard d).misses = d.misses := by
  unfold disableCache
  split <;> exact ⟨rfl, rfl, rfl⟩

/-- Settles O49: what a flush and a discard leave of the data side. -/
theorem disableCacheRule : Obligations.DisableCacheRule := by
  unfold Obligations.DisableCacheRule
  intro s hs
  refine ⟨_, rfl, ?_⟩
  cases hf : s.params.disableFlush with
  | flush =>
    obtain ⟨-, hmem, hoff, ha, hh, hm⟩ := disableCache_flush_ok hs.data
    refine ⟨hoff, ha, hh, hm, fun _ => ⟨hmem, fun a => ?_⟩, (nomatch ·), rfl, rfl, rfl, rfl, rfl, rfl⟩
    exact (view_none hoff a).trans (hmem a)
  | discard =>
    obtain ⟨-, hmem, hoff⟩ := disableCache_discard_ok hs.data
    obtain ⟨ha, hh, hm⟩ := disableCache_discard_counters s.data
    exact ⟨hoff, ha, hh, hm, (nomatch ·), fun _ => hmem, rfl, rfl, rfl, rfl, rfl, rfl⟩

/-! The request of enable_cache (R58). -/

theorem isPow2_iff {n : Nat} : isPow2 n = true ↔ ∃ k, n = 2 ^ k :=
  ⟨fun h => ⟨_, isPow2_eq h⟩, fun ⟨k, hk⟩ => by simp [isPow2, hk, Nat.log2_two_pow]⟩

/-- Conditions 1 to 5 of R58 on natural numbers. -/
theorem configOk_iff {size : Nat} {c : CacheConfig} :
    configOk size c = true ↔
      0 < c.cacheSize ∧ 0 < c.blockSize ∧ 0 < c.associativity ∧ (∃ k, c.cacheSize = 2 ^ k) ∧ (∃ k, c.blockSize = 2 ^ k) ∧
      c.blockSize * c.associativity ∣ c.cacheSize ∧ (∃ k, c.cacheSize = 2 ^ k * (c.blockSize * c.associativity)) ∧ c.blockSize ∣ size := by
  simp only [configOk, Bool.and_eq_true, decide_eq_true_eq, beq_iff_eq, isPow2_iff, and_assoc, ← Nat.dvd_iff_mod_eq_zero, numSets]
  refine and_congr_right fun _ => and_congr_right fun hb => and_congr_right fun ha => and_congr_right fun _ => and_congr_right fun _ =>
    and_congr_right fun hdvd => and_congr_left fun _ => exists_congr fun k => ?_
  exact Nat.div_eq_iff_eq_mul_left (Nat.mul_pos hb ha) hdvd

/-- The configuration a request asks for, its policies named by `p` and `w`. -/
def CacheRequest.config (r : CacheRequest) (p : Replacement) (w : WritePolicy) : CacheConfig :=
  ⟨r.cacheSize.toNat, r.blockSize.toNat, r.associativity.toNat, p, w⟩

theorem acceptConfig_some_iff {size : Nat} {r : CacheRequest} {c : CacheConfig} :
    acceptConfig size r = some c ↔
      ∃ p w, replacementToken r.replacement = some p ∧ writeToken r.write = some w ∧ configOk size (r.config p w) = true ∧ r.config p w = c := by
  unfold acceptConfig
  cases hp : replacementToken r.replacement with
  | none => simp
  | some p =>
    cases hw : writeToken r.write with
    | none => simp
    | some w => simp [CacheRequest.config]

theorem exists_replacementToken_iff {t : String} : (∃ p, replacementToken t = some p) ↔ t ∈ ["LRU", "FIFO", "LFU", "RANDOM"] := by
  unfold replacementToken
  split_ifs <;> simp_all

theorem exists_writeToken_iff {t : String} : (∃ w, writeToken t = some w) ↔ t ∈ ["WB", "WT"] := by
  unfold writeToken
  split_ifs <;> simp_all

/-- The three integers of a request that is accepted are natural numbers. -/
theorem CacheRequest.Accepted.sizes {r : CacheRequest} {size : Nat} (h : r.Accepted size) :
    (r.cacheSize.toNat : Int) = r.cacheSize ∧ (r.blockSize.toNat : Int) = r.blockSize ∧ (r.associativity.toNat : Int) = r.associativity := by
  obtain ⟨hc, hb, ha, -⟩ := h
  omega

/-- The sizes of a request meet R58 over the integers exactly when their configuration does over the natural numbers. -/
theorem configOk_config_iff {size : Nat} {r : CacheRequest} (p : Replacement) (w : WritePolicy) :
    configOk size (r.config p w) = true ↔
      0 < r.cacheSize ∧ 0 < r.blockSize ∧ 0 < r.associativity ∧ (∃ k : Nat, r.cacheSize = 2 ^ k) ∧ (∃ k : Nat, r.blockSize = 2 ^ k) ∧
      r.blockSize * r.associativity ∣ r.cacheSize ∧ (∃ k : Nat, r.cacheSize = 2 ^ k * (r.blockSize * r.associativity)) ∧
      r.blockSize ∣ (size : Int) := by
  obtain ⟨cs, bs, as, rp, rw⟩ := r
  by_cases hpos : 0 < cs ∧ 0 < bs ∧ 0 < as
  · obtain ⟨hc, hb, ha⟩ := hpos
    lift cs to ℕ using hc.le
    lift bs to ℕ using hb.le
    lift as to ℕ using ha.le
    simp only [configOk_iff, CacheRequest.config, Int.toNat_natCast]
    norm_cast
  · refine ⟨fun hok => absurd ?_ hpos, fun ⟨hc, hb, ha, _⟩ => absurd ⟨hc, hb, ha⟩ hpos⟩
    obtain ⟨hc, hb, ha, -⟩ := configOk_iff.mp hok
    exact ⟨Int.pos_iff_toNat_pos.mpr hc, Int.pos_iff_toNat_pos.mpr hb, Int.pos_iff_toNat_pos.mpr ha⟩

theorem exists_acceptConfig_iff {size : Nat} {r : CacheRequest} : (∃ c, acceptConfig size r = some c) ↔ r.Accepted size := by
  unfold CacheRequest.Accepted
  rw [← exists_replacementToken_iff, ← exists_writeToken_iff]
  simp only [acceptConfig_some_iff]
  constructor
  · rintro ⟨-, p, w, hp, hw, hok, -⟩
    obtain ⟨hcache, hblock, hways, hcachePow, hblockPow, hdvd, hsets, hsize⟩ := (configOk_config_iff p w).mp hok
    exact ⟨hcache, hblock, hways, hcachePow, hblockPow, hdvd, hsets, hsize, ⟨p, hp⟩, ⟨w, hw⟩⟩
  · rintro ⟨hcache, hblock, hways, hcachePow, hblockPow, hdvd, hsets, hsize, ⟨p, hp⟩, ⟨w, hw⟩⟩
    exact ⟨_, p, w, hp, hw, (configOk_config_iff p w).mpr ⟨hcache, hblock, hways, hcachePow, hblockPow, hdvd, hsets, hsize⟩, rfl⟩

/-- Settles O48: the request is accepted exactly when its configuration is, and installing that makes every line empty. -/
theorem enableCacheRule : Obligations.EnableCacheRule := by
  unfold Obligations.EnableCacheRule
  refine fun r s => ⟨fun hno => ?_, fun hacc => ?_⟩
  · have hnone : acceptConfig s.params.dataMemSize r = none :=
      Option.eq_none_iff_forall_ne_some.mpr fun c hc => hno (exists_acceptConfig_iff.mp ⟨c, hc⟩)
    rw [command, enableCache, hnone]
  · obtain ⟨c, hc⟩ := exists_acceptConfig_iff.mpr hacc
    obtain ⟨hsize, hblock, hways⟩ := hacc.sizes
    have hcommand : command (.enableCache r) s =
        .next (.done, s.setData (installCache c (disableCache s.params.disableFlush s.data))) := by
      rw [command, enableCache, hc]
    obtain ⟨p, w, hp, hw, -, rfl⟩ := acceptConfig_some_iff.mp hc
    refine ⟨_, _, hcommand, rfl, hsize, hblock, hways, hp, hw, List.length_replicate, fun ways hm => ?_, rfl, rfl, rfl, rfl, rfl, rfl,
      rfl, rfl, rfl, rfl⟩
    obtain rfl := List.eq_of_mem_replicate hm
    refine ⟨List.length_replicate, fun l hl => ?_⟩
    obtain rfl := List.eq_of_mem_replicate hl
    exact ⟨rfl, rfl, rfl, rfl, rfl, rfl, rfl⟩

end Sys2Proof.Machine
end

section
/-! Proofs of the family 30_encoding, part 1: decoder and encoder are inverse to each other (R97, R106, R108), the decoder follows the opcode table
(R94 to R96), and the bits of every field and immediate (R93, R97). -/

namespace Sys2Proof

/-! Dispatch by opcode (R94). -/

theorem decode_of_opcode_r {w : InsnWord} (h : fieldOpcode w = 0x33) : decode w = decodeR w := by simp [decode, h]
theorem decode_of_opcode_iAlu {w : InsnWord} (h : fieldOpcode w = 0x13) : decode w = decodeIAlu w := by simp [decode, h]
theorem decode_of_opcode_load {w : InsnWord} (h : fieldOpcode w = 0x03) : decode w = decodeLoad w := by simp [decode, h]
theorem decode_of_opcode_jalr {w : InsnWord} (h : fieldOpcode w = 0x67) : decode w = decodeJalr w := by simp [decode, h]
theorem decode_of_opcode_store {w : InsnWord} (h : fieldOpcode w = 0x23) : decode w = decodeStore w := by simp [decode, h]
theorem decode_of_opcode_lui {w : InsnWord} (h : fieldOpcode w = 0x37) : decode w = .legal (.lui (fieldRd w) (fieldImm20 w)) := by
  simp [decode, h]
theorem decode_of_opcode_branch {w : InsnWord} (h : fieldOpcode w = 0x63) : decode w = decodeBranch w := by simp [decode, h]
theorem decode_of_opcode_jal {w : InsnWord} (h : fieldOpcode w = 0x6f) : decode w = .legal (.jal (fieldRd w) (fieldImmJ w)) := by
  simp [decode, h]

/-! Decoding an encoded word (R106, R108). -/

theorem evenOffset_iff {n : Nat} {off : BitVec n} : evenOffset off = true ↔ off.getLsbD 0 = false := by simp [evenOffset]

/-- A well-formed instruction's word decodes to it: the dispatch reads its opcode, the family its function fields, the record its operands. -/
theorem decode_encode (i : Instr) (h : i.wellFormed = true) : decode (encode i) = .legal i := by
  cases i with
  | add | sub | sll | xor | srl | sra | or | and =>
    exact (decode_of_opcode_r (fieldOpcode_encodeR ..)).trans (by simp [decodeR])
  | addi | slti | sltiu | xori | ori | andi =>
    exact (decode_of_opcode_iAlu (fieldOpcode_encodeI ..)).trans (by simp [decodeIAlu])
  | slli | srli | srai =>
    exact (decode_of_opcode_iAlu (fieldOpcode_encodeShift ..)).trans (by simp [decodeIAlu])
  | lb | lh | lw | ld | lbu | lhu | lwu =>
    exact (decode_of_opcode_load (fieldOpcode_encodeI ..)).trans (by simp [decodeLoad])
  | jalr => exact (decode_of_opcode_jalr (fieldOpcode_encodeI ..)).trans (by simp [decodeJalr])
  | sb | sh | sw | sd => exact (decode_of_opcode_store (fieldOpcode_encodeS ..)).trans (by simp [decodeStore])
  | lui => exact (decode_of_opcode_lui (fieldOpcode_encodeU ..)).trans (by simp)
  | beq _ _ off | bne _ _ off | blt _ _ off | bge _ _ off | bltu _ _ off | bgeu _ _ off =>
    have even : off.getLsbD 0 = false := evenOffset_iff.mp h
    exact (decode_of_opcode_branch (fieldOpcode_encodeB ..)).trans (by simp [decodeBranch, fieldImmB_encodeB _ _ _ _ _ even])
  | jal _ off =>
    have even : off.getLsbD 0 = false := evenOffset_iff.mp h
    exact (decode_of_opcode_jal (fieldOpcode_encodeJ ..)).trans (by simp [fieldImmJ_encodeJ _ _ _ even])

/-- Settles O1: the round trip, instruction by instruction. -/
theorem decodeOfEncode : Obligations.DecodeOfEncode := decode_encode

/-! A word put together again from its fields, format by format (R87 to R92): neighbouring fields are one field. -/

theorem encodeI_fields (w : InsnWord) : encodeI (fieldImmI w) (fieldRs1 w) (fieldFunct3 w) (fieldRd w) (fieldOpcode w) = w := by
  unfold encodeI fieldImmI fieldRs1 fieldFunct3 fieldRd fieldOpcode
  simp only [BitVec.extractLsb'_append_extractLsb'_eq_extractLsb']
  exact extract_all w

theorem encodeU_fields (w : InsnWord) : encodeU (fieldImm20 w) (fieldRd w) (fieldOpcode w) = w := by
  unfold encodeU fieldImm20 fieldRd fieldOpcode
  simp only [BitVec.extractLsb'_append_extractLsb'_eq_extractLsb']
  exact extract_all w

theorem encodeR_fields (w : InsnWord) :
    encodeR (fieldFunct7 w) (fieldRs2 w) (fieldRs1 w) (fieldFunct3 w) (fieldRd w) (fieldOpcode w) = w := by
  unfold encodeR fieldFunct7 fieldRs2 fieldRs1 fieldFunct3 fieldRd fieldOpcode
  simp only [BitVec.extractLsb'_append_extractLsb'_eq_extractLsb']
  exact extract_all w

/-- The I immediate is funct6 above the shift amount (R88). -/
theorem funct6_append_shamt (w : InsnWord) : (fieldFunct6 w ++ fieldShamt w : BitVec 12) = fieldImmI w :=
  BitVec.extractLsb'_append_extractLsb'_eq_extractLsb' rfl

theorem encodeS_fields (w : InsnWord) : encodeS (fieldImmS w) (fieldRs2 w) (fieldRs1 w) (fieldFunct3 w) (fieldOpcode w) = w := by
  have high : (fieldImmS w).extractLsb' 5 7 = fieldFunct7 w := (extract_high _ _ 0 5 7 rfl).trans (extract_all _)
  have low : (fieldImmS w).extractLsb' 0 5 = fieldRd w := (extract_low _ _ 0 5 (by decide)).trans (extract_all _)
  rw [encodeS, high, low]
  exact encodeR_fields w

/-- The upper 7 bits of a B word are bits 12 and 10:5 of its offset (R90). -/
theorem immB_high (w : InsnWord) : ((fieldImmB w).extractLsb' 12 1 ++ (fieldImmB w).extractLsb' 5 6 : BitVec 7) = fieldFunct7 w := by
  ext i hi
  grind [fieldImmB, fieldFunct7]

/-- The rd field of a B word is bits 4:1 and 11 of its offset (R90). -/
theorem immB_low (w : InsnWord) : ((fieldImmB w).extractLsb' 1 4 ++ (fieldImmB w).extractLsb' 11 1 : BitVec 5) = fieldRd w := by
  ext i hi
  grind [fieldImmB, fieldRd]

theorem encodeB_fields (w : InsnWord) : encodeB (fieldImmB w) (fieldRs2 w) (fieldRs1 w) (fieldFunct3 w) (fieldOpcode w) = w := by
  have assoc := BitVec.append_assoc
    (x₁ := (fieldImmB w).extractLsb' 12 1 ++ (fieldImmB w).extractLsb' 5 6 ++ fieldRs2 w ++ fieldRs1 w ++ fieldFunct3 w)
    (x₂ := (fieldImmB w).extractLsb' 1 4) (x₃ := (fieldImmB w).extractLsb' 11 1)
  rw [encodeB, assoc, BitVec.cast_eq, immB_high, immB_low]
  exact encodeR_fields w

/-- The upper 20 bits of a J word are bits 20, 10:1, 11 and 19:12 of its offset (R91). -/
theorem immJ_high (w : InsnWord) :
    ((fieldImmJ w).extractLsb' 20 1 ++ (fieldImmJ w).extractLsb' 1 10 ++ (fieldImmJ w).extractLsb' 11 1 ++ (fieldImmJ w).extractLsb' 12 8 :
      BitVec 20) = fieldImm20 w := by
  ext i hi
  grind [fieldImmJ, fieldImm20]

theorem encodeJ_fields (w : InsnWord) : encodeJ (fieldImmJ w) (fieldRd w) (fieldOpcode w) = w := by
  rw [encodeJ, immJ_high]
  exact encodeU_fields w

/-! A legal word is the word of its instruction (R97, R106). The function fields and the opcode are read off the branch the decoder took. -/

section
variable {w : InsnWord} {f7 op : BitVec 7} {f6 : BitVec 6} {f3 : BitVec 3}

theorem encodeR_of_fields (h7 : fieldFunct7 w = f7) (h3 : fieldFunct3 w = f3) (ho : fieldOpcode w = op) :
    encodeR f7 (fieldRs2 w) (fieldRs1 w) f3 (fieldRd w) op = w := by
  subst h7 h3 ho
  exact encodeR_fields w

theorem encodeI_of_fields (h3 : fieldFunct3 w = f3) (ho : fieldOpcode w = op) :
    encodeI (fieldImmI w) (fieldRs1 w) f3 (fieldRd w) op = w := by
  subst h3 ho
  exact encodeI_fields w

theorem encodeShift_of_fields (h6 : fieldFunct6 w = f6) (h3 : fieldFunct3 w = f3) (ho : fieldOpcode w = op) :
    encodeShift f6 (fieldShamt w) (fieldRs1 w) f3 (fieldRd w) op = w := by
  subst h6
  rw [encodeShift, funct6_append_shamt]
  exact encodeI_of_fields h3 ho

theorem encodeS_of_fields (h3 : fieldFunct3 w = f3) (ho : fieldOpcode w = op) :
    encodeS (fieldImmS w) (fieldRs2 w) (fieldRs1 w) f3 op = w := by
  subst h3 ho
  exact encodeS_fields w

theorem encodeB_of_fields (h3 : fieldFunct3 w = f3) (ho : fieldOpcode w = op) :
    encodeB (fieldImmB w) (fieldRs2 w) (fieldRs1 w) f3 op = w := by
  subst h3 ho
  exact encodeB_fields w

theorem encodeJ_of_opcode (ho : fieldOpcode w = op) : encodeJ (fieldImmJ w) (fieldRd w) op = w := by
  subst ho
  exact encodeJ_fields w

theorem encodeU_of_opcode (ho : fieldOpcode w = op) : encodeU (fieldImm20 w) (fieldRd w) op = w := by
  subst ho
  exact encodeU_fields w

end

/-- The instruction has an encoding, and it is `w`. -/
def Instr.EncodesTo (i : Instr) (w : InsnWord) : Prop := i.wellFormed = true ∧ encode i = w

/-- A trailing 0 makes an offset even (R93). -/
theorem evenOffset_append_zero {n : Nat} (x : BitVec n) : evenOffset (x ++ 0#1) = true := by
  rw [evenOffset_iff, BitVec.getLsbD_append]
  rfl

theorem evenOffset_fieldImmB (w : InsnWord) : evenOffset (fieldImmB w) = true := evenOffset_append_zero _

theorem evenOffset_fieldImmJ (w : InsnWord) : evenOffset (fieldImmJ w) = true := evenOffset_append_zero _

section
variable {w : InsnWord} {i : Instr}

theorem encodesTo_of_decodeR (ho : fieldOpcode w = 0x33) (h : decodeR w = .legal i) : i.EncodesTo w := by
  unfold decodeR at h
  split_ifs at h with hf hf hf hf hf hf hf hf <;> cases h <;> exact ⟨rfl, encodeR_of_fields hf.2 hf.1 ho⟩

theorem encodesTo_of_decodeIAlu (ho : fieldOpcode w = 0x13) (h : decodeIAlu w = .legal i) : i.EncodesTo w := by
  unfold decodeIAlu at h
  split_ifs at h with hf hf hf hf hf hf hf hf hf <;> cases h
  case pos | pos | pos | pos | pos | pos => exact ⟨rfl, encodeI_of_fields hf ho⟩
  all_goals exact ⟨rfl, encodeShift_of_fields hf.2 hf.1 ho⟩

theorem encodesTo_of_decodeLoad (ho : fieldOpcode w = 0x03) (h : decodeLoad w = .legal i) : i.EncodesTo w := by
  unfold decodeLoad at h
  split_ifs at h with hf hf hf hf hf hf hf <;> cases h <;> exact ⟨rfl, encodeI_of_fields hf ho⟩

theorem encodesTo_of_decodeJalr (ho : fieldOpcode w = 0x67) (h : decodeJalr w = .legal i) : i.EncodesTo w := by
  unfold decodeJalr at h
  split_ifs at h with hf
  cases h
  exact ⟨rfl, encodeI_of_fields hf ho⟩

theorem encodesTo_of_decodeStore (ho : fieldOpcode w = 0x23) (h : decodeStore w = .legal i) : i.EncodesTo w := by
  unfold decodeStore at h
  split_ifs at h with hf hf hf hf <;> cases h <;> exact ⟨rfl, encodeS_of_fields hf ho⟩

theorem encodesTo_of_decodeBranch (ho : fieldOpcode w = 0x63) (h : decodeBranch w = .legal i) : i.EncodesTo w := by
  unfold decodeBranch at h
  split_ifs at h with hf hf hf hf hf hf <;> cases h <;> exact ⟨evenOffset_fieldImmB w, encodeB_of_fields hf ho⟩

/-- Every word is the word of the instruction it decodes to: the family by the opcode, the instruction by the family. -/
theorem encodesTo_of_decode (h : decode w = .legal i) : i.EncodesTo w := by
  unfold decode at h
  split_ifs at h with ho ho ho ho ho ho ho ho
  · exact encodesTo_of_decodeR ho h
  · exact encodesTo_of_decodeIAlu ho h
  · exact encodesTo_of_decodeLoad ho h
  · exact encodesTo_of_decodeJalr ho h
  · exact encodesTo_of_decodeStore ho h
  · cases h; exact ⟨rfl, encodeU_of_opcode ho⟩
  · exact encodesTo_of_decodeBranch ho h
  · cases h; exact ⟨evenOffset_fieldImmJ w, encodeJ_of_opcode ho⟩

end

/-- Settles O2: a decoded word is its instruction's encoding. -/
theorem encodeOfDecode : Obligations.EncodeOfDecode := fun _ _ h => encodesTo_of_decode h

/-! The opcode table (R94, R95). -/

/-- Every instruction's word carries the constant fields of its own row. -/
theorem encode_and_mask (i : Instr) : encode i &&& i.op.mask = i.op.matchBits := by
  cases i with
  | add => exact Laws.EncodeRow.add ..
  | sub => exact Laws.EncodeRow.sub ..
  | sll => exact Laws.EncodeRow.sll ..
  | xor => exact Laws.EncodeRow.xor ..
  | srl => exact Laws.EncodeRow.srl ..
  | sra => exact Laws.EncodeRow.sra ..
  | or => exact Laws.EncodeRow.or ..
  | and => exact Laws.EncodeRow.and ..
  | addi => exact Laws.EncodeRow.addi ..
  | slti => exact Laws.EncodeRow.slti ..
  | sltiu => exact Laws.EncodeRow.sltiu ..
  | xori => exact Laws.EncodeRow.xori ..
  | ori => exact Laws.EncodeRow.ori ..
  | andi => exact Laws.EncodeRow.andi ..
  | slli => exact Laws.EncodeRow.slli ..
  | srli => exact Laws.EncodeRow.srli ..
  | srai => exact Laws.EncodeRow.srai ..
  | lui => exact Laws.EncodeRow.lui ..
  | lb => exact Laws.EncodeRow.lb ..
  | lh => exact Laws.EncodeRow.lh ..
  | lw => exact Laws.EncodeRow.lw ..
  | ld => exact Laws.EncodeRow.ld ..
  | lbu => exact Laws.EncodeRow.lbu ..
  | lhu => exact Laws.EncodeRow.lhu ..
  | lwu => exact Laws.EncodeRow.lwu ..
  | sb => exact Laws.EncodeRow.sb ..
  | sh => exact Laws.EncodeRow.sh ..
  | sw => exact Laws.EncodeRow.sw ..
  | sd => exact Laws.EncodeRow.sd ..
  | jalr => exact Laws.EncodeRow.jalr ..
  | beq => exact Laws.EncodeRow.beq ..
  | bne => exact Laws.EncodeRow.bne ..
  | blt => exact Laws.EncodeRow.blt ..
  | bge => exact Laws.EncodeRow.bge ..
  | bltu => exact Laws.EncodeRow.bltu ..
  | bgeu => exact Laws.EncodeRow.bgeu ..
  | jal => exact Laws.EncodeRow.jal ..

/-- A field of a masked word that the mask covers is the word's. -/
theorem extract_and_of_covered (w m : InsnWord) (s l : Nat) (h : m.extractLsb' s l = BitVec.allOnes l) :
    (w &&& m).extractLsb' s l = w.extractLsb' s l := by
  rw [BitVec.extractLsb'_and, h, BitVec.and_allOnes]

/-- A word has the row's constants in every field the row's mask covers. -/
theorem extract_of_matches {w : InsnWord} {o : Op} (h : w &&& o.mask = o.matchBits) {s l : Nat}
    (hm : o.mask.extractLsb' s l = BitVec.allOnes l) : w.extractLsb' s l = o.matchBits.extractLsb' s l :=
  h ▸ (extract_and_of_covered w o.mask s l hm).symm

/-- A word that matches a row decodes to an instruction of it: its opcode picks the family, its function fields the row. -/
theorem decode_of_matches {w : InsnWord} {o : Op} (h : w &&& o.mask = o.matchBits) : ∃ i, decode w = .legal i ∧ i.op = o := by
  have field {s l : Nat} := @extract_of_matches w o h s l
  cases o with
  | add | sub | sll | xor | srl | sra | or | and =>
    have h3 : fieldFunct3 w = _ := field rfl
    have h7 : fieldFunct7 w = _ := field rfl
    rw [decode_of_opcode_r (field rfl)]
    simp +decide [decodeR, h3, h7, Op.matchBits, Instr.op]
  | addi | slti | sltiu | xori | ori | andi =>
    have h3 : fieldFunct3 w = _ := field rfl
    rw [decode_of_opcode_iAlu (field rfl)]
    simp +decide [decodeIAlu, h3, Op.matchBits, Instr.op]
  | slli | srli | srai =>
    have h3 : fieldFunct3 w = _ := field rfl
    have h6 : fieldFunct6 w = _ := field rfl
    rw [decode_of_opcode_iAlu (field rfl)]
    simp +decide [decodeIAlu, h3, h6, Op.matchBits, Instr.op]
  | lb | lh | lw | ld | lbu | lhu | lwu =>
    have h3 : fieldFunct3 w = _ := field rfl
    rw [decode_of_opcode_load (field rfl)]
    simp +decide [decodeLoad, h3, Op.matchBits, Instr.op]
  | jalr =>
    have h3 : fieldFunct3 w = _ := field rfl
    rw [decode_of_opcode_jalr (field rfl)]
    simp +decide [decodeJalr, h3, Op.matchBits, Instr.op]
  | sb | sh | sw | sd =>
    have h3 : fieldFunct3 w = _ := field rfl
    rw [decode_of_opcode_store (field rfl)]
    simp +decide [decodeStore, h3, Op.matchBits, Instr.op]
  | beq | bne | blt | bge | bltu | bgeu =>
    have h3 : fieldFunct3 w = _ := field rfl
    rw [decode_of_opcode_branch (field rfl)]
    simp +decide [decodeBranch, h3, Op.matchBits, Instr.op]
  | lui => exact ⟨_, decode_of_opcode_lui (field rfl), rfl⟩
  | jal => exact ⟨_, decode_of_opcode_jal (field rfl), rfl⟩

theorem matches_iff {w : InsnWord} {o : Op} : w &&& o.mask = o.matchBits ↔ ∃ i, decode w = .legal i ∧ i.op = o := by
  refine ⟨decode_of_matches, ?_⟩
  rintro ⟨i, hi, rfl⟩
  obtain ⟨-, rfl⟩ := encodesTo_of_decode hi
  exact encode_and_mask i

theorem illegal_iff {w : InsnWord} : decode w = .illegal ↔ ∀ o : Op, w &&& o.mask ≠ o.matchBits := by
  simp only [ne_eq, matches_iff]
  cases decode w <;> simp

/-- Settles O3: a row is matched exactly when the decoder answers an instruction of it, and the decoder gives one answer. -/
theorem decodeFollowsTable : Obligations.DecodeFollowsTable := by
  unfold Obligations.DecodeFollowsTable
  refine fun w => ⟨fun o => matches_iff, fun o o' h h' => ?_, illegal_iff⟩
  obtain ⟨i, hi, rfl⟩ := matches_iff.mp h
  obtain ⟨j, hj, rfl⟩ := matches_iff.mp h'
  obtain rfl : i = j := Decoded.legal.inj (hi.symm.trans hj)
  rfl

/-! Words of other encodings (R94 to R96, D10, D33). -/

/-- A matched row and a word agree wherever both are looked at: the row's constants under `m` are the word's `m` bits under the row's mask. -/
theorem matchBits_and {w m v : InsnWord} {o : Op} (h : w &&& o.mask = o.matchBits) (hv : w &&& m = v) :
    o.matchBits &&& m = v &&& o.mask := by
  rw [← h, ← hv]
  ac_rfl

/-- The opcodes of R94. -/
def opcodes : List InsnWord := [0x33, 0x13, 0x03, 0x67, 0x23, 0x37, 0x63, 0x6f]

theorem matchBits_and_opcode_mem (o : Op) : o.matchBits &&& 0x7f ∈ opcodes := by
  cases o <;> decide

theorem opcode_and_mask (w : InsnWord) (o : Op) : w &&& 0x7f &&& o.mask = w &&& 0x7f := by
  have : 0x7f &&& o.mask = 0x7f := by cases o <;> rfl
  rw [BitVec.and_assoc, this]

theorem illegal_of_opcode {w : InsnWord} (h : w &&& 0x7f ∉ opcodes) : decode w = .illegal := by
  refine illegal_iff.mpr fun o ho => h ?_
  rw [← opcode_and_mask w o, ← matchBits_and ho rfl]
  exact matchBits_and_opcode_mem o

/-- No row has the opcode and funct3 of slt or sltu (D33). -/
theorem illegal_of_slt {w : InsnWord} (h : w &&& 0x707f ∈ [0x2033#32, 0x3033#32]) : decode w = .illegal := by
  refine illegal_iff.mpr fun o ho => ?_
  have e := matchBits_and ho (Eq.refl (w &&& 0x707f))
  have apart : ∀ v ∈ [0x2033#32, 0x3033#32], o.matchBits &&& 0x707f ≠ v &&& o.mask := by cases o <;> simp [Op.matchBits, Op.mask]
  exact apart _ h e

/-- Settles O4: none of the listed words matches a row. -/
theorem otherWordsIllegal : Obligations.OtherWordsIllegal := by
  unfold Obligations.OtherWordsIllegal
  have others : ∀ v ∈ [0x17#32, 0x1b#32, 0x3b#32, 0x0f#32, 0x73#32], v ∉ opcodes := by simp [opcodes]
  exact ⟨fun _ => illegal_of_opcode, fun w h => illegal_of_opcode (others _ h), fun _ => illegal_of_slt, illegal_of_opcode (by decide),
    illegal_of_opcode (by decide)⟩

open Machine

/-! The record (R97): the fields of an encoded word are the instruction's operands. -/

theorem rd?_encode {i : Instr} {r : RegIdx} (h : i.rd? = some r) : r = fieldRd (encode i) := by
  cases i <;> cases h <;> simp [encode]

theorem rs1?_encode {i : Instr} {r : RegIdx} (h : i.rs1? = some r) : r = fieldRs1 (encode i) := by
  cases i <;> cases h <;> simp [encode]

theorem rs2?_encode {i : Instr} {r : RegIdx} (h : i.rs2? = some r) : r = fieldRs2 (encode i) := by
  cases i <;> cases h <;> simp [encode]

theorem shamt?_encode {i : Instr} {v : Word} (h : i.shamt? = some v) : v = immShamt (fieldShamt (encode i)) := by
  cases i <;> cases h <;> simp [encode]

/-- The immediate of a word, by its format (R93, R94). -/
def wordImm (w : InsnWord) : Word :=
  if fieldOpcode w = 0x23#7 then immI (fieldImmS w)
  else if fieldOpcode w = 0x63#7 then immB (fieldImmB w)
  else if fieldOpcode w = 0x6f#7 then immJ (fieldImmJ w)
  else if fieldOpcode w = 0x37#7 then (immU (fieldImm20 w)).setWidth 64
  else immI (fieldImmI w)

theorem imm?_encode {i : Instr} {v : Word} (hi : i.wellFormed = true) (h : i.imm? = some v) : v = wordImm (encode i) := by
  cases i with
  | beq _ _ off | bne _ _ off | blt _ _ off | bge _ _ off | bltu _ _ off | bgeu _ _ off =>
    cases h
    simp [wordImm, encode, fieldImmB_encodeB _ _ _ _ _ (evenOffset_iff.mp hi)]
  | jal _ off =>
    cases h
    simp [wordImm, encode, fieldImmJ_encodeJ _ _ _ (evenOffset_iff.mp hi)]
  | _ => cases h <;> simp [wordImm, encode]

/-- Settles O7: a legal word is the encoding of its instruction, whose fields read back. -/
theorem decodedRecord : Obligations.DecodedRecord := by
  unfold Obligations.DecodedRecord
  refine fun w => ⟨?_, fun i h => ?_⟩
  · cases decode w with
    | legal i => exact .inr ⟨i, rfl⟩
    | illegal => exact .inl rfl
  · obtain ⟨hi, rfl⟩ := encodesTo_of_decode h
    exact ⟨fun _ => rd?_encode, fun _ => rs1?_encode, fun _ => rs2?_encode, fun _ => shamt?_encode, fun _ => imm?_encode hi⟩

/-! Immediates, bit by bit, with their ranges (R93). Above the copied sign bit nothing is left to say; below it a bit of a concatenation is a bit
of the field it falls in, and what remains is to compare positions. -/

/-- Sign extension copies the top bit. -/
theorem getLsbD_signExtend_succ {n v k : Nat} (x : BitVec (n + 1)) (hk : k < v) :
    (x.signExtend v).getLsbD k = if k < n then x.getLsbD k else x.getLsbD n := by
  rw [BitVec.getLsbD_signExtend, BitVec.msb_eq_getLsbD_last]
  grind

theorem getLsbD_immI_fieldImmI (w : InsnWord) {k : Nat} (hk : k < 64) :
    (immI (fieldImmI w)).getLsbD k = if k < 11 then w.getLsbD (20 + k) else w.getLsbD 31 := by
  rw [immI, getLsbD_signExtend_succ _ hk, fieldImmI]
  grind

theorem getLsbD_immI_fieldImmS (w : InsnWord) {k : Nat} (hk : k < 64) :
    (immI (fieldImmS w)).getLsbD k = if k < 5 then w.getLsbD (7 + k) else if k < 11 then w.getLsbD (20 + k) else w.getLsbD 31 := by
  rw [immI, getLsbD_signExtend_succ _ hk, fieldImmS]
  grind

theorem getLsbD_immB_fieldImmB (w : InsnWord) {k : Nat} (hk : k < 64) :
    (immB (fieldImmB w)).getLsbD k = if k = 0 then false else if k < 5 then w.getLsbD (7 + k) else if k < 11 then w.getLsbD (20 + k)
      else if k = 11 then w.getLsbD 7 else w.getLsbD 31 := by
  rw [immB, getLsbD_signExtend_succ _ hk, fieldImmB]
  grind

theorem getLsbD_immJ_fieldImmJ (w : InsnWord) {k : Nat} (hk : k < 64) :
    (immJ (fieldImmJ w)).getLsbD k = if k = 0 then false else if k < 11 then w.getLsbD (20 + k) else if k = 11 then w.getLsbD 20
        else if k < 20 then w.getLsbD k else w.getLsbD 31 := by
  rw [immJ, getLsbD_signExtend_succ _ hk, fieldImmJ]
  grind

theorem getLsbD_immU_fieldImm20 (w : InsnWord) {k : Nat} (hk : k < 32) :
    (immU (fieldImm20 w)).getLsbD k = if k < 12 then false else w.getLsbD k := by
  rw [immU, fieldImm20]
  grind

theorem getLsbD_immShamt_fieldShamt (w : InsnWord) {k : Nat} (hk : k < 64) :
    (immShamt (fieldShamt w)).getLsbD k = if k < 6 then w.getLsbD (20 + k) else false := by
  rw [immShamt, fieldShamt]
  grind

theorem toInt_immI (imm : BitVec 12) : -2048 ≤ (immI imm).toInt ∧ (immI imm).toInt ≤ 2047 := by
  rw [immI, BitVec.toInt_signExtend_of_le (by decide)]
  exact ⟨BitVec.le_toInt imm, BitVec.toInt_le⟩

/-- An offset ends in a 0, so it is twice a number of one bit less. -/
theorem toInt_append_zero_bounds {n : Nat} (x : BitVec n) :
    -2 ^ (n - 1) * 2 ≤ (x ++ 0#1).toInt ∧ (x ++ 0#1).toInt ≤ (2 ^ (n - 1) - 1) * 2 := by
  have low := BitVec.le_toInt x
  have high := BitVec.toInt_le (x := x)
  rw [BitVec.toInt_append_zero]
  omega

theorem toInt_immB_fieldImmB (w : InsnWord) : -4096 ≤ (immB (fieldImmB w)).toInt ∧ (immB (fieldImmB w)).toInt ≤ 4094 := by
  rw [immB, BitVec.toInt_signExtend_of_le (by decide)]
  exact toInt_append_zero_bounds (n := 12) _

theorem toInt_immJ_fieldImmJ (w : InsnWord) : -1048576 ≤ (immJ (fieldImmJ w)).toInt ∧ (immJ (fieldImmJ w)).toInt ≤ 1048574 := by
  rw [immJ, BitVec.toInt_signExtend_of_le (by decide)]
  exact toInt_append_zero_bounds (n := 20) _

theorem toNat_immShamt_le (shamt : BitVec 6) : (immShamt shamt).toNat ≤ 63 := by
  rw [immShamt, BitVec.toNat_setWidth_of_le (by decide)]
  exact Nat.le_of_lt_succ shamt.isLt

/-- Settles O6: the bits of each immediate, then the ranges. -/
theorem immediatesFromWord : Obligations.ImmediatesFromWord := by
  unfold Obligations.ImmediatesFromWord
  exact fun w => ⟨fun _ => getLsbD_immI_fieldImmI w, fun _ => getLsbD_immI_fieldImmS w, fun _ => getLsbD_immB_fieldImmB w,
    fun _ => getLsbD_immJ_fieldImmJ w, fun _ => getLsbD_immU_fieldImm20 w, fun _ => getLsbD_immShamt_fieldShamt w,
    toInt_immI _, toInt_immI _, toInt_immB_fieldImmB w, toInt_immJ_fieldImmJ w, toNat_immShamt_le _⟩

end Sys2Proof
end

section
/-! Proofs of the family 30_encoding, part 2: the words the assembler gives (R102, R105, R108) and what an accepted source says of its lines
(R101, R107). -/

namespace Sys2Proof.Machine

/-! An accepted do-block or map: its first part was accepted. -/

theorem Asm.bind_ok {α β : Type} {x : Asm α} {f : α → Asm β} {b : β} (h : x >>= f = .ok b) : ∃ a, x = .ok a ∧ f a = .ok b := by
  cases x with
  | error e => nomatch h
  | ok a => exact ⟨a, rfl, h⟩

theorem Asm.map_ok {α β : Type} {x : Asm α} {f : α → β} {b : β} (h : x.map f = .ok b) : ∃ a, x = .ok a ∧ f a = b := by
  cases x with
  | error e => nomatch h
  | ok a => exact ⟨a, rfl, Except.ok.inj h⟩

/-! What the operand forms of the mnemonic table give (R102 to R105). -/

/-- An instruction the assembler may give: it has an encoding and is neither slti nor sltiu (C2). -/
def Assembled (i : Instr) : Prop := i.wellFormed = true ∧ i.op ≠ .slti ∧ i.op ≠ .sltiu

/-- The value of an accepted operand list is such an instruction. -/
def Gives (x : Asm Instr) : Prop := ∀ i, x = .ok i → Assembled i

theorem gives_ok {i : Instr} (h : Assembled i) : Gives (.ok i) := fun _ e => Except.ok.inj e ▸ h

theorem gives_error (e : AssembleError) : Gives (.error e) := fun _ h => nomatch h

/-- A do-block gives what its rest gives for the value of its first part. -/
theorem gives_bind {α : Type} {x : Asm α} {f : α → Asm Instr} (h : ∀ a, x = .ok a → Gives (f a)) : Gives (x >>= f) := fun i hi =>
  let ⟨a, ha, hf⟩ := Asm.bind_ok hi
  h a ha i hf

theorem asmR_gives {mk : RegIdx → RegIdx → RegIdx → Instr} (hmk : ∀ d a b, Assembled (mk d a b)) (h : Here) (ts : List Text) :
    Gives (asmR mk h ts) := by
  unfold asmR
  split
  · exact gives_bind fun d _ => gives_bind fun a _ => gives_bind fun b _ => gives_ok (hmk d a b)
  · exact gives_error _

theorem asmI_gives {mk : RegIdx → RegIdx → BitVec 12 → Instr} (hmk : ∀ d a i, Assembled (mk d a i)) (h : Here) (ts : List Text) :
    Gives (asmI mk h ts) := by
  unfold asmI
  split
  · exact gives_bind fun d _ => gives_bind fun a _ => gives_bind fun i _ => gives_ok (hmk d a i)
  · exact gives_error _

theorem asmShift_gives {mk : RegIdx → RegIdx → BitVec 6 → Instr} (hmk : ∀ d a i, Assembled (mk d a i)) (h : Here) (ts : List Text) :
    Gives (asmShift mk h ts) := by
  unfold asmShift
  split
  · exact gives_bind fun d _ => gives_bind fun a _ => gives_bind fun i _ => gives_ok (hmk d a i)
  · exact gives_error _

theorem asmMem_gives {mk : RegIdx → RegIdx → BitVec 12 → Instr} (hmk : ∀ d a i, Assembled (mk d a i)) (h : Here) (ts : List Text) :
    Gives (asmMem mk h ts) := by
  unfold asmMem
  split
  · exact gives_bind fun _ _ => gives_bind fun r _ => gives_bind fun o _ => gives_ok (hmk r o.1 o.2)
  · exact gives_error _

theorem asmLui_gives (h : Here) (ts : List Text) : Gives (asmLui h ts) := by
  unfold asmLui
  split
  · exact gives_bind fun d _ => gives_bind fun i _ => gives_ok ⟨rfl, nofun, nofun⟩
  · exact gives_error _

theorem evenOffset_ofInt {width : Nat} (hw : width ≠ 0) {d : Int} (hd : d % 2 = 0) : evenOffset (BitVec.ofInt width d) = true := by
  have h2 : d % ((2 ^ width : Nat) : Int) % 2 = d % 2 := Int.emod_emod_of_dvd d (Int.natCast_dvd_natCast.mpr (dvd_pow_self 2 hw))
  rw [evenOffset_iff, BitVec.getLsbD, BitVec.toNat_ofInt, Nat.testBit_zero, decide_eq_false_iff_not]
  omega

/-- An accepted distance is even (R105). -/
theorem evenOffset_of_distance {width : Nat} (hw : width ≠ 0) {lo hi : Int} {h : Here} {t : Text} {off : BitVec width}
    (hd : distance width lo hi h t = .ok off) : evenOffset off = true := by
  unfold distance ranged at hd
  split at hd
  · cases hd
  · dsimp only at hd
    split_ifs at hd with even
    cases hd
    exact evenOffset_ofInt hw even

theorem asmB_gives {mk : RegIdx → RegIdx → BitVec 13 → Instr} (hmk : ∀ a b off, evenOffset off = true → Assembled (mk a b off))
    (h : Here) (ts : List Text) : Gives (asmB mk h ts) := by
  unfold asmB
  split
  · exact gives_bind fun a _ => gives_bind fun b _ => gives_bind fun off hoff => gives_ok (hmk a b off (evenOffset_of_distance (by decide) hoff))
  · exact gives_error _

theorem asmJal_gives (h : Here) (ts : List Text) : Gives (asmJal h ts) := by
  unfold asmJal
  split
  · exact gives_bind fun d _ => gives_bind fun off hoff => gives_ok ⟨evenOffset_of_distance (by decide) hoff, nofun, nofun⟩
  · exact gives_error _

/-! The three parts of the mnemonic table (R102): the label forms for an even distance, the others for any operands. -/

theorem aluMnemonics_give : ∀ e ∈ aluMnemonics, ∀ h ts, Gives (e.2 h ts) := by
  simp only [aluMnemonics, List.forall_mem_cons]
  refine ⟨asmR_gives ?_, asmR_gives ?_, asmR_gives ?_, asmR_gives ?_, asmR_gives ?_, asmR_gives ?_, asmR_gives ?_, asmR_gives ?_, asmI_gives ?_,
    asmI_gives ?_, asmI_gives ?_, asmI_gives ?_, asmShift_gives ?_, asmShift_gives ?_, asmShift_gives ?_, asmLui_gives, nofun⟩
  all_goals exact fun _ _ _ => ⟨rfl, nofun, nofun⟩

theorem memMnemonics_give : ∀ e ∈ memMnemonics, ∀ h ts, Gives (e.2 h ts) := by
  simp only [memMnemonics, List.forall_mem_cons]
  refine ⟨asmMem_gives ?_, asmMem_gives ?_, asmMem_gives ?_, asmMem_gives ?_, asmMem_gives ?_, asmMem_gives ?_, asmMem_gives ?_, asmMem_gives ?_,
    asmMem_gives ?_, asmMem_gives ?_, asmMem_gives ?_, asmMem_gives ?_, nofun⟩
  all_goals exact fun _ _ _ => ⟨rfl, nofun, nofun⟩

theorem labelMnemonics_give : ∀ e ∈ labelMnemonics, ∀ h ts, Gives (e.2 h ts) := by
  simp only [labelMnemonics, List.forall_mem_cons]
  refine ⟨asmB_gives ?_, asmB_gives ?_, asmB_gives ?_, asmB_gives ?_, asmB_gives ?_, asmB_gives ?_, asmJal_gives, nofun⟩
  all_goals exact fun _ _ _ even => ⟨even, nofun, nofun⟩

theorem mnemonics_give : ∀ e ∈ mnemonics, ∀ h ts, Gives (e.2 h ts) := by
  simp only [mnemonics, List.forall_mem_append]
  exact ⟨⟨aluMnemonics_give, memMnemonics_give⟩, labelMnemonics_give⟩

/-- Every word of an accepted source is the encoding of an instruction the assembler may give. -/
theorem assemble_words {source : Text} {words : List InsnWord} {image : List Byte} (h : assemble source = .ok (words, image)) :
    ∀ w ∈ words, ∃ i, Assembled i ∧ w = encode i := by
  obtain ⟨p, -, h2, -⟩ := assemble_ok.mp h
  obtain ⟨-, -, hw⟩ := pass2_ok h2
  intro w hmem
  obtain ⟨e, he, a, ops, i, hi, rfl⟩ := hw w hmem
  exact ⟨i, mnemonics_give e he a ops i hi, rfl⟩

/-- The program of a load that answers a count is an accepted source's (R180). -/
theorem loadSource_loaded {source : String} {s t : State} {k : Nat} (h : loadSource source s = .next (.loaded k, t)) :
    ∃ image, assemble source.toList = .ok (t.text, image) := by
  rcases loadSource_cases source s with ⟨_, _, -, hl⟩ | ⟨_, _, _, -, -, hl⟩ | ⟨words, image, ha, -, hl⟩ <;> rw [hl] at h <;> cases h
  exact ⟨image, ha⟩

/-- Settles O8: an assembled word is an encoding, so it decodes (decode_encode). -/
theorem assembledWordsDecode : Obligations.AssembledWordsDecode := by
  unfold Obligations.AssembledWordsDecode
  have decodes : ∀ {source : Text} {words : List InsnWord} {image : List Byte}, assemble source = .ok (words, image) →
      ∀ w ∈ words, ∃ i, i.wellFormed = true ∧ w = encode i ∧ decode w = .legal i ∧ i.op ≠ .slti ∧ i.op ≠ .sltiu := by
    intro source words image h w hw
    obtain ⟨i, ⟨hi, hslti, hsltiu⟩, rfl⟩ := assemble_words h w hw
    exact ⟨i, hi, rfl, decode_encode i hi, hslti, hsltiu⟩
  refine ⟨fun source words image => decodes, fun source s t k h => ?_⟩
  obtain ⟨image, ha⟩ := loadSource_loaded h
  exact decodes ha

/-! What an accepted source says of its lines (R101, R102, R107). -/

/-- An assembly that no program answers is an error. -/
theorem assemble_error {source : Text} (h : ∀ words image, assemble source ≠ .ok (words, image)) : ∃ e n, assemble source = .error (e, n) := by
  cases ha : assemble source with
  | error e => exact ⟨e.1, e.2, rfl⟩
  | ok r => exact absurd ha (h r.1 r.2)

theorem length_filterMap_lineTokens (lines : List Text) :
    ((lines.filterMap lineTokens).filter fun ts => !ts.isEmpty).length = (lines.filter fun l => (lineTokens l).any fun ts => !ts.isEmpty).length := by
  induction lines with
  | nil => rfl
  | cons l ls ih => cases h : lineTokens l with
    | none => simpa [h] using ih
    | some ts => cases ts <;> simpa [h] using ih

/-- An accepted source: every line was read, every mnemonic is in the table, and there is one word for each line with a mnemonic. -/
theorem assemble_lines {source : Text} {words : List InsnWord} {image : List Byte} (h : assemble source = .ok (words, image)) :
    (∀ l ∈ sourceLines source, ∃ r, readLine l = .ok r) ∧
    (∀ l ∈ sourceLines source, ∀ m ops, lineTokens l = some (m :: ops) → ∃ e ∈ mnemonics, e.1.toList = m) ∧
    words.length = ((sourceLines source).filter fun l => (lineTokens l).any fun ts => !ts.isEmpty).length := by
  obtain ⟨p, h1, h2, -⟩ := assemble_ok.mp h
  obtain ⟨hread, hinstrs⟩ := pass1_ok h1
  obtain ⟨hlen, hmnem, -⟩ := pass2_ok h2
  rw [hinstrs] at hlen hmnem
  refine ⟨hread, fun l hl m ops ht => hmnem m ops ?_, ?_⟩
  · exact List.mem_append_right _ (List.mem_filterMap.mpr ⟨l, hl, ht⟩)
  · exact hlen.trans (length_filterMap_lineTokens _)

/-! Labels (R101, D42). -/

/-- The label a line declares, if it is not empty (R101). -/
def Declares (line label : Text) : Prop := label ≠ [] ∧ ∃ ts, readLine line = .ok (.instr (some label) ts)

/-- The names of the labels recorded so far. -/
def Pass1.names (p : Pass1) : List Text := p.labels.map Prod.fst

/-- The three ways a line's label is accepted: there is none, it is empty, or it is new and recorded (R101, D42). -/
theorem recordLabel_ok {source : Text} {n : Nat} {label : Option Text} {p : Pass1} {ls : Labels} (h : recordLabel source n label p = .ok ls) :
    ((label = none ∨ label = some []) ∧ ls = p.labels) ∨
    ∃ name, label = some name ∧ name ∉ p.names ∧ ls = p.labels ++ [(name, p.address)] := by
  unfold recordLabel at h
  split at h
  · cases h; exact .inl ⟨.inl rfl, rfl⟩
  · obtain ⟨_, -, rfl⟩ := Asm.map_ok h
    exact .inl ⟨.inr rfl, rfl⟩
  · next c cs =>
    split_ifs at h with twice
    cases h
    exact .inr ⟨c :: cs, rfl, by simpa [Pass1.names] using twice, rfl⟩

theorem pass1Open_labels {source : Text} {n : Nat} {p q : Pass1} (h : pass1Open source n p = .ok q) : q.labels = p.labels := by
  obtain ⟨_, -, rfl⟩ := Asm.map_ok h
  rfl

/-- A directive records no label (R99). -/
theorem pass1Directive_labels {source : Text} {n : Nat} {name : Text} {args : List Text} {p q : Pass1}
    (h : pass1Directive source n name args p = .ok q) : q.labels = p.labels := by
  unfold pass1Directive at h
  split at h
  · split at h
    · exact pass1Open_labels h
    · cases h; rfl
  · split at h
    · cases h; rfl
    · split at h
      · exact pass1Open_labels h
      · split at h
        · obtain ⟨_, -, rfl⟩ := Asm.map_ok h
          rfl
        · exact pass1Open_labels h

/-- An accepted line keeps the names recorded before it; a name it declares was not among them and is recorded. -/
theorem pass1Line_names {source : Text} {n : Nat} {line : Text} {p q : Pass1} (h : pass1Line source n line p = .ok q) :
    p.names ⊆ q.names ∧ ∀ label, Declares line label → label ∉ p.names ∧ label ∈ q.names := by
  unfold pass1Line at h
  split at h
  · cases h
  · next hr => cases h; exact ⟨List.Subset.refl _, fun label ⟨_, ts, hl⟩ => by cases hr.symm.trans hl⟩
  · next hr =>
    refine ⟨?_, fun label ⟨_, ts, hl⟩ => by cases hr.symm.trans hl⟩
    rw [Pass1.names, Pass1.names, pass1Directive_labels h]
    exact List.Subset.refl _
  · next declared ts hr =>
    obtain ⟨ls, hls, h⟩ := Asm.bind_ok h
    obtain ⟨k, -, h⟩ := Asm.bind_ok h
    cases h
    rcases recordLabel_ok hls with ⟨hnone, rfl⟩ | ⟨name, rfl, hnew, rfl⟩
    · refine ⟨List.Subset.refl _, fun label ⟨hne, ts', hl⟩ => ?_⟩
      cases hr.symm.trans hl
      simp [hne] at hnone
    · refine ⟨by simp [Pass1.names], fun label ⟨hne, ts', hl⟩ => ?_⟩
      cases hr.symm.trans hl
      exact ⟨hnew, by simp [Pass1.names]⟩

theorem pass1_cons_ok {source : Text} {n : Nat} {l : Text} {ls : List Text} {p q : Pass1} (h : pass1 source n (l :: ls) p = .ok q) :
    ∃ r, pass1Line source n l p = .ok r ∧ pass1 source (n + 1) ls r = .ok q := by
  unfold pass1 at h
  split at h
  · cases h
  · next r hl => exact ⟨r, hl, h⟩

/-- No line of an accepted rest declares a name recorded before it. -/
theorem not_declares_of_mem_names {source : Text} {n : Nat} {lines : List Text} {p q : Pass1} (h : pass1 source n lines p = .ok q)
    {label : Text} (hin : label ∈ p.names) : ∀ l ∈ lines, ¬ Declares l label := by
  induction lines generalizing n p with
  | nil => nofun
  | cons l ls ih =>
    obtain ⟨r, hl, hls⟩ := pass1_cons_ok h
    obtain ⟨hkeep, hnew⟩ := pass1Line_names hl
    exact List.forall_mem_cons.mpr ⟨fun hd => (hnew label hd).1 hin, ih hls (hkeep hin)⟩

/-- No two lines of an accepted source declare one name (D42). -/
theorem pass1_declares_once {source : Text} {n : Nat} {lines : List Text} {p q : Pass1} (h : pass1 source n lines p = .ok q) (label : Text) :
    lines.Pairwise fun l l' => Declares l label → ¬ Declares l' label := by
  induction lines generalizing n p with
  | nil => exact .nil
  | cons l ls ih =>
    obtain ⟨r, hl, hls⟩ := pass1_cons_ok h
    obtain ⟨-, hnew⟩ := pass1Line_names hl
    exact .cons (fun l' hl' hd => not_declares_of_mem_names hls (hnew label hd).2 l' hl') (ih hls)

/-- Settles O57: the count of an accepted source's lines; and a source with a forbidden line is not accepted, so it is an error. -/
theorem everyLineCounts : Obligations.EveryLineCounts := by
  unfold Obligations.EveryLineCounts
  refine ⟨fun source words image h => ?_, fun source line e hmem he => ?_, fun source line m label ops hmem hl hno => ?_,
    fun source label ts ts' j k line line' hne hjk hj hk hl hl' => ?_⟩
  · obtain ⟨-, -, hcount⟩ := assemble_lines h
    refine hcount.trans (congrArg List.length (List.filter_congr fun l _ => ?_))
    unfold lineTokens
    rcases readLine l with e | _ | _ | ⟨label, _ | _⟩ <;> rfl
  · refine assemble_error fun words image h => ?_
    obtain ⟨hread, -, -⟩ := assemble_lines h
    obtain ⟨r, hr⟩ := hread line hmem
    cases he.symm.trans hr
  · refine assemble_error fun words image h => ?_
    have tokens : lineTokens line = some (m :: ops) := by simp [lineTokens, hl]
    obtain ⟨-, hmnem, -⟩ := assemble_lines h
    obtain ⟨e, he, hm⟩ := hmnem line hmem m ops tokens
    exact hno e he hm
  · refine assemble_error fun words image h => ?_
    obtain ⟨p, h1, -, -⟩ := assemble_ok.mp h
    obtain ⟨hjlt, rfl⟩ := List.getElem?_eq_some_iff.mp hj
    obtain ⟨hklt, rfl⟩ := List.getElem?_eq_some_iff.mp hk
    exact List.pairwise_iff_getElem.mp (pass1_declares_once h1 label) j k hjlt hklt hjk ⟨hne, ts, hl⟩ ⟨hne, ts', hl'⟩

end Sys2Proof.Machine
end

section
/-! Proofs of the family 40_alu: the ten ALU results (R109, R110), the R-type and I-alu templates (R112, R113), lui (R131) and the worked words. -/

namespace Sys2Proof.Machine

/-! The ALU (R109, R110). -/

/-- The low 6 bits of the second operand, the shift amount (D15). -/
theorem toNat_low6 (b : Word) : (b.extractLsb' 0 6).toNat = b.toNat % 64 := by simp

theorem toNat_alu_add (a b : Word) : (alu .add a b).toNat = (a.toNat + b.toNat) % 2 ^ 64 := BitVec.toNat_add a b

theorem toNat_alu_sub (a b : Word) : (alu .sub a b).toNat = (2 ^ 64 + a.toNat - b.toNat) % 2 ^ 64 := by
  have hb : b.toNat < 2 ^ 64 := b.isLt
  rw [alu, BitVec.toNat_sub]
  omega

theorem toNat_alu_sll (a b : Word) : (alu .sll a b).toNat = a.toNat * 2 ^ (b.toNat % 64) % 2 ^ 64 := by
  rw [alu, toNat_low6, BitVec.toNat_shiftLeft, Nat.shiftLeft_eq]

theorem toNat_alu_srl (a b : Word) : (alu .srl a b).toNat = a.toNat / 2 ^ (b.toNat % 64) := by
  rw [alu, toNat_low6, BitVec.toNat_ushiftRight, Nat.shiftRight_eq_div_pow]

/-- An arithmetic shift is floor division, also of a negative operand. -/
theorem toInt_alu_sra (a b : Word) : (alu .sra a b).toInt = a.toInt / 2 ^ (b.toNat % 64) := by
  rw [alu, toNat_low6, BitVec.toInt_sshiftRight, Int.shiftRight_eq_div_pow]
  norm_cast

theorem alu_slt (a b : Word) : alu .slt a b = if a.toInt < b.toInt then 1 else 0 := by
  simp [alu, boolWord, BitVec.slt]

theorem alu_sltu (a b : Word) : alu .sltu a b = if a.toNat < b.toNat then 1 else 0 := by
  simp [alu, boolWord, BitVec.ult]

/-- Settles O17: the results operation by operation. -/
theorem aluResults : Obligations.AluResults := fun a b =>
  ⟨toNat_alu_add a b, toNat_alu_sub a b, fun _ => BitVec.getLsbD_and, fun _ => BitVec.getLsbD_or, fun _ => BitVec.getLsbD_xor,
    toNat_alu_sll a b, toNat_alu_srl a b, toInt_alu_sra a b, alu_slt a b, alu_sltu a b⟩

/-! The templates (R112, R113). -/

/-- The R-type template retires with the ALU's result of the two old registers. -/
theorem rTypeTemplate_ok (op : AluOp) (rd rs1 rs2 : RegIdx) (s : State) :
    ∃ t, rTypeTemplate op rd rs1 rs2 s = .next t ∧ RetiresReg s t rd (alu op (s.getReg rs1) (s.getReg rs2)) :=
  retireReg_ok rd _ s

/-- The I-alu template retires with the ALU's result of the old register and the immediate. -/
theorem iAluTemplate_ok (op : AluOp) (rd rs1 : RegIdx) (b : Word) (s : State) :
    ∃ t, iAluTemplate op rd rs1 b s = .next t ∧ RetiresReg s t rd (alu op (s.getReg rs1) b) :=
  retireReg_ok rd _ s

/-- Settles O15: each R-type instruction is the template at its operation. -/
theorem Alu.rTypeTemplate : Obligations.RTypeTemplate := fun s rd rs1 rs2 =>
  have template (op : AluOp) := rTypeTemplate_ok op rd rs1 rs2 s
  ⟨template .add, template .sub, template .sll, template .xor, template .srl, template .sra, template .or, template .and⟩

/-- Settles O16: each I-alu instruction is the template at its operation, with its immediate or its shift amount widened. -/
theorem Alu.iAluTemplate : Obligations.IAluTemplate := fun s rd rs1 imm shamt =>
  have immediate (op : AluOp) := iAluTemplate_ok op rd rs1 (immI imm) s
  have shift (op : AluOp) := iAluTemplate_ok op rd rs1 (immShamt shamt) s
  ⟨immediate .add, immediate .slt, immediate .sltu, immediate .xor, immediate .or, immediate .and, shift .sll, shift .srl, shift .sra⟩

/-! lui (R131, D16). -/

/-- The 32 bits of imm_U, the 20 bits over 12 zeros. -/
theorem getLsbD_immU (imm20 : BitVec 20) (k : Nat) : (immU imm20).getLsbD k = if k < 12 then false else imm20.getLsbD (k - 12) := by
  rw [immU, BitVec.getLsbD_append]
  split <;> simp

/-- Below bit 32 both values of LUI_EXT give imm_U. -/
theorem getLsbD_luiValue_low (e : LuiExt) (imm20 : BitVec 20) {k : Nat} (hk : k < 32) :
    (luiValue e imm20).getLsbD k = (immU imm20).getLsbD k := by
  have h64 : k < 64 := by omega
  cases e with
  | sign =>
    rw [luiValue, BitVec.getLsbD_signExtend, if_pos hk]
    simp [h64]
  | zero =>
    rw [luiValue, BitVec.getLsbD_setWidth]
    simp [h64]

/-- From bit 32 on LUI_EXT decides: copies of the top bit of imm20, or zeros. -/
theorem getLsbD_luiValue_high (e : LuiExt) (imm20 : BitVec 20) {k : Nat} (hlow : 32 ≤ k) (hhigh : k < 64) :
    (luiValue e imm20).getLsbD k = (decide (e = .sign) && imm20.getLsbD 19) := by
  cases e with
  | sign =>
    rw [luiValue, getLsbD_signExtend_succ _ hhigh, if_neg (by omega), getLsbD_immU]
    simp
  | zero =>
    rw [luiValue, BitVec.getLsbD_setWidth, BitVec.getLsbD_of_ge _ k hlow]
    simp

/-- Settles O18: lui retires with luiValue, read bit by bit. -/
theorem luiResult : Obligations.LuiResult := fun s rd imm20 => by
  obtain ⟨t, ht, hr⟩ := retireReg_ok rd (luiValue s.params.luiExt imm20) s
  refine ⟨t, _, ht, hr, fun k hk => ?_, fun k hk hk' => ?_, fun k hk hk' => getLsbD_luiValue_high _ _ hk hk'⟩
  · rw [getLsbD_luiValue_low _ _ (by omega), getLsbD_immU, if_pos hk]
  · rw [getLsbD_luiValue_low _ _ hk', getLsbD_immU, if_neg (by omega)]

/-! Worked words. -/

/-- Settles O5: each of the printed words is closed, and the decoder runs on it. -/
theorem workedWordsDecode : Obligations.WorkedWordsDecode := by
  unfold Obligations.WorkedWordsDecode
  decide

end Sys2Proof.Machine
end

section
/-! Proofs of the family 41_load_store: the effective address (R132), the extension of a loaded value (R135), and the load and store templates in
bounds (R135, R136), of which every load and store is an instance. -/

namespace Sys2Proof.Machine

/-! The effective address (R132). -/

/-- A widened immediate is the immediate modulo 2^64. -/
theorem toNat_immI (imm : BitVec 12) : ((immI imm).toNat : Int) = imm.toInt % 2 ^ 64 := by
  rw [immI, BitVec.signExtend, BitVec.toNat_ofInt]
  exact Int.toNat_of_nonneg (Int.emod_nonneg _ (by decide))

/-- Settles O19: a sum of words and a widened immediate are both taken modulo 2^64. -/
theorem effectiveAddress : Obligations.EffectiveAddress := fun s rs1 imm => by
  rw [effAddr, BitVec.toNat_add, Int.natCast_mod, Int.natCast_add, toNat_immI]
  exact Int.add_emod_emod ..

/-! The value a load writes (R135). -/

/-- Above the loaded bits a sign extension copies the top bit loaded, and a zero extension has zeros. -/
theorem getLsbD_extend_above (e : Extension) (v : Word) {n i : Nat} (hn : 0 < n) (hni : 8 * n ≤ i) (hi : i < 64) :
    (extend e n v).getLsbD i = (decide (e = .sext) && v.getLsbD (8 * n - 1)) := by
  have habove : ¬ i < 8 * n := by omega
  cases e with
  | sext =>
    rw [extend, BitVec.getLsbD_signExtend, if_neg habove, BitVec.msb_eq_getLsbD_last]
    simp [hi, hn]
  | zext => simp [extend, habove]

/-- Above the loaded bytes every bit of a byte is one and the same, so the byte is 0xff or 0. -/
theorem byteOf_extend_above (e : Extension) (v : Word) {n k : Nat} (hn : 0 < n) (hnk : n ≤ k) (hk : k < 8) :
    byteOf (extend e n v) k = if e = .sext ∧ (byteOf v (n - 1)).getLsbD 7 = true then 0xff#8 else 0#8 := by
  have htop : 8 * (n - 1) + 7 = 8 * n - 1 := by omega
  have hsign : (byteOf v (n - 1)).getLsbD 7 = v.getLsbD (8 * n - 1) := by simp [byteOf, htop]
  have hbit (i : Nat) (hi : i < 8) : (byteOf (extend e n v) k).getLsbD i = (decide (e = .sext) && v.getLsbD (8 * n - 1)) := by
    rw [byteOf, BitVec.getLsbD_extractLsb', getLsbD_extend_above e v hn (by omega) (by omega)]
    simp [hi]
  apply BitVec.eq_of_getLsbD_eq
  intro i hi
  rw [hbit i hi, hsign]
  split
  · next h =>
    have hones : (0xff#8).getLsbD i = true := (BitVec.getLsbD_allOnes (v := 8)).trans (decide_eq_true hi)
    simp [h, hones]
  · next h => simpa using h

/-- The value of the view is, byte by byte, the view. -/
theorem byteOf_viewValue (s : State) (a : Nat) {n k : Nat} (hk : k < n) (hk8 : k < 8) : byteOf (s.viewValue a n) k = s.view (a + k) := by
  rw [State.viewValue, byteOf_leValue _ _ hk8]
  simp [hk]

/-- The value of the view, extended, is what a load of `n` bytes is to write. -/
theorem loadedValue_extend (e : Extension) (s : State) (a : Nat) {n : Nat} (hn : 0 < n) (hn8 : n ≤ 8) :
    LoadedValue e s a n (extend e n (s.viewValue a n)) := by
  have htop : a + (n - 1) = a + n - 1 := by omega
  refine ⟨fun k hk => ?_, fun k hnk hk => ?_⟩
  · rw [byteOf_extend e _ hn8 hk, byteOf_viewValue s a hk (by omega)]
  · rw [byteOf_extend_above e _ hn hnk hk, byteOf_viewValue s a (by omega) (by omega), htop]

/-! The templates in bounds (R135, R136). -/

theorem Width.bytes_pos (w : Width) : 0 < w.bytes := by cases w <;> decide

/-- With the cache off a read leaves the data side alone (R53, R54). -/
theorem memRead_data_of_off {d : DataSide} (h : d.cfg = none) (a n : Nat) : (memRead d a n).2 = d := by
  simp [memRead, h]

/-- With the cache off a write changes MEM alone (R53, R54). -/
theorem memWrite_of_off {d : DataSide} (h : d.cfg = none) (a n : Nat) (v : Word) :
    memWrite d a n v = { d with mem := (memWrite d a n v).mem } := by
  simp [memWrite, h]

section
variable {s : State} (hs : s.Inv) {w : Width} {rs1 : RegIdx} {imm : BitVec 12}
  (hin : (effAddr s rs1 imm).toNat + w.bytes ≤ s.params.dataMemSize)
include hs hin

/-- A load in bounds writes the value of the view, extended, whatever the width, the extension and rd. -/
theorem loadTemplate_ok (e : Extension) (rd : RegIdx) :
    ∃ t v, loadTemplate w e rd rs1 imm s = .next t ∧ LoadsReg s t rd (effAddr s rs1 imm).toNat w.bytes v ∧
      LoadedValue e s (effAddr s rs1 imm).toNat w.bytes v := by
  obtain ⟨hval, -, hview, hcfg⟩ := memRead_ok hs.data hin
  have hvalue : (memRead s.data (effAddr s rs1 imm).toNat w.bytes).1 = s.viewValue (effAddr s rs1 imm).toNat w.bytes := hval
  refine ⟨_, _, loadTemplate_in w e rd rs1 imm s hin, ?_, hvalue ▸ loadedValue_extend e s _ w.bytes_pos w.bytes_le⟩
  refine ⟨rfl, fun r => by simp, by simp, fun x => ?_, ?_, fun hoff => ?_, by simp [SameControl]⟩
  · simpa [State.view] using hview x
  · simpa using hcfg
  · simp [SameData, memRead_data_of_off hoff]

/-- A store in bounds writes the low bytes of rs2, whatever the width. -/
theorem storeTemplate_ok (rs2 : RegIdx) :
    ∃ t, storeTemplate w rs2 rs1 imm s = .next t ∧ StoresBytes s t (effAddr s rs1 imm).toNat w.bytes (s.getReg rs2) := by
  obtain ⟨-, hview, hcfg⟩ := memWrite_ok hs.data hin (s.getReg rs2)
  exact ⟨_, storeTemplate_in w rs2 rs1 imm s hin, rfl, fun _ => rfl, rfl, hview, hcfg, fun hoff => memWrite_of_off hoff _ _ _,
    rfl, rfl, rfl, rfl⟩

end

/-! The eleven instructions (R137 to R147): each is its template at one width. -/

/-- Settles O20: each sign-extending load is the load template at its width. -/
theorem signedLoadsComplete : Obligations.SignedLoadsComplete := fun _ rd _ _ hs =>
  ⟨fun hin => loadTemplate_ok (w := .byte) hs hin .sext rd, fun hin => loadTemplate_ok (w := .half) hs hin .sext rd,
    fun hin => loadTemplate_ok (w := .word) hs hin .sext rd, fun hin => loadTemplate_ok (w := .double) hs hin .sext rd⟩

/-- Settles O21: each zero-extending load is the load template at its width. -/
theorem unsignedLoadsComplete : Obligations.UnsignedLoadsComplete := fun _ rd _ _ hs =>
  ⟨fun hin => loadTemplate_ok (w := .byte) hs hin .zext rd, fun hin => loadTemplate_ok (w := .half) hs hin .zext rd,
    fun hin => loadTemplate_ok (w := .word) hs hin .zext rd⟩

/-- Settles O22: each store is the store template at its width. -/
theorem storesComplete : Obligations.StoresComplete := fun _ rs2 _ _ hs =>
  ⟨fun hin => storeTemplate_ok (w := .byte) hs hin rs2, fun hin => storeTemplate_ok (w := .half) hs hin rs2,
    fun hin => storeTemplate_ok (w := .word) hs hin rs2, fun hin => storeTemplate_ok (w := .double) hs hin rs2⟩

end Sys2Proof.Machine
end

section
/-! Proofs of the family 42_control: the fetch checks in their order (R149, R163, R170), the decoded instruction (R148), branches (R152, R153), jalr
(R154), jal (R161) and the return from a call (R162). -/

namespace Sys2Proof.Machine

/-! The fetch checks as arithmetic on the pc (R149). -/

theorem getLsbD_sign_iff (a : Word) : a.getLsbD 63 = true ↔ a.toInt < 0 := by
  rw [← decide_eq_true_iff (p := a.toInt < 0), ← BitVec.msb_eq_toInt, BitVec.msb_eq_getLsbD_last]

theorem extractLsb'_low2_eq_zero_iff (a : Word) : a.extractLsb' 0 2 = 0 ↔ a.toNat % 4 = 0 := by
  simp [← BitVec.toNat_inj]

theorem fetch_of_negative {s : State} (hneg : s.pc.toInt < 0) : fetch s = .fault (.instructionAccessFault s.pc) :=
  if_pos ((getLsbD_sign_iff _).mpr hneg)

theorem fetch_at_end {s : State} (hpos : 0 ≤ s.pc.toInt) (hend : 4 * s.text.length ≤ s.pc.toNat) : fetch s = .ended := by
  unfold fetch
  rw [if_neg (mt (getLsbD_sign_iff _).mp hpos.not_gt)]
  exact dif_pos hend

theorem fetch_of_misaligned {s : State} (hpos : 0 ≤ s.pc.toInt) (hend : s.pc.toNat < 4 * s.text.length) (halign : s.pc.toNat % 4 ≠ 0) :
    fetch s = .fault (.instructionAddressMisaligned s.pc) := by
  have hlt : ¬ s.endAddr ≤ s.pc.toNat := Nat.not_le.mpr hend
  unfold fetch
  rw [if_neg (mt (getLsbD_sign_iff _).mp hpos.not_gt), dif_neg hlt]
  exact if_pos (mt (extractLsb'_low2_eq_zero_iff _).mp halign)

/-- Where TEXT holds a word at pc / 4 the pc is below END, so the last branch is taken. -/
theorem fetch_eq_word {s : State} {w : InsnWord} (hpos : 0 ≤ s.pc.toInt) (halign : s.pc.toNat % 4 = 0)
    (hw : s.text[s.pc.toNat / 4]? = some w) : fetch s = .word w := by
  obtain ⟨hlt, rfl⟩ := List.getElem?_eq_some_iff.mp hw
  have hend : ¬ s.endAddr ≤ s.pc.toNat := by
    unfold State.endAddr State.instrCount
    omega
  unfold fetch
  rw [if_neg (mt (getLsbD_sign_iff _).mp hpos.not_gt), dif_neg hend, if_neg (not_not.mpr ((extractLsb'_low2_eq_zero_iff _).mpr halign))]
  simp only [Nat.shiftRight_eq_div_pow]

/-! A Ready step by what it fetches (R148). -/

section
variable {s : State} (hr : s.status = .ready)
include hr

theorem step_of_fetch_fault {f : FaultRecord} (hf : fetch s = .fault f) : step s = .next (s.setStatus (.faulted f)) := by
  rw [step_of_ready hr, cycle, hf]
  exact takeFault_eq f s

theorem step_of_fetch_ended (hf : fetch s = .ended) : step s = .next (s.setStatus .ended) := by
  rw [step_of_ready hr, cycle, hf]

theorem step_of_fetch_word {w : InsnWord} (hf : fetch s = .word w) : step s = decodeExecute w s := by
  rw [step_of_ready hr, cycle, hf]

end

theorem decodeExecute_legal {w : InsnWord} {i : Instr} (h : decode w = .legal i) (s : State) : decodeExecute w s = exec i s := by
  rw [decodeExecute, h]

theorem decodeExecute_illegal {w : InsnWord} (h : decode w = .illegal) (s : State) :
    decodeExecute w s = .next (s.setStatus (.faulted (.illegalInstruction s.pc w))) := by
  rw [decodeExecute, h]
  exact takeFault_eq _ s

/-- Settles O9: an aligned pc inside TEXT fetches its word, and the step is what the decoder makes of that word. -/
theorem stepRunsDecoded : Obligations.StepRunsDecoded := by
  unfold Obligations.StepRunsDecoded
  intro s w hr hpos halign hw
  have hstep : step s = decodeExecute w s := step_of_fetch_word hr (fetch_eq_word hpos halign hw)
  exact ⟨fun i hi => hstep.trans (decodeExecute_legal hi s), fun hill => hstep.trans (decodeExecute_illegal hill s)⟩

/-- Settles O10: the fetch in each of the four cases; in the last one the pc's word is below the program's length. -/
theorem fetchOutcomes : Obligations.FetchOutcomes := by
  unfold Obligations.FetchOutcomes
  refine fun s hr => ⟨fun hneg => step_of_fetch_fault hr (fetch_of_negative hneg),
    fun hpos hend => step_of_fetch_ended hr (fetch_at_end hpos hend),
    fun hpos hend halign => step_of_fetch_fault hr (fetch_of_misaligned hpos hend halign), fun hpos hend halign => ?_⟩
  have hw : s.text[s.pc.toNat / 4]? = some (s.text[s.pc.toNat / 4]'(by omega)) := List.getElem?_eq_getElem _
  exact ⟨_, hw, step_of_fetch_word hr (fetch_eq_word hpos halign hw)⟩

/-! Branches (R152, R153). -/

theorem cmp_eq_iff {a b : Word} : cmp .eq a b = true ↔ a = b := beq_iff_eq
theorem cmp_ne_iff {a b : Word} : cmp .ne a b = true ↔ a ≠ b := bne_iff_ne
theorem cmp_lt_iff {a b : Word} : cmp .lt a b = true ↔ a.toInt < b.toInt := BitVec.slt_iff_toInt_lt
theorem cmp_ge_iff {a b : Word} : cmp .ge a b = true ↔ b.toInt ≤ a.toInt := BitVec.sle_iff_toInt_le
theorem cmp_ltu_iff {a b : Word} : cmp .ltu a b = true ↔ a.toNat < b.toNat := BitVec.ult_iff_lt
theorem cmp_geu_iff {a b : Word} : cmp .geu a b = true ↔ b.toNat ≤ a.toNat := BitVec.ule_iff_le

theorem jumpsTo_setPc (s : State) (target : Word) : JumpsTo s (s.setPc target) target :=
  ⟨rfl, fun _ => rfl, ⟨fun _ => rfl, rfl⟩, rfl, rfl, rfl, rfl⟩

/-- The branch template, with its condition read as a proposition. -/
theorem branchTemplate_ok (s : State) (rs1 rs2 : RegIdx) (off : BitVec 13) {c : Cond} {p : Prop} [Decidable p]
    (hp : cmp c (s.getReg rs1) (s.getReg rs2) = true ↔ p) :
    ∃ t, branchTemplate c rs1 rs2 off s = .next t ∧ JumpsTo s t (if p then s.pc + off.signExtend 64 else s.pc + 4) := by
  refine ⟨_, rfl, ?_⟩
  simp only [hp]
  exact jumpsTo_setPc s _

/-- Settles O25: each branch is the template at its condition; a misaligned pc inside the program is the third case of the fetch. -/
theorem Control.branchTemplate : Obligations.BranchTemplate := by
  unfold Obligations.BranchTemplate
  refine ⟨fun s rs1 rs2 off => ?_, fun t hr hpos hend halign => step_of_fetch_fault hr (fetch_of_misaligned hpos hend halign)⟩
  exact ⟨branchTemplate_ok s rs1 rs2 off cmp_eq_iff, branchTemplate_ok s rs1 rs2 off cmp_ne_iff, branchTemplate_ok s rs1 rs2 off cmp_lt_iff,
    branchTemplate_ok s rs1 rs2 off cmp_ge_iff, branchTemplate_ok s rs1 rs2 off cmp_ltu_iff, branchTemplate_ok s rs1 rs2 off cmp_geu_iff⟩

/-! Jumps that link (R154, R161, R162). -/

/-- The shared ending of jalr and jal: pc + 4 in rd, then the target in the pc. -/
theorem linksTo_setReg_setPc (s : State) (rd : RegIdx) (target : Word) : LinksTo s ((s.setReg rd s.nextPc).setPc target) rd target :=
  ⟨rfl, fun r => by simp, by simp [SameData], by simp [SameControl]⟩

theorem WritesReg.getReg_rd {s t : State} {rd : RegIdx} {v : Word} (h : WritesReg s t rd v) (hrd : rd ≠ 0) : t.getReg rd = v :=
  (h rd).trans (if_pos ⟨rfl, hrd⟩)

theorem WritesReg.sameRegs_of_zero {s t : State} {v : Word} (h : WritesReg s t 0 v) : SameRegs s t :=
  fun r => (h r).trans (if_neg fun ⟨hr, hne⟩ => hne hr)

/-- Settles O26: jalr links and jumps; its target reads x[rs1] in the state before the link. -/
theorem jumpRegister : Obligations.JumpRegister := fun s rd rs1 imm => ⟨_, rfl, linksTo_setReg_setPc s rd (s.getReg rs1 + immI imm)⟩

theorem execJal_linksTo (s : State) (rd : RegIdx) (off : BitVec 21) :
    ∃ t, exec (.jal rd off) s = .next t ∧ LinksTo s t rd (s.pc + off.signExtend 64) :=
  ⟨_, rfl, linksTo_setReg_setPc s rd (s.pc + immJ off)⟩

theorem exec_jal_self (s : State) : exec (.jal 0 0) s = .next s := by
  have htarget : s.pc + immJ 0 = s.pc := BitVec.add_zero s.pc
  calc exec (.jal 0 0) s = .next (s.setPc (s.pc + immJ 0)) := rfl
    _ = .next (s.setPc s.pc) := by rw [htarget]
    _ = .next s := rfl

/-- An even offset is not the largest one of its width, which is odd. -/
theorem toInt_le_of_evenOffset {off : BitVec 21} (h : evenOffset off = true) : off.toInt ≤ 1048574 := by
  have hle : off.toInt ≤ 1048575 := BitVec.toInt_le
  have hne : off.toInt ≠ 1048575 := by
    intro hmax
    obtain rfl : off = 0xfffff#21 := BitVec.eq_of_toInt_eq hmax
    exact absurd h (by decide)
  omega

/-- Settles O27: jal links and jumps; the offset's range is that of 21 bits without the odd numbers; the words are encodeJ's. -/
theorem jumpAndLink : Obligations.JumpAndLink := by
  unfold Obligations.JumpAndLink
  exact ⟨execJal_linksTo, exec_jal_self, fun off h => ⟨BitVec.le_toInt off, toInt_le_of_evenOffset h⟩, fun _ _ => rfl, by decide, by decide⟩

/-- Settles O28: the link register still holds the call's pc + 4, which is the jalr's target; and a jalr to x0 writes no register. -/
theorem callReturns : Obligations.CallReturns := by
  unfold Obligations.CallReturns
  intro s t c ra off hra hcall hkept
  obtain ⟨t', ht', -, hlink, -, -⟩ := execJal_linksTo s ra off
  obtain rfl := Host.Outcome.next.inj (hcall.symm.trans ht')
  obtain ⟨u, hu, hpc, hregs, -, -⟩ := jumpRegister c 0 ra 0
  refine ⟨u, hu, ?_, hregs.sameRegs_of_zero⟩
  calc u.pc = c.getReg ra + (0 : BitVec 12).signExtend 64 := hpc
    _ = c.getReg ra := BitVec.add_zero _
    _ = t.getReg ra := hkept
    _ = s.pc + 4 := hlink.getReg_rd hra

end Sys2Proof.Machine
end

section
/-! Proofs of the family 60_exceptions, part 1: a fault changes the status alone (R164, R166), and the condition of each fault code (R170, R171). -/

namespace Sys2Proof.Machine

/-! The status after an instruction and after a Ready step (R164, R166). -/

/-- An instruction keeps the status, or takes a fault of this pc and does nothing else. -/
theorem exec_status_cases {i : Instr} {s t : State} (h : exec i s = .next t) :
    t.status = s.status ∨ ∃ f, f.pc = s.pc ∧ t = s.setStatus (.faulted f) := by
  rcases exec_next_cases h with ⟨rd, v, a, rfl⟩ | ⟨w, a, rd, v, -, rfl⟩ | ⟨w, a, v, -, rfl⟩ | hfault
  · exact .inl (by simp)
  · exact .inl (by simp)
  · exact .inl rfl
  · exact .inr hfault

/-- A Ready step leaves Ready or Ended, or takes a fault of this pc and does nothing else. -/
theorem step_status_cases {s t : State} (hr : s.status = .ready) (h : step s = .next t) :
    t.status = .ready ∨ t.status = .ended ∨ ∃ f, f.pc = s.pc ∧ t = s.setStatus (.faulted f) := by
  rcases step_next_cases h with rfl | hfault | ⟨-, -, rfl⟩ | ⟨-, w, i, -, -, he⟩
  · exact .inl hr
  · exact .inr (.inr hfault)
  · exact .inr (.inl rfl)
  · exact (exec_status_cases he).imp (·.trans hr) .inr

/-- Settles O12: of the statuses a Ready step leaves, only a fault's is Faulted. -/
theorem faultsArePrecise : Obligations.FaultsArePrecise := by
  unfold Obligations.FaultsArePrecise
  intro s t f hr h hf
  rcases step_status_cases hr h with ht | ht | ⟨g, hpc, rfl⟩
  · exact nomatch ht.symm.trans hf
  · exact nomatch ht.symm.trans hf
  · obtain rfl := Status.faulted.inj hf
    exact ⟨rfl, hpc⟩

/-! The cause a Ready step leaves (R170, R171). -/

/-- The access of `i`, of kind `k`, ends beyond data memory (R52). -/
def AccessOut (k : LsuKind) (i : Instr) (s : State) : Prop :=
  ∃ rs1 imm n, i.access = some (k, rs1, imm, n) ∧ s.params.dataMemSize < (effAddr s rs1 imm).toNat + n

theorem AccessOut.kind_unique {k k' : LsuKind} {i : Instr} {s : State} (h : AccessOut k i s) (h' : AccessOut k' i s) : k = k' := by
  obtain ⟨_, _, _, ha, -⟩ := h
  obtain ⟨_, _, _, ha', -⟩ := h'
  exact congrArg Prod.fst (Option.some.inj (ha.symm.trans ha'))

/-- The code of the fault an access out of bounds takes (R171). -/
def LsuKind.code : LsuKind → BitVec 3
  | .load => 4
  | .store => 5

theorem LsuKind.code_inj {k k' : LsuKind} : k.code = k'.code ↔ k = k' := by
  cases k <;> cases k' <;> decide

/-- An access out of bounds leaves the code of its kind (accessFaults). -/
theorem exec_cause_of_out {k : LsuKind} {i : Instr} {s t : State} (h : exec i s = .next t) (hout : AccessOut k i s) :
    t.status.cause = k.code := by
  obtain ⟨rs1, imm, n, ha, hsize⟩ := hout
  obtain ⟨hload, hstore⟩ := accessFaults i s rs1 imm n hsize
  cases k with
  | load => obtain rfl := Host.Outcome.next.inj (h.symm.trans (hload ha)); rfl
  | store => obtain rfl := Host.Outcome.next.inj (h.symm.trans (hstore ha)); rfl

/-- Without an access out of bounds an instruction keeps the status. -/
theorem exec_status_of_not_out {i : Instr} {s t : State} (h : exec i s = .next t) (hin : ∀ k, ¬ AccessOut k i s) : t.status = s.status := by
  cases exec_form i with
  | plain rd value target _ _ _ he =>
    obtain rfl := Host.Outcome.next.inj ((he s).symm.trans h)
    simp
  | load w e rd rs1 imm ha _ he =>
    have hbound := Nat.not_lt.mp fun hout => hin .load ⟨rs1, imm, _, ha, hout⟩
    obtain rfl := Host.Outcome.next.inj ((loadTemplate_in w e rd rs1 imm s hbound).symm.trans ((he s).symm.trans h))
    simp
  | store w rs2 rs1 imm ha _ he =>
    have hbound := Nat.not_lt.mp fun hout => hin .store ⟨rs1, imm, _, ha, hout⟩
    obtain rfl := Host.Outcome.next.inj ((storeTemplate_in w rs2 rs1 imm s hbound).symm.trans ((he s).symm.trans h))
    simp

/-- Which cause an executed instruction of a Ready block leaves: the code of its access out of bounds, or none. -/
theorem exec_cause_cases {i : Instr} {s t : State} (hr : s.status = .ready) (h : exec i s = .next t) :
    (t.status.cause = 0 ∧ ∀ k, ¬ AccessOut k i s) ∨ ∃ k : LsuKind, t.status.cause = k.code ∧ AccessOut k i s := by
  by_cases hin : ∀ k, ¬ AccessOut k i s
  · exact .inl ⟨by rw [exec_status_of_not_out h hin, hr]; rfl, hin⟩
  · obtain ⟨k, hk⟩ := not_forall_not.mp hin
    exact .inr ⟨k, exec_cause_of_out h hk, hk⟩

/-- Which cause a fetched word leaves in a Ready block: that of an illegal word exactly when no instruction decodes from it, that of an access
exactly when the decoded instruction's access is out of bounds, and never a fetch's. -/
theorem decodeExecute_cause {w : InsnWord} {s t : State} (hr : s.status = .ready) (h : decodeExecute w s = .next t) :
    t.status.cause ≠ 1 ∧ t.status.cause ≠ 2 ∧ (t.status.cause = 3 ↔ decode w = .illegal) ∧
    ∀ k : LsuKind, t.status.cause = k.code ↔ ∃ i, decode w = .legal i ∧ AccessOut k i s := by
  cases hd : decode w with
  | illegal =>
    have hthree : t.status.cause = 3 := by rw [Host.Outcome.next.inj (h.symm.trans (decodeExecute_illegal hd s))]; rfl
    rw [hthree]
    exact ⟨by decide, by decide, by simp, fun k => iff_of_false (by cases k <;> decide) (by simp)⟩
  | legal i =>
    rcases exec_cause_cases hr ((decodeExecute_legal hd s).symm.trans h) with ⟨hzero, hin⟩ | ⟨k, hcode, hout⟩
    · rw [hzero]
      exact ⟨by decide, by decide, by simp, fun k => iff_of_false (by cases k <;> decide) (by simp [hin])⟩
    · rw [hcode]
      refine ⟨by cases k <;> decide, by cases k <;> decide, iff_of_false (by cases k <;> decide) nofun, fun k' => ?_⟩
      rw [LsuKind.code_inj]
      exact ⟨fun e => ⟨i, rfl, e ▸ hout⟩, fun ⟨j, hj, hout'⟩ => hout.kind_unique (Decoded.legal.inj hj ▸ hout')⟩

/-- The fetch's four outcomes with their conditions on the pc (R149). -/
theorem fetch_cases (s : State) :
    (s.pc.toInt < 0 ∧ fetch s = .fault (.instructionAccessFault s.pc)) ∨
    (0 ≤ s.pc.toInt ∧ 4 * s.text.length ≤ s.pc.toNat ∧ fetch s = .ended) ∨
    (0 ≤ s.pc.toInt ∧ s.pc.toNat < 4 * s.text.length ∧ s.pc.toNat % 4 ≠ 0 ∧ fetch s = .fault (.instructionAddressMisaligned s.pc)) ∨
    (0 ≤ s.pc.toInt ∧ s.pc.toNat < 4 * s.text.length ∧ s.pc.toNat % 4 = 0 ∧ ∃ w, fetch s = .word w) := by
  rcases lt_or_ge s.pc.toInt 0 with hneg | hpos
  · exact .inl ⟨hneg, fetch_of_negative hneg⟩
  rcases Nat.lt_or_ge s.pc.toNat (4 * s.text.length) with hend | hend
  · by_cases halign : s.pc.toNat % 4 = 0
    · have hw : s.text[s.pc.toNat / 4]? = some (s.text[s.pc.toNat / 4]'(by omega)) := List.getElem?_eq_getElem _
      exact .inr (.inr (.inr ⟨hpos, hend, halign, _, fetch_eq_word hpos halign hw⟩))
    · exact .inr (.inr (.inl ⟨hpos, hend, halign, fetch_of_misaligned hpos hend halign⟩))
  · exact .inr (.inl ⟨hpos, hend, fetch_at_end hpos hend⟩)

/-- Settles O13: the cause by what is fetched; of a fetched word it is what the decoder and the access's bounds say. -/
theorem faultConditions : Obligations.FaultConditions := by
  unfold Obligations.FaultConditions
  intro s t hr h
  rcases fetch_cases s with ⟨hneg, hf⟩ | ⟨hpos, hend, hf⟩ | ⟨hpos, hend, halign, hf⟩ | ⟨hpos, hend, halign, w, hf⟩
  · obtain rfl := Host.Outcome.next.inj (h.symm.trans (step_of_fetch_fault hr hf))
    simp [Status.cause, FaultRecord.code, hf, hneg]
  · obtain rfl := Host.Outcome.next.inj (h.symm.trans (step_of_fetch_ended hr hf))
    simp [Status.cause, hf, hpos, hend]
  · obtain rfl := Host.Outcome.next.inj (h.symm.trans (step_of_fetch_fault hr hf))
    simp [Status.cause, FaultRecord.code, hf, hpos, hend, halign]
  · obtain ⟨hfetch, hmisaligned, hillegal, haccess⟩ := decodeExecute_cause hr ((step_of_fetch_word hr hf).symm.trans h)
    refine ⟨iff_of_false hfetch hpos.not_gt, iff_of_false hmisaligned fun ⟨_, _, hne⟩ => hne halign, ?_, ?_, ?_⟩
    · exact hillegal.trans (by simp [illegal_iff, hf])
    · exact (haccess .load).trans (by simp [hf, AccessOut])
    · exact (haccess .store).trans (by simp [hf, AccessOut])

end Sys2Proof.Machine
end

section
/-! Proofs of the family 60_exceptions, part 2: the operations of the host (R179 to R187), what every one of them keeps (the block's invariant, a
fault's record, the counters of a cache never enabled), runs as steps (R181), and the step of R182. -/

namespace Sys2Proof.Machine

/-! Runs (R181, R187). -/

theorem runChoices_singleton (s : State) : runChoices [false] s = step s := by
  obtain ⟨u, hu⟩ := step_next s
  by_cases hr : s.status = .ready
  · rw [runChoices_of_ready hr hu, hu]
    rfl
  · rw [runChoices_of_not_ready hr, step_of_not_ready hr]

/-- Every run answers a next state, as each of its steps does. -/
theorem runChoices_next (choices : List Bool) (s : State) : ∃ t, runChoices choices s = .next t := by
  induction choices generalizing s with
  | nil => exact ⟨s, rfl⟩
  | cons stop more ih =>
    by_cases hr : s.status = .ready
    · obtain ⟨u, hu⟩ := step_next s
      rw [runChoices_of_ready hr hu]
      split
      · exact ⟨s, rfl⟩
      · exact ih u
    · exact ⟨s, runChoices_of_not_ready hr _⟩

/-- A run without stops, taken up where it was cut. -/
theorem runChoices_append {m : Nat} {s t : State} (h : runChoices (List.replicate m false) s = .next t) (more : List Bool) :
    runChoices (List.replicate m false ++ more) s = runChoices more t := by
  induction m generalizing s with
  | zero => rw [Host.Outcome.next.inj h]; rfl
  | succ m ih =>
    rw [List.replicate_succ, List.cons_append]
    rw [List.replicate_succ] at h
    by_cases hr : s.status = .ready
    · obtain ⟨u, hu⟩ := step_next s
      rw [runChoices_of_ready hr hu] at h ⊢
      exact ih h
    · rw [runChoices_of_not_ready hr] at h ⊢
      rw [← Host.Outcome.next.inj h, runChoices_of_not_ready hr]

/-- Stops only shorten a run: it is the run without stops up to the first one. -/
theorem exists_runChoices_replicate {choices : List Bool} {s t : State} (h : runChoices choices s = .next t) :
    ∃ n, n ≤ choices.length ∧ runChoices (List.replicate n false) s = .next t := by
  induction choices generalizing s with
  | nil => exact ⟨0, Nat.le_refl 0, h⟩
  | cons stop more ih =>
    by_cases hr : s.status = .ready
    · obtain ⟨u, hu⟩ := step_next s
      rw [runChoices_of_ready hr hu] at h
      split at h
      · exact ⟨0, Nat.zero_le _, h⟩
      · obtain ⟨n, hn, hrun⟩ := ih h
        exact ⟨n + 1, Nat.succ_le_succ hn, (runChoices_of_ready hr hu false _).trans hrun⟩
    · rw [runChoices_of_not_ready hr] at h
      exact ⟨0, Nat.zero_le _, h⟩

/-- A stop with a breakpoint set changes nothing (R187). -/
theorem runChoices_stop {s : State} (hb : s.breakpoints ≠ []) (choices : List Bool) : runChoices (true :: choices) s = .next s := by
  by_cases hr : s.status = .ready
  · obtain ⟨u, hu⟩ := step_next s
    rw [runChoices_of_ready hr hu]
    exact if_pos (by simpa using hb)
  · exact runChoices_of_not_ready hr _

/-- Settles O55: a stop or a status other than Ready ends a run; until then it is steps. -/
theorem runsAreSteps : Obligations.RunsAreSteps := by
  unfold Obligations.RunsAreSteps
  refine ⟨fun _ _ _ h => exists_runChoices_replicate h, fun m n s t h => ?_, fun s _ => runChoices_singleton s,
    fun _ choices hb => runChoices_stop hb choices, fun _ choices hr => runChoices_of_not_ready hr choices⟩
  rw [List.replicate_add]
  exact runChoices_append h _

/-! The operations by the state they leave (R179). -/

/-- Settles O56: a load, a run and a step answer a next state; the other operations' answers are written out. -/
theorem operationsComplete : Obligations.OperationsComplete := by
  unfold Obligations.OperationsComplete
  intro c s
  cases c with
  | load source => rcases loadSource_cases source s with ⟨_, _, -, h⟩ | ⟨_, _, _, -, -, h⟩ | ⟨_, _, -, -, h⟩ <;> exact ⟨_, _, h⟩
  | run choices =>
    obtain ⟨t, ht⟩ := runChoices_next choices s
    exact ⟨.done, t, congrArg doneWith ht⟩
  | step =>
    obtain ⟨t, ht⟩ := step_next s
    exact ⟨.done, t, congrArg doneWith ht⟩
  | _ => exact ⟨_, _, rfl⟩

/-- The states an operation can leave. -/
inductive Leaves (s : State) : Command → State → Prop where
  | loadFailed (source : String) : Leaves s (.load source) (loadFailed s)
  | loadDone (source : String) {words : List InsnWord} {image : List Byte} (check : loadCheck s.params words image = none) :
      Leaves s (.load source) (loadDone words image s)
  | run {choices : List Bool} {t : State} (run : runChoices choices s = .next t) : Leaves s (.run choices) t
  | step {t : State} (step : step s = .next t) : Leaves s .step t
  | insertLine (n : Nat) : Leaves s (.setBreakpoint n) { s with breakpoints := insertLine n s.breakpoints }
  | removeLine (n : Nat) : Leaves s (.clearBreakpoint n) { s with breakpoints := removeLine n s.breakpoints }
  | enableCache {q : CacheRequest} {cfg : CacheConfig} (accepted : acceptConfig s.params.dataMemSize q = some cfg) :
      Leaves s (.enableCache q) (s.setData (installCache cfg (disableCache s.params.disableFlush s.data)))
  | disableCache : Leaves s .disableCache (s.setData (disableCache s.params.disableFlush s.data))
  | same (c : Command) : Leaves s c s

theorem leaves_of_command {c : Command} {s t : State} {r : Reply} (h : command c s = .next (r, t)) : Leaves s c t := by
  have answer {a : Reply × State} (e : Host.Outcome.next (φ := Fault) (ρ := Refusal) a = .next (r, t)) : t = a.2 :=
    (congrArg Prod.snd (Host.Outcome.next.inj e)).symm
  cases c with
  | load source =>
    rcases loadSource_cases source s with ⟨_, _, -, hl⟩ | ⟨_, _, _, -, -, hl⟩ | ⟨_, _, -, hcheck, hl⟩
    · exact answer (hl.symm.trans h) ▸ .loadFailed source
    · exact answer (hl.symm.trans h) ▸ .loadFailed source
    · exact answer (hl.symm.trans h) ▸ .loadDone source hcheck
  | run choices => exact .run (doneWith_next h)
  | step => exact .step (doneWith_next h)
  | setBreakpoint n => exact answer h ▸ .insertLine n
  | clearBreakpoint n => exact answer h ▸ .removeLine n
  | enableCache q =>
    rw [answer h, Machine.enableCache]
    cases hq : acceptConfig s.params.dataMemSize q with
    | none => exact .same _
    | some cfg => exact .enableCache hq
  | disableCache => exact answer h ▸ .disableCache
  | readRegisters => exact answer h ▸ .same _
  | readMemory address count => exact answer h ▸ .same _
  | cacheStats => exact answer h ▸ .same _

/-! The invariant (R9, R27 to R36, R73, R191, R192). -/

theorem mem_insertLine {n m : Nat} {ms : List Nat} (h : m ∈ insertLine n ms) : m = n ∨ m ∈ ms := by
  induction ms with
  | nil => exact .inl (List.mem_singleton.mp h)
  | cons k ms ih =>
    unfold insertLine at h
    split_ifs at h
    · exact List.mem_cons.mp h
    · exact .inr h
    · rcases List.mem_cons.mp h with rfl | h
      · exact .inr List.mem_cons_self
      · exact (ih h).imp_right (List.mem_cons_of_mem k)

/-- A set of lines with a line added is a set of lines (R36). -/
theorem insertLine_linesOk (n : Nat) {ms : List Nat} (h : LinesOk ms) : LinesOk (insertLine n ms) := by
  induction ms with
  | nil => exact List.pairwise_singleton _ n
  | cons k ms ih =>
    obtain ⟨hk, hms⟩ := List.pairwise_cons.mp h
    unfold insertLine
    split_ifs with hlt heq
    · refine List.pairwise_cons.mpr ⟨fun m hm => ?_, h⟩
      rcases List.mem_cons.mp hm with rfl | hm
      · exact hlt
      · exact hlt.trans (hk m hm)
    · exact h
    · refine List.pairwise_cons.mpr ⟨fun m hm => ?_, ih hms⟩
      rcases mem_insertLine hm with rfl | hm
      · omega
      · exact hk m hm

theorem removeLine_linesOk (n : Nat) {ms : List Nat} (h : LinesOk ms) : LinesOk (removeLine n ms) := h.filter _

/-- The checks of R191 hold exactly when the program and the image fit. -/
theorem loadCheck_eq_none_iff {p : Params} {words : List InsnWord} {image : List Byte} :
    loadCheck p words image = none ↔ words.length ≤ p.textCapacity ∧ p.dataBase + image.length ≤ p.dataMemSize := by
  unfold loadCheck
  split_ifs <;> simp <;> omega

theorem configOk_of_acceptConfig {size : Nat} {q : CacheRequest} {c : CacheConfig} (h : acceptConfig size q = some c) : configOk size c = true := by
  obtain ⟨p, w, -, -, hok, rfl⟩ := acceptConfig_some_iff.mp h
  exact hok

theorem State.Inv.loadFailed {s : State} (hs : s.Inv) : (loadFailed s).Inv where
  params := hs.params
  text := Nat.zero_le _
  data := (invalidateCache_ok hs.data rfl (List.forall_mem_nil _)).1
  status := ⟨rfl, rfl⟩
  breakpoints := hs.breakpoints

theorem State.Inv.loadDone {s : State} (hs : s.Inv) {words : List InsnWord} {image : List Byte} (h : loadCheck s.params words image = none) :
    (loadDone words image s).Inv := by
  obtain ⟨hwords, himage⟩ := loadCheck_eq_none_iff.mp h
  have hdata := invalidateCache_ok hs.data (writeBytes_wf rfl s.params.dataBase image) (writeBytes_below (List.forall_mem_nil _) himage)
  exact ⟨hs.params, hwords, hdata.1, trivial, hs.breakpoints⟩

theorem State.Inv.setData {s : State} (hs : s.Inv) {d : DataSide} (hd : DataOk s.params.dataMemSize d) : (s.setData d).Inv :=
  hs.of_sameProgram ⟨rfl, rfl, rfl⟩ hd hs.status

theorem State.Inv.setBreakpoints {s : State} (hs : s.Inv) {lines : List Nat} (h : LinesOk lines) : { s with breakpoints := lines }.Inv :=
  ⟨hs.params, hs.text, hs.data, hs.status, h⟩

/-- Settles O34: a run keeps the invariant as its steps do, a load leaves a sound data side and a program that fits, the cache's controls leave a
sound data side, the breakpoint operations a set of lines. -/
theorem commandsKeepInvariant : Obligations.CommandsKeepInvariant := by
  unfold Obligations.CommandsKeepInvariant
  intro c s t r hs h
  cases leaves_of_command h with
  | loadFailed => exact hs.loadFailed
  | loadDone _ check => exact hs.loadDone check
  | run run => exact runChoices_keeps stepKeepsInvariant hs run
  | step step => exact stepKeepsInvariant s t hs step
  | insertLine n => exact hs.setBreakpoints (insertLine_linesOk n hs.breakpoints)
  | removeLine n => exact hs.setBreakpoints (removeLine_linesOk n hs.breakpoints)
  | enableCache accepted => exact hs.setData (installCache_ok (configOk_of_acceptConfig accepted) (disableCache_ok hs.data _)).1
  | disableCache => exact hs.setData (disableCache_ok hs.data _)
  | same => exact hs

/-! A faulted block (R29, R168). -/

/-- Settles O14: a faulted block takes no step and so does not run, and no operation but these and the load changes a status. -/
theorem faultedForGood : Obligations.FaultedForGood := by
  unfold Obligations.FaultedForGood
  intro s f hf
  have hnot : s.status ≠ .ready := fun hr => nomatch hr.symm.trans hf
  refine ⟨step_of_not_ready hnot, runChoices_of_not_ready hnot, fun c r t h hload => ?_⟩
  cases leaves_of_command h with
  | loadFailed source => exact absurd rfl (hload source)
  | loadDone source => exact absurd rfl (hload source)
  | run run => exact Host.Outcome.next.inj ((runChoices_of_not_ready hnot _).symm.trans run) ▸ hf
  | step step => exact Host.Outcome.next.inj ((step_of_not_ready hnot).symm.trans step) ▸ hf
  | insertLine | removeLine | enableCache | disableCache | same => exact hf

/-! A cache never enabled (R186). -/

/-- The cache is off and its counters are 0. -/
def CacheUnused (d : DataSide) : Prop := d.cfg = none ∧ d.accesses = 0 ∧ d.hits = 0 ∧ d.misses = 0

theorem CacheUnused.memWrite {d : DataSide} (h : CacheUnused d) (a n : Nat) (v : Word) : CacheUnused (memWrite d a n v) := by
  rw [memWrite_of_off h.1]
  exact h

theorem exec_keeps_cacheUnused {i : Instr} {s t : State} (hs : CacheUnused s.data) (h : exec i s = .next t) : CacheUnused t.data := by
  rcases exec_next_cases h with ⟨rd, v, a, rfl⟩ | ⟨w, a, rd, v, -, rfl⟩ | ⟨w, a, v, -, rfl⟩ | ⟨f, -, rfl⟩
  · simpa using hs
  · simpa [memRead_data_of_off hs.1] using hs
  · exact hs.memWrite a w.bytes v
  · exact hs

theorem step_keeps_cacheUnused {s t : State} (hs : CacheUnused s.data) (h : step s = .next t) : CacheUnused t.data := by
  rcases step_next_cases h with rfl | ⟨f, -, rfl⟩ | ⟨-, -, rfl⟩ | ⟨-, w, i, -, -, he⟩
  · exact hs
  · exact hs
  · exact hs
  · exact exec_keeps_cacheUnused hs he

theorem disableCache_of_off {d : DataSide} (h : d.cfg = none) (f : DisableFlush) : disableCache f d = d := by
  rw [disableCache, h]

theorem command_keeps_cacheUnused {c : Command} {s t : State} {r : Reply} (hc : ∀ q, c ≠ .enableCache q) (hs : CacheUnused s.data)
    (h : command c s = .next (r, t)) : CacheUnused t.data := by
  cases leaves_of_command h with
  | loadFailed | loadDone => exact ⟨hs.1, rfl, rfl, rfl⟩
  | step step => exact step_keeps_cacheUnused hs step
  | run run => exact runChoices_keeps (P := fun u => CacheUnused u.data) (fun _ _ => step_keeps_cacheUnused) hs run
  | insertLine | removeLine | same => exact hs
  | enableCache => exact absurd rfl (hc _)
  | disableCache => exact (disableCache_of_off hs.1 _).symm ▸ hs

/-- Settles O54: the answer is the counters; a load zeroes them, an instruction with the cache off leaves them, and power-on starts so. -/
theorem cacheStatsRule : Obligations.CacheStatsRule := by
  unfold Obligations.CacheStatsRule
  refine ⟨fun _ => rfl, fun c s t r hc hoff ha hh hm h => command_keeps_cacheUnused hc ⟨hoff, ha, hh, hm⟩ h, fun p s h => ?_⟩
  by_cases hok : p.ok = true
  · obtain rfl := Host.Outcome.next.inj ((State.powerOn_of_ok hok).symm.trans h)
    exact ⟨rfl, rfl, rfl, rfl⟩
  · exact nomatch (State.powerOn_of_not_ok hok).symm.trans h

/-! A step does not heed the breakpoints (R182). -/

/-- `s` with another set of breakpoints. -/
def State.withBreakpoints (s : State) (ms : List Nat) : State := { s with breakpoints := ms }

/-- The form a register write and a jump leave a state in commutes with the change of breakpoints. -/
theorem State.setReg_setPc_withBreakpoints (s : State) (ms : List Nat) (rd : RegIdx) (v a : Word) :
    ((s.withBreakpoints ms).setReg rd v).setPc a = ((s.setReg rd v).setPc a).withBreakpoints ms := by
  unfold State.setReg
  split <;> rfl

theorem loadTemplate_withBreakpoints {w : Width} {e : Extension} {rd rs1 : RegIdx} {imm : BitVec 12} {s t : State} (ms : List Nat)
    (h : loadTemplate w e rd rs1 imm s = .next t) : loadTemplate w e rd rs1 imm (s.withBreakpoints ms) = .next (t.withBreakpoints ms) := by
  rcases Nat.lt_or_ge s.params.dataMemSize ((effAddr s rs1 imm).toNat + w.bytes) with hout | hin
  · obtain rfl := Host.Outcome.next.inj ((loadTemplate_out w e rd rs1 imm s hout).symm.trans h)
    exact loadTemplate_out w e rd rs1 imm (s.withBreakpoints ms) hout
  · obtain rfl := Host.Outcome.next.inj ((loadTemplate_in w e rd rs1 imm s hin).symm.trans h)
    refine (loadTemplate_in w e rd rs1 imm (s.withBreakpoints ms) hin).trans ?_
    exact congrArg _ (State.setReg_setPc_withBreakpoints (s.setData _) ms rd _ _)

theorem storeTemplate_withBreakpoints {w : Width} {rs2 rs1 : RegIdx} {imm : BitVec 12} {s t : State} (ms : List Nat)
    (h : storeTemplate w rs2 rs1 imm s = .next t) : storeTemplate w rs2 rs1 imm (s.withBreakpoints ms) = .next (t.withBreakpoints ms) := by
  rcases Nat.lt_or_ge s.params.dataMemSize ((effAddr s rs1 imm).toNat + w.bytes) with hout | hin
  · obtain rfl := Host.Outcome.next.inj ((storeTemplate_out w rs2 rs1 imm s hout).symm.trans h)
    exact storeTemplate_out w rs2 rs1 imm (s.withBreakpoints ms) hout
  · obtain rfl := Host.Outcome.next.inj ((storeTemplate_in w rs2 rs1 imm s hin).symm.trans h)
    exact storeTemplate_in w rs2 rs1 imm (s.withBreakpoints ms) hin

/-- No instruction reads or writes the breakpoints: its templates and its register write do not. -/
theorem exec_withBreakpoints {i : Instr} {s t : State} (ms : List Nat) (h : exec i s = .next t) :
    exec i (s.withBreakpoints ms) = .next (t.withBreakpoints ms) := by
  have write (rd : RegIdx) (v a : Word) (he : exec i (s.withBreakpoints ms) = .next (((s.withBreakpoints ms).setReg rd v).setPc a))
      (he' : exec i s = .next ((s.setReg rd v).setPc a)) : exec i (s.withBreakpoints ms) = .next (t.withBreakpoints ms) := by
    obtain rfl := Host.Outcome.next.inj (he'.symm.trans h)
    exact he.trans (congrArg _ (State.setReg_setPc_withBreakpoints s ms rd v a))
  cases i with
  | lb | lh | lw | ld | lbu | lhu | lwu => exact loadTemplate_withBreakpoints ms h
  | sb | sh | sw | sd => exact storeTemplate_withBreakpoints ms h
  | beq | bne | blt | bge | bltu | bgeu => exact write 0#5 0 _ rfl rfl
  | _ => exact write _ _ _ rfl rfl

theorem decodeExecute_withBreakpoints {w : InsnWord} {s t : State} (ms : List Nat) (h : decodeExecute w s = .next t) :
    decodeExecute w (s.withBreakpoints ms) = .next (t.withBreakpoints ms) := by
  cases hd : decode w with
  | illegal =>
    obtain rfl := Host.Outcome.next.inj ((decodeExecute_illegal hd s).symm.trans h)
    exact decodeExecute_illegal hd _
  | legal i => exact (decodeExecute_legal hd _).trans (exec_withBreakpoints ms ((decodeExecute_legal hd s).symm.trans h))

theorem step_withBreakpoints {s t : State} (ms : List Nat) (h : step s = .next t) :
    step (s.withBreakpoints ms) = .next (t.withBreakpoints ms) := by
  by_cases hr : s.status = .ready
  · have hr' : (s.withBreakpoints ms).status = .ready := hr
    have hfetch : fetch (s.withBreakpoints ms) = fetch s := rfl
    cases hf : fetch s with
    | fault f =>
      obtain rfl := Host.Outcome.next.inj ((step_of_fetch_fault hr hf).symm.trans h)
      exact step_of_fetch_fault hr' (hfetch.trans hf)
    | ended =>
      obtain rfl := Host.Outcome.next.inj ((step_of_fetch_ended hr hf).symm.trans h)
      exact step_of_fetch_ended hr' (hfetch.trans hf)
    | word w =>
      rw [step_of_fetch_word hr' (hfetch.trans hf)]
      exact decodeExecute_withBreakpoints ms ((step_of_fetch_word hr hf).symm.trans h)
  · obtain rfl := Host.Outcome.next.inj ((step_of_not_ready hr).symm.trans h)
    exact step_of_not_ready (s := s.withBreakpoints ms) hr

/-- Settles O11: a step by the status and the fetch, neither of which reads the breakpoints. -/
theorem Cycle.stepWhenReady : Obligations.StepWhenReady := by
  unfold Obligations.StepWhenReady
  exact fun s => ⟨step_of_not_ready, step_of_ready, fun hr hpos hend => step_of_fetch_ended hr (fetch_at_end hpos hend),
    fun _ ms h => step_withBreakpoints ms h, fun _ h => congrArg doneWith h⟩

/-! The reads (R183, R184). -/

/-- Settles O52: the register numbers run from 0 to 31, and x0 reads 0. -/
theorem readRegistersRule : Obligations.ReadRegistersRule := by
  unfold Obligations.ReadRegistersRule
  refine fun s => ⟨readRegisters s, rfl, by simp [readRegisters], fun r => ?_, rfl⟩
  simp [readRegisters, List.getElem?_range r.isLt]

/-- Settles O53: the bounds check, then the bytes of MEM one by one. -/
theorem readMemoryRule : Obligations.ReadMemoryRule := by
  unfold Obligations.ReadMemoryRule
  refine fun s address count => ⟨fun hout => ?_, fun hin => ⟨readBytes s.data.mem address count, ?_, readBytes_length .., fun k hk => ?_⟩⟩
  · rw [command, readMemory, if_neg (Nat.not_le.mpr hout)]
  · rw [command, readMemory, if_pos hin]
  · simp [readBytes_eq_map, hk]

end Sys2Proof.Machine
end

section
/-! Proofs of the family 70_reset_and_hazards: what a load that succeeds and one that fails leave (R39, R77, R180, R191, R192), and the state after
reset. -/

namespace Sys2Proof.Machine

/-! The cache after a load (R77). -/

/-- No line is left valid or dirty: a configured cache holds empty lines alone, an unconfigured one none. -/
theorem invalidateCache_lines (d : DataSide) : ∀ ways ∈ (invalidateCache d).lines, ∀ l ∈ ways, l.valid = false ∧ l.dirty = false := by
  intro ways hways l hl
  cases hc : d.cfg with
  | none => simp [invalidateCache, hc] at hways
  | some c =>
    simp only [invalidateCache, hc, emptyLines] at hways
    rw [List.eq_of_mem_replicate hways] at hl
    rw [List.eq_of_mem_replicate hl]
    exact ⟨rfl, rfl⟩

theorem mem_getSet {d : DataSide} {set : Nat} {l : Line} (h : l ∈ getSet d set) : ∃ ways ∈ d.lines, l ∈ ways := by
  rw [getSet, List.getD_eq_getElem?_getD] at h
  cases hs : d.lines[set]? with
  | none => simp [hs] at h
  | some ways => exact ⟨ways, List.mem_of_getElem? hs, by simpa [hs] using h⟩

/-- Where no line is valid, the coherent view is MEM (R73), whatever the configuration. -/
theorem view_of_lines_invalid {d : DataSide} (h : ∀ ways ∈ d.lines, ∀ l ∈ ways, l.valid = false) (a : Nat) : view d a = readByte d.mem a := by
  cases hc : d.cfg with
  | none => exact view_none hc a
  | some c =>
    refine (view_some hc a).trans (Good.view_miss fun l hl hv => ?_)
    obtain ⟨ways, hways, hmem⟩ := mem_getSet hl
    exact absurd hv (by simp [h ways hways l hmem])

/-! The state a load leaves (R39, R191, R192). -/

/-- The registers after a load are a file of zeros with one write, to x2. -/
theorem State.getReg_of_loaded_regs {s : State} {p : Params} (h : s.x = loadedRegs p) (r : RegIdx) :
    s.getReg r = if r = 2 then BitVec.ofNat 64 p.stackTop else 0 := by
  have hwrite : s.x = ((State.unloaded p).setReg 2 (BitVec.ofNat 64 p.stackTop)).x := h
  have hnz : r = 2 ∧ r ≠ 0 ↔ r = 2 := and_iff_left_of_imp fun hr => hr ▸ by decide
  rw [State.getReg_of_same_x hwrite, State.getReg_setReg, State.getReg_unloaded]
  exact if_congr hnz rfl rfl

theorem readByte_loadDone (words : List InsnWord) (image : List Byte) (s : State) (a : Nat) :
    readByte (loadDone words image s).data.mem a =
      if s.params.dataBase ≤ a ∧ a < s.params.dataBase + image.length then image.getD (a - s.params.dataBase) 0 else 0 :=
  readByte_writeBytes rfl s.params.dataBase image a

theorem view_loadDone (words : List InsnWord) (image : List Byte) (s : State) (a : Nat) :
    (loadDone words image s).view a = readByte (loadDone words image s).data.mem a :=
  view_of_lines_invalid (d := (loadDone words image s).data) (fun ways hways l hl => (invalidateCache_lines s.data ways hways l hl).1) a

/-! The checks of R191 in their order, and the answers they decide. -/

theorem loadCheck_of_overfull {p : Params} {words : List InsnWord} (h : p.textCapacity < words.length) (image : List Byte) :
    loadCheck p words image = some .capacityError := if_pos h

theorem loadCheck_of_image_out {p : Params} {words : List InsnWord} {image : List Byte} (hwords : words.length ≤ p.textCapacity)
    (himage : p.dataMemSize < p.dataBase + image.length) : loadCheck p words image = some .memoryBoundsError :=
  (if_neg (Nat.not_lt.mpr hwords)).trans (if_pos himage)

section
variable {words : List InsnWord} {image : List Byte} {s : State}

theorem loadWords_of_fits (h : loadCheck s.params words image = none) : loadWords words image s = (none, loadDone words image s) := by
  rw [loadWords, h]

theorem loadWords_of_error {e : LoadError} (h : loadCheck s.params words image = some e) :
    loadWords words image s = (some e, loadFailed s) := by
  rw [loadWords, h]

variable {src : String}

theorem command_load_of_fits (ha : assemble src.toList = .ok (words, image)) (h : loadCheck s.params words image = none) :
    command (.load src) s = .next (.loaded words.length, loadDone words image s) := by
  rw [command, loadSource, ha]
  simp only [loadWords_of_fits h]
  rfl

theorem command_load_of_error {e : LoadError} (ha : assemble src.toList = .ok (words, image))
    (h : loadCheck s.params words image = some e) : command (.load src) s = .next (.loadFailed e, loadFailed s) := by
  rw [command, loadSource, ha]
  simp only [loadWords_of_error h]

theorem command_load_of_rejected {e : AssembleError} {n : Nat} (ha : assemble src.toList = .error (e, n)) :
    command (.load src) s = .next (.loadFailed (.assemble e n), loadFailed s) := by
  rw [command, loadSource, ha]

end

/-! The obligations. -/

/-- Settles O50: where the program and the image fit, a load leaves loadDone, whose MEM is the image written over nothing and whose cache holds no
valid line. -/
theorem loadResets : Obligations.LoadResets := by
  unfold Obligations.LoadResets
  intro words image s hwords himage
  have hfits : loadCheck s.params words image = none := loadCheck_eq_none_iff.mpr ⟨hwords, himage⟩
  exact ⟨loadDone words image s, loadWords_of_fits hfits, fun src ha => command_load_of_fits ha hfits, rfl, rfl, rfl, rfl,
    State.getReg_of_loaded_regs rfl, readByte_loadDone words image s, view_loadDone words image s, invalidateCache_lines s.data,
    rfl, rfl, rfl, rfl, rfl, rfl⟩

/-- Settles O51: each error by the check that raises it, and loadFailed is a block of zeros that is not Ready. -/
theorem failedLoadUnloads : Obligations.FailedLoadUnloads := by
  unfold Obligations.FailedLoadUnloads
  refine ⟨fun words image s => ⟨fun hover => ?_, fun hwords himage => ?_⟩,
    fun src words image s ha => ⟨fun hover => ?_, fun hwords himage => ?_⟩, fun src s e n ha => command_load_of_rejected ha, fun s => ?_⟩
  · exact loadWords_of_error (loadCheck_of_overfull hover image)
  · exact loadWords_of_error (loadCheck_of_image_out hwords himage)
  · exact command_load_of_error ha (loadCheck_of_overfull hover image)
  · exact command_load_of_error ha (loadCheck_of_image_out hwords himage)
  · have hnot : (loadFailed s).status ≠ .ready := fun h => nomatch h
    exact ⟨rfl, rfl, rfl, State.getReg_of_zero_regs rfl, readByte_nil, invalidateCache_lines s.data, rfl, rfl, rfl, rfl, rfl, rfl,
      step_of_not_ready hnot, runChoices_of_not_ready hnot⟩

theorem loadCheck_nothing {p : Params} (h : p.ok = true) : loadCheck p [] [] = none := by
  obtain ⟨-, -, hbase, -⟩ := (Params.ok_iff p).mp h
  exact loadCheck_eq_none_iff.mpr ⟨Nat.zero_le _, hbase⟩

/-- State.reset is what a load of nothing leaves of the block just powered on (R191, log 5). -/
theorem loadDone_nothing_unloaded : loadDone [] [] (State.unloaded Params.test) = State.reset := rfl

theorem Params.test_ok : Params.test.ok = true := by decide

/-- Settles O35: the block just powered on meets the invariant, and a load keeps it. -/
theorem resetMeetsInvariant : Obligations.ResetMeetsInvariant := by
  unfold Obligations.ResetMeetsInvariant
  rw [← loadDone_nothing_unloaded]
  exact (State.unloaded_inv Params.test_ok).loadDone (loadCheck_nothing Params.test_ok)

/-- Settles O36: a load of nothing passes the checks of R191, and its registers are those of any load. -/
theorem resetState : Obligations.ResetState := by
  unfold Obligations.ResetState
  have hload : loadWords [] [] (State.unloaded Params.test) = (none, State.reset) := loadWords_of_fits (loadCheck_nothing Params.test_ok)
  exact ⟨hload, rfl, rfl, rfl, rfl, State.getReg_of_loaded_regs rfl, readByte_nil, rfl, rfl, rfl, rfl⟩

end Sys2Proof.Machine
end
